-- ==== Sys2Proof/Word.lean ====
section
/-! DEFINITION. The words of B64C: bytes, command words and code units. -/

namespace Sys2Proof

/-- An element of an encode input or of a decode output (00_scope.md R6: 8-bit unsigned). -/
abbrev Byte := BitVec 8

/-- A command word (30_encoding.md R81: 16 bits, one format). -/
abbrev CmdWord := BitVec 16

/-- The container of one element of IN or OUT. It is as wide as the widest code unit (00_scope.md R7:
W is 8, 16 or 32); a byte or a narrower code unit is held in it zero-extended. -/
abbrev CodeUnit := BitVec 32

end Sys2Proof
end

