-- ==== Sys2Proof/Config.lean ====
section
/-! DEFINITION. What the host fixes before a run (W and MAX_LEN) and the free values of the spec. -/

namespace Sys2Proof

/-- The code-unit width W (00_scope.md R7: "takes one of the values 8, 16 or 32"). -/
inductive Width
  | w8
  | w16
  | w32
deriving DecidableEq, Repr

/-- The number of bits of a code unit of this width. -/
def Width.bits : Width → Nat
  | .w8 => 8
  | .w16 => 16
  | .w32 => 32

/-- MODEL'S OWN. Which commands check |IN| against MAX_LEN, where the spec's rules part: "A command whose |IN|
exceeds it faults" (00_scope.md R8, 92_eei_decisions.md D7), or ENC, DEC and SFEED (60_exceptions.md R244, R248).
The model holds both readings. Log entry 20. -/
inductive LengthRule
  | everyCommand
  | listedCommands
deriving DecidableEq, Repr

/-- The two parameters of the block (00_scope.md R7, R8; 70_reset_and_hazards.md R272: "They are fixed
for the run and take no command"), and the reading of R8. `maxLen = none` is MAX_LEN infinite. Log entry 1. -/
structure Config where
  width : Width
  maxLen : Option Nat
  lengthRule : LengthRule
deriving DecidableEq, Repr

/-- FREE VALUE. What a command that ends with STATUS other than OK leaves in OUT, for the `n`-th draw;
the machine keeps at most OUTCAP elements of it (10_state.md R33). Log entry 7. -/
opaque Config.freeOut : Nat → List Byte

/-- FREE VALUE. The carry cell at an index at or above PENDING, for the `n`-th draw
(10_state.md R42, 44_streaming.md R212: "CARRY[rem..4) unspecified"). Log entry 7. -/
opaque Config.freeCarry : Nat → Nat → Byte

/-- FREE VALUE. PENDING of the named context record before any CTXINIT (70_reset_and_hazards.md R270:
"with PENDING and CARRY unspecified"). Log entry 8. -/
opaque Config.freshPending : Nat → BitVec 3

/-- FREE VALUE. The carry cells of the named context record before any CTXINIT (R270). Log entry 8. -/
opaque Config.freshCarry : Nat → Nat → Byte

/-- FREE VALUE. What a result register of this many bits takes up of a value that needs more of them
(10_state.md R31, R32 with 43_bulk.md R182); the register keeps its own bits of it. Log entry 9. -/
opaque Config.overflow : Nat → Nat → Nat

end Sys2Proof
end

