-- ==== Sys2Proof/Syntax.lean ====
section
/-! DEFINITION. The commands of B64C: families, variants, operations and the instruction type. -/

namespace Sys2Proof

/-- The three families (10_state.md R20; 00_scope.md R15 "Family"). -/
inductive Family
  | f64
  | f32
  | f16
deriving DecidableEq, Repr

/-- The ten variants, a closed set (00_scope.md R2, 90_conflicts.md C9). -/
inductive Variant
  | base64
  | base64Url
  | base32
  | base32Lower
  | base32Hex
  | base32HexLower
  | base32Crockford
  | base32CrockfordLower
  | base16
  | base16Lower
deriving DecidableEq, Repr

/-- The 24 operations, the OP field by name (30_encoding.md R85). -/
inductive Op
  | ctxinit | enc | dec | sfeed | sfin
  | e64t1 | e64t2 | e64b3 | e64b6
  | e32t1 | e32t2 | e32t3 | e32t4 | e32b5
  | e16b1
  | d64t2 | d64t3 | d64b4
  | d32t2 | d32t4 | d32t5 | d32t7 | d32b8
  | d16b2
deriving DecidableEq, Repr

/-- One constructor per row of spec/opcode_table.json, with the fields its command word carries:
the variant V and, where 30_encoding.md R85 says "P ok", the padding flag. -/
inductive Instr
  | ctxinit
  | enc (v : Variant) (p : Bool)
  | dec (v : Variant)
  | sfeed (v : Variant)
  | sfin (v : Variant) (p : Bool)
  | e64t1 (v : Variant) (p : Bool)
  | e64t2 (v : Variant) (p : Bool)
  | e64b3 (v : Variant)
  | e64b6 (v : Variant)
  | e32t1 (v : Variant) (p : Bool)
  | e32t2 (v : Variant) (p : Bool)
  | e32t3 (v : Variant) (p : Bool)
  | e32t4 (v : Variant) (p : Bool)
  | e32b5 (v : Variant)
  | e16b1 (v : Variant)
  | d64t2 (v : Variant)
  | d64t3 (v : Variant)
  | d64b4 (v : Variant)
  | d32t2 (v : Variant)
  | d32t4 (v : Variant)
  | d32t5 (v : Variant)
  | d32t7 (v : Variant)
  | d32b8 (v : Variant)
  | d16b2 (v : Variant)
deriving DecidableEq, Repr

/-- The operation of an instruction. -/
def Instr.op : Instr → Op
  | .ctxinit => .ctxinit
  | .enc _ _ => .enc
  | .dec _ => .dec
  | .sfeed _ => .sfeed
  | .sfin _ _ => .sfin
  | .e64t1 _ _ => .e64t1
  | .e64t2 _ _ => .e64t2
  | .e64b3 _ => .e64b3
  | .e64b6 _ => .e64b6
  | .e32t1 _ _ => .e32t1
  | .e32t2 _ _ => .e32t2
  | .e32t3 _ _ => .e32t3
  | .e32t4 _ _ => .e32t4
  | .e32b5 _ => .e32b5
  | .e16b1 _ => .e16b1
  | .d64t2 _ => .d64t2
  | .d64t3 _ => .d64t3
  | .d64b4 _ => .d64b4
  | .d32t2 _ => .d32t2
  | .d32t4 _ => .d32t4
  | .d32t5 _ => .d32t5
  | .d32t7 _ => .d32t7
  | .d32b8 _ => .d32b8
  | .d16b2 _ => .d16b2

/-- The variant an instruction names; CTXINIT names none and its VAR field is 0x00, the code of
base64 (30_encoding.md R85, R86). -/
def Instr.variant : Instr → Variant
  | .ctxinit => .base64
  | .enc v _ | .dec v | .sfeed v | .sfin v _ => v
  | .e64t1 v _ | .e64t2 v _ | .e64b3 v | .e64b6 v => v
  | .e32t1 v _ | .e32t2 v _ | .e32t3 v _ | .e32t4 v _ | .e32b5 v | .e16b1 v => v
  | .d64t2 v | .d64t3 v | .d64b4 v => v
  | .d32t2 v | .d32t4 v | .d32t5 v | .d32t7 v | .d32b8 v | .d16b2 v => v

/-- The padding flag P of an instruction; 0 where the command takes none (30_encoding.md R83). -/
def Instr.pad : Instr → Bool
  | .enc _ p | .sfin _ p => p
  | .e64t1 _ p | .e64t2 _ p => p
  | .e32t1 _ p | .e32t2 _ p | .e32t3 _ p | .e32t4 _ p => p
  | .ctxinit | .dec _ | .sfeed _ => false
  | .e64b3 _ | .e64b6 _ | .e32b5 _ | .e16b1 _ => false
  | .d64t2 _ | .d64t3 _ | .d64b4 _ => false
  | .d32t2 _ | .d32t4 _ | .d32t5 _ | .d32t7 _ | .d32b8 _ | .d16b2 _ => false

/-- The instruction that an operation, a variant and a padding flag make. -/
def Op.instr : Op → Variant → Bool → Instr
  | .ctxinit, _, _ => .ctxinit
  | .enc, v, p => .enc v p
  | .dec, v, _ => .dec v
  | .sfeed, v, _ => .sfeed v
  | .sfin, v, p => .sfin v p
  | .e64t1, v, p => .e64t1 v p
  | .e64t2, v, p => .e64t2 v p
  | .e64b3, v, _ => .e64b3 v
  | .e64b6, v, _ => .e64b6 v
  | .e32t1, v, p => .e32t1 v p
  | .e32t2, v, p => .e32t2 v p
  | .e32t3, v, p => .e32t3 v p
  | .e32t4, v, p => .e32t4 v p
  | .e32b5, v, _ => .e32b5 v
  | .e16b1, v, _ => .e16b1 v
  | .d64t2, v, _ => .d64t2 v
  | .d64t3, v, _ => .d64t3 v
  | .d64b4, v, _ => .d64b4 v
  | .d32t2, v, _ => .d32t2 v
  | .d32t4, v, _ => .d32t4 v
  | .d32t5, v, _ => .d32t5 v
  | .d32t7, v, _ => .d32t7 v
  | .d32b8, v, _ => .d32b8 v
  | .d16b2, v, _ => .d16b2 v

end Sys2Proof
end

