-- ==== Sys2Proof/Machine/Rom.lean ====
section
/-! DEFINITION. The constants of the block: the geometry of the families and the alphabet ROM. -/

namespace Sys2Proof

/-- Ceiling division, as 00_scope.md R11 defines it: `(a + b - 1) / b`. -/
def ceilDiv (a b : Nat) : Nat := (a + b - 1) / b

/-- The fixed mapping of variants to families (10_state.md R20). -/
def Variant.family : Variant → Family
  | .base64 | .base64Url => .f64
  | .base32 | .base32Lower | .base32Hex | .base32HexLower => .f32
  | .base32Crockford | .base32CrockfordLower => .f32
  | .base16 | .base16Lower => .f16

/-- The "fam" column of 30_encoding.md R85; `none` where any family is legal (CTXINIT has no variant). -/
def Op.family : Op → Option Family
  | .ctxinit | .enc | .dec | .sfeed | .sfin => none
  | .e64t1 | .e64t2 | .e64b3 | .e64b6 => some .f64
  | .e32t1 | .e32t2 | .e32t3 | .e32t4 | .e32b5 => some .f32
  | .e16b1 => some .f16
  | .d64t2 | .d64t3 | .d64b4 => some .f64
  | .d32t2 | .d32t4 | .d32t5 | .d32t7 | .d32b8 => some .f32
  | .d16b2 => some .f16

/-- Check 4 of 30_encoding.md R86: the variant's family is the operation's. -/
def Op.takesFamily (o : Op) (f : Family) : Bool :=
  match o.family with
  | none => true
  | some g => decide (f = g)

/-- Bits per symbol, k(F) (10_state.md R21). -/
def Family.k : Family → Nat
  | .f64 => 6
  | .f32 => 5
  | .f16 => 4

/-- Bytes of a block, B(F) (10_state.md R21). -/
def Family.B : Family → Nat
  | .f64 => 3
  | .f32 => 5
  | .f16 => 1

/-- Symbols of a group, S(F) (10_state.md R21). -/
def Family.S : Family → Nat
  | .f64 => 4
  | .f32 => 8
  | .f16 => 2

/-- Data symbols for `n` bytes, `tsym(F, n)` (10_state.md R21). -/
def Family.tsym (f : Family) (n : Nat) : Nat := ceilDiv (8 * n) f.k

/-- The legal data-symbol counts of a final partial group, `TAILS(F)` (10_state.md R21). -/
def Family.tails (f : Family) : List Nat := (List.range' 1 (f.B - 1)).map f.tsym

/-- Bytes carried by `r` data symbols, `tbytes(F, r)` (10_state.md R21). -/
def Family.tbytes (f : Family) (r : Nat) : Nat := r * f.k / 8

/-- `A` to `Z` (10_state.md R23). -/
def romUpper : List Byte :=
  [0x41, 0x42, 0x43, 0x44, 0x45, 0x46, 0x47, 0x48] ++ [0x49, 0x4A, 0x4B, 0x4C, 0x4D, 0x4E, 0x4F, 0x50] ++
  [0x51, 0x52, 0x53, 0x54, 0x55, 0x56, 0x57, 0x58] ++ [0x59, 0x5A]

/-- `a` to `z` (10_state.md R23). -/
def romLower : List Byte :=
  [0x61, 0x62, 0x63, 0x64, 0x65, 0x66, 0x67, 0x68] ++ [0x69, 0x6A, 0x6B, 0x6C, 0x6D, 0x6E, 0x6F, 0x70] ++
  [0x71, 0x72, 0x73, 0x74, 0x75, 0x76, 0x77, 0x78] ++ [0x79, 0x7A]

/-- `0` to `9` (10_state.md R23, R26). -/
def romDigits : List Byte := [0x30, 0x31, 0x32, 0x33, 0x34, 0x35, 0x36, 0x37, 0x38, 0x39]

/-- The first 62 entries that base64 and base64-url share (10_state.md R23, R24). -/
def romBase64Common : List Byte := romUpper ++ romLower ++ romDigits

/-- base32 (10_state.md R25). -/
def romBase32 : List Byte := romUpper ++ [0x32, 0x33, 0x34, 0x35, 0x36, 0x37]

/-- base32-hex (10_state.md R25). -/
def romBase32Hex : List Byte :=
  romDigits ++ [0x41, 0x42, 0x43, 0x44, 0x45, 0x46] ++ [0x47, 0x48, 0x49, 0x4A, 0x4B, 0x4C, 0x4D, 0x4E] ++
  [0x4F, 0x50, 0x51, 0x52, 0x53, 0x54, 0x55, 0x56]

/-- base32-crockford: the letters I, L, O and U are absent (10_state.md R25). -/
def romBase32Crockford : List Byte :=
  romDigits ++ [0x41, 0x42, 0x43, 0x44, 0x45, 0x46] ++ [0x47, 0x48, 0x4A, 0x4B, 0x4D, 0x4E, 0x50, 0x51] ++
  [0x52, 0x53, 0x54, 0x56, 0x57, 0x58, 0x59, 0x5A]

/-- base16 (10_state.md R26). -/
def romBase16 : List Byte := romDigits ++ [0x41, 0x42, 0x43, 0x44, 0x45, 0x46]

/-- The lowercase form of a code: letters A to Z get code + 0x20, other codes are unchanged
(10_state.md R25). -/
def lowerCode (b : Byte) : Byte := if 0x41 ≤ b.toNat ∧ b.toNat ≤ 0x5A then b + 0x20 else b

/-- The forward table of a variant, entries 0 to 2^k - 1 (10_state.md R22 to R26). -/
def fwdTable : Variant → List Byte
  | .base64 => romBase64Common ++ [0x2B, 0x2F]
  | .base64Url => romBase64Common ++ [0x2D, 0x5F]
  | .base32 => romBase32
  | .base32Lower => romBase32.map lowerCode
  | .base32Hex => romBase32Hex
  | .base32HexLower => romBase32Hex.map lowerCode
  | .base32Crockford => romBase32Crockford
  | .base32CrockfordLower => romBase32Crockford.map lowerCode
  | .base16 => romBase16
  | .base16Lower => romBase16.map lowerCode

/-- The pad symbol, `=` for every variant (10_state.md R27). -/
def PAD (_v : Variant) : Byte := 0x3D

/-- The forward table with the pad at index 2^k (10_state.md R22). -/
def FWD (v : Variant) (i : Nat) : Byte := (fwdTable v).getD i (PAD v)

/-- The reverse table over all code units; `none` is INVALID (10_state.md R28). -/
def REV (v : Variant) (c : CodeUnit) : Option Nat :=
  if c.toNat < 256 then (fwdTable v).findIdx? (fun b => b.toNat == c.toNat) else none

/-- A symbol's 8-bit code as a W-bit code unit, `zext_W` (20_memory.md R63), in its container. -/
def zextW (w : Width) (b : Byte) : CodeUnit := (b.setWidth w.bits).setWidth 32

end Sys2Proof
end

