-- ==== Sys2Proof/WellFormed.lean ====
section
/-! DEFINITION. Which instruction terms stand for a command: a block command's variant is of its family. -/

namespace Sys2Proof

/-- A well-formed instruction: its variant is of the family its operation needs (30_encoding.md R85).
The other checks of R86 hold of every term by its type. -/
abbrev Instr.WellFormed (i : Instr) : Prop := i.op.takesFamily i.variant.family = true

end Sys2Proof
end

