-- ==== Sys2Proof/Decode.lean ====
section
/-! DEFINITION. Command words: the decoder, total on all 2^16 words, and the encoder. -/

namespace Sys2Proof

/-- The OP value of an operation (30_encoding.md R85). -/
def Op.code : Op → BitVec 8
  | .ctxinit => 0x01
  | .enc => 0x02
  | .dec => 0x03
  | .sfeed => 0x04
  | .sfin => 0x05
  | .e64t1 => 0x21
  | .e64t2 => 0x22
  | .e64b3 => 0x23
  | .e64b6 => 0x26
  | .e32t1 => 0x31
  | .e32t2 => 0x32
  | .e32t3 => 0x33
  | .e32t4 => 0x34
  | .e32b5 => 0x35
  | .e16b1 => 0x41
  | .d64t2 => 0x52
  | .d64t3 => 0x53
  | .d64b4 => 0x54
  | .d32t2 => 0x62
  | .d32t4 => 0x64
  | .d32t5 => 0x65
  | .d32t7 => 0x67
  | .d32b8 => 0x68
  | .d16b2 => 0x72

/-- The operation an OP value names, if any (30_encoding.md R85). -/
def opOfCode (c : BitVec 8) : Option Op :=
  match c.toNat with
  | 0x01 => some .ctxinit
  | 0x02 => some .enc
  | 0x03 => some .dec
  | 0x04 => some .sfeed
  | 0x05 => some .sfin
  | 0x21 => some .e64t1
  | 0x22 => some .e64t2
  | 0x23 => some .e64b3
  | 0x26 => some .e64b6
  | 0x31 => some .e32t1
  | 0x32 => some .e32t2
  | 0x33 => some .e32t3
  | 0x34 => some .e32t4
  | 0x35 => some .e32b5
  | 0x41 => some .e16b1
  | 0x52 => some .d64t2
  | 0x53 => some .d64t3
  | 0x54 => some .d64b4
  | 0x62 => some .d32t2
  | 0x64 => some .d32t4
  | 0x65 => some .d32t5
  | 0x67 => some .d32t7
  | 0x68 => some .d32b8
  | 0x72 => some .d16b2
  | _ => none

/-- The VAR code of a variant (30_encoding.md R82; 10_state.md R20). -/
def Variant.code : Variant → BitVec 5
  | .base64 => 0x00
  | .base64Url => 0x01
  | .base32 => 0x08
  | .base32Lower => 0x09
  | .base32Hex => 0x0A
  | .base32HexLower => 0x0B
  | .base32Crockford => 0x0C
  | .base32CrockfordLower => 0x0D
  | .base16 => 0x10
  | .base16Lower => 0x11

/-- The variant a VAR value names; `none` where it is reserved (30_encoding.md R82). -/
def variantOfCode (c : BitVec 5) : Option Variant :=
  match c.toNat with
  | 0x00 => some .base64
  | 0x01 => some .base64Url
  | 0x08 => some .base32
  | 0x09 => some .base32Lower
  | 0x0A => some .base32Hex
  | 0x0B => some .base32HexLower
  | 0x0C => some .base32Crockford
  | 0x0D => some .base32CrockfordLower
  | 0x10 => some .base16
  | 0x11 => some .base16Lower
  | _ => none

/-- The "P ok" column of 30_encoding.md R85 (R83). -/
def Op.takesPad : Op → Bool
  | .enc | .sfin | .e64t1 | .e64t2 | .e32t1 | .e32t2 | .e32t3 | .e32t4 => true
  | .ctxinit | .dec | .sfeed | .e64b3 | .e64b6 | .e32b5 | .e16b1 => false
  | .d64t2 | .d64t3 | .d64b4 | .d32t2 | .d32t4 | .d32t5 | .d32t7 | .d32b8 | .d16b2 => false

/-- The |IN| column of 30_encoding.md R85; `none` is "any <= MAX_LEN". -/
def Op.inLen : Op → Option Nat
  | .ctxinit => some 0
  | .enc | .dec | .sfeed => none
  | .sfin => some 0
  | .e64t1 => some 1
  | .e64t2 => some 2
  | .e64b3 => some 3
  | .e64b6 => some 6
  | .e32t1 => some 1
  | .e32t2 => some 2
  | .e32t3 => some 3
  | .e32t4 => some 4
  | .e32b5 => some 5
  | .e16b1 => some 1
  | .d64t2 => some 2
  | .d64t3 => some 3
  | .d64b4 => some 4
  | .d32t2 => some 2
  | .d32t4 => some 4
  | .d32t5 => some 5
  | .d32t7 => some 7
  | .d32b8 => some 8
  | .d16b2 => some 2

/-- Bits 15:8 of a command word (30_encoding.md R81). -/
def fieldOP (w : CmdWord) : BitVec 8 := w.extractLsb' 8 8

/-- Bit 7 of a command word (30_encoding.md R81). -/
def fieldP (w : CmdWord) : Bool := w.getLsbD 7

/-- Bits 6:5 of a command word (30_encoding.md R81). -/
def fieldRZ (w : CmdWord) : BitVec 2 := w.extractLsb' 5 2

/-- Bits 4:0 of a command word (30_encoding.md R81). -/
def fieldVAR (w : CmdWord) : BitVec 5 := w.extractLsb' 0 5

/-- Which of the five checks of 30_encoding.md R86 a word fails first. All of them are F_ILLEGAL. -/
inductive DecodeError
  /-- Check 1: OP is none of the 24 values of R85. -/
  | unknownOp
  /-- Check 2: RZ is not 0 (R84). -/
  | reservedZero
  /-- Check 3: VAR is reserved (R82), or is not 0x00 for CTXINIT. -/
  | reservedVariant
  /-- Check 4: a block command's VAR is of another family. -/
  | wrongFamily
  /-- Check 5: P = 1 on a command that takes no padding flag (R83). -/
  | paddingNotTaken
deriving DecidableEq, Repr

/-- The variant a word of this operation names: R82, and for CTXINIT only VAR = 0x00 (R86 check 3). -/
def Op.variantOf (o : Op) (c : BitVec 5) : Option Variant :=
  match o with
  | .ctxinit => if c = 0 then some .base64 else none
  | _ => variantOfCode c

/-- The decoder: the five checks of 30_encoding.md R86 in their order. -/
def decode (w : CmdWord) : Except DecodeError Instr :=
  match opOfCode (fieldOP w) with
  | none => .error .unknownOp
  | some o =>
    if fieldRZ w ≠ 0 then .error .reservedZero
    else
      match o.variantOf (fieldVAR w) with
      | none => .error .reservedVariant
      | some v =>
        if o.takesFamily v.family = false then .error .wrongFamily
        else if fieldP w = true ∧ o.takesPad = false then .error .paddingNotTaken
        else .ok (o.instr v (fieldP w))

/-- The command word of an instruction (30_encoding.md R81: OP, P, RZ = 0, VAR). -/
def encode (i : Instr) : CmdWord :=
  i.op.code ++ (BitVec.ofBool i.pad ++ ((0 : BitVec 2) ++ i.variant.code))

/-- The instruction the decoder reads from a row's word, bits numbered as spec/opcode_table.json numbers
them; a word has one 16-bit unit, so bits above `nbits` are 0 and bits above 16 do not exist. -/
def decodeTableWord (nbits w : Nat) : Option Instr :=
  match decode (BitVec.ofNat 16 (w % 2 ^ nbits)) with
  | .ok i => some i
  | .error _ => none

end Sys2Proof
end

