-- ==== Sys2Proof/Machine/State.lean ====
section
/-! DEFINITION. The state of B64C: plain data, holding everything the spec gives the machine. -/

namespace Sys2Proof.Machine

/-- The fault reasons of 60_exceptions.md R245. A fault ends the run: the faulting command writes nothing.
Each is SAFE (R245: "errs toward unprovable"): the model stops where hardware would go on. -/
inductive Fault
  /-- F_ILLEGAL. Raised by presenting a command word that fails 30_encoding.md R86. Safe. -/
  | fIllegal
  /-- F_LENGTH. Raised by ENC, DEC and SFEED when |IN| > MAX_LEN (R248), and by every other command where the
  configuration reads 00_scope.md R8 so (log entry 20). Safe. -/
  | fLength
  /-- F_OPERAND. Raised by CTXINIT, SFIN and every block command when |IN| is not the required length (R247). Safe. -/
  | fOperand
  /-- F_OUTCAP. Raised by every command but CTXINIT when OUTCAP is below the required capacity (R246). Safe. -/
  | fOutcap
  /-- F_CTX_UNINIT. Raised by SFEED and SFIN on a context CTXINIT never initialised (44_streaming.md R211). Safe. -/
  | fCtxUninit
  /-- F_CTX_REUSE. Raised by SFEED and SFIN on a FINALIZED context (R211). Safe. -/
  | fCtxReuse
  /-- F_CTX_VARIANT. Raised by SFEED and SFIN with a variant other than the context's BOUND (R211). Safe. -/
  | fCtxVariant
  /-- F_UNWRITTEN. Raised by a host read of a result register that holds no value (R249). Safe. -/
  | fUnwritten
deriving DecidableEq, Repr

/-- What the model refuses to give a meaning to. -/
inductive Refusal
  /-- An instruction whose meaning is not written yet; raised by `exec` alone. Safe. -/
  | notModelled (mnemonic : String)
  /-- Raised by presenting a transaction one of whose IN elements is not of the element type that
  20_memory.md R61 gives (a byte, or a W-bit code unit). No such transaction exists. Safe. Log entry 6. -/
  | operandWidth
deriving DecidableEq, Repr

/-- STATUS, two bits with four encodings (10_state.md R30; the codes are in Flags.lean). -/
inductive Status
  | ok
  | invalidSymbol
  | unexpectedPadding
  | truncatedInput
deriving DecidableEq, Repr

/-- A result register. "Holds no value" is a state the spec itself gives it (10_state.md R31, R32;
70_reset_and_hazards.md R270), in which a read faults F_UNWRITTEN (60_exceptions.md R249). Log entry 2. -/
inductive ResultReg (α : Type)
  | unwritten
  | holds (v : α)
deriving DecidableEq, Repr

/-- The four carry cells CARRY[0..3] (10_state.md R40). -/
structure Carry where
  c0 : Byte
  c1 : Byte
  c2 : Byte
  c3 : Byte
deriving DecidableEq, Repr

/-- A streaming context record: the architected fields PENDING and CARRY (10_state.md R40) and the
ghost fields INIT, FIN and BOUND (R43). -/
structure Context where
  pending : BitVec 3
  carry : Carry
  init : Bool
  fin : Bool
  bound : Option Variant
deriving DecidableEq, Repr

/-- One command the host presents (30_encoding.md R80): the word CMD, the operands IN and OUTCAP, and the
name of the host's context record that the command is given (used by CTXINIT, SFEED and SFIN alone). -/
structure Request where
  cmd : CmdWord
  inp : List CodeUnit
  outcap : Nat
  ctx : Nat
deriving DecidableEq, Repr

/-- The result registers, by name, for the host's reads (60_exceptions.md R249). -/
inductive RegName
  | status
  | erroff
  | count
deriving DecidableEq, Repr

/-- What the host may do to the block between two commands. -/
inductive HostAction
  /-- Present a command (30_encoding.md R80). -/
  | command (r : Request)
  /-- Read a result register (60_exceptions.md R249). -/
  | read (r : RegName)
  /-- Reset the block (70_reset_and_hazards.md R270, R271). -/
  | reset
deriving DecidableEq, Repr

/-- The state. INVENTORY.md lists each field with its rule and its value after reset. -/
structure State where
  /-- W and MAX_LEN (00_scope.md R7, R8); written by no step. -/
  cfg : Config
  /-- MODEL'S OWN. What the host has presented and the block has not taken, oldest first. Log entry 3. -/
  queue : List HostAction
  /-- IN of the current command (20_memory.md R60). -/
  inp : List CodeUnit
  /-- OUTCAP of the current command (20_memory.md R60). -/
  outcap : Nat
  /-- The name of the context the current command was given (20_memory.md R60). -/
  ctxSel : Nat
  /-- OUT of the command answered last (10_state.md R33). -/
  out : List CodeUnit
  /-- STATUS (10_state.md R30). -/
  status : ResultReg Status
  /-- ERROFF (10_state.md R31). Log entry 9. -/
  erroff : ResultReg Nat
  /-- COUNT (10_state.md R32). Log entry 9. -/
  count : ResultReg Nat
  /-- The host's initialised context records by name, names strictly rising (10_state.md R40 to R46).
  Log entry 14. -/
  ctxs : List (Nat × Context)
  /-- MODEL'S OWN. What the host's last register read answered. Log entry 3. -/
  readData : Option Nat
  /-- The fault set (60_exceptions.md R245), oldest first, without repeats. -/
  faults : List Fault
  /-- MODEL'S OWN. How many free values have been drawn. Log entry 7. -/
  draws : Nat
deriving DecidableEq, Repr

/-- The block right after reset (70_reset_and_hazards.md R270) under a given W and MAX_LEN, with nothing
presented: no result register holds a value, no context is initialised, the fault set is empty. -/
def State.resetWith (cfg : Config) : State where
  cfg := cfg
  queue := []
  inp := []
  outcap := 0
  ctxSel := 0
  out := []
  status := .unwritten
  erroff := .unwritten
  count := .unwritten
  ctxs := []
  readData := none
  faults := []
  draws := 0

/-- Reset with W = 8 and MAX_LEN infinite, as the programs of 95_test_vectors.md section 8 start; with
MAX_LEN infinite the reading of R8 decides nothing. Log entries 1 and 20. -/
def State.reset : State := State.resetWith ⟨.w8, none, .everyCommand⟩

end Sys2Proof.Machine
end

