-- ==== Sys2Proof/Machine/Operands.lean ====
section
/-! DEFINITION. The operands of a command, and the packing of bits that every encode and decode rests on. -/

namespace Sys2Proof.Machine

/-- IN of an encode-direction command: its elements on 8 lanes (20_memory.md R61, 00_scope.md R6). -/
def State.inBytes (s : State) : List Byte := s.inp.map (BitVec.setWidth 8)

/-- IN of a decode-direction command: its elements on W lanes (20_memory.md R61, 00_scope.md R7). -/
def State.inUnits (s : State) : List CodeUnit :=
  s.inp.map fun c => (c.setWidth s.cfg.width.bits).setWidth 32

/-- How many bits an element of IN has for this operation (20_memory.md R61); CTXINIT and SFIN take no
element, so none is checked. -/
def inBits (w : Width) : Op → Nat
  | .ctxinit | .sfin => 32
  | .enc | .sfeed => 8
  | .e64t1 | .e64t2 | .e64b3 | .e64b6 | .e32t1 | .e32t2 | .e32t3 | .e32t4 | .e32b5 | .e16b1 => 8
  | .dec => w.bits
  | .d64t2 | .d64t3 | .d64b4 | .d32t2 | .d32t4 | .d32t5 | .d32t7 | .d32b8 | .d16b2 => w.bits

/-- A transaction whose IN elements all are of the type 20_memory.md R61 gives. -/
def Request.fits (r : Request) (w : Width) (o : Op) : Bool :=
  r.inp.all fun c => decide (c.toNat < 2 ^ inBits w o)

/-- `|IN| > MAX_LEN` (60_exceptions.md R248); never when MAX_LEN is infinite. -/
def State.tooLong (s : State) : Bool :=
  match s.cfg.maxLen with
  | none => false
  | some m => decide (m < s.inp.length)

/-- Check 2 of 60_exceptions.md R244 for a command of fixed length: `|IN| > MAX_LEN` where every command checks
it (00_scope.md R8), never where ENC, DEC and SFEED alone do (R244, R248). Log entry 20. -/
def State.fixedTooLong (s : State) : Bool :=
  match s.cfg.lengthRule with
  | .everyCommand => s.tooLong
  | .listedCommands => false

/-- The natural whose base-2^k digits are `xs`, the first most significant: `{x0, x1, ...}` of 00_scope.md
R11, for k-bit elements. -/
def beNat (k : Nat) (xs : List Nat) : Nat := xs.foldl (fun a x => a * 2 ^ k + x) 0

/-- `pack(b, k)` of 00_scope.md R14: the k-bit groups of the bytes, most significant first, the last group
zero-filled on its low bits. -/
def pack (b : List Byte) (k : Nat) : List Nat :=
  let n := b.length
  let m := ceilDiv (8 * n) k
  let z := m * k - 8 * n
  let V := beNat 8 (b.map BitVec.toNat) * 2 ^ z
  (List.range m).map fun j => V / 2 ^ ((m - j - 1) * k) % 2 ^ k

/-- `unpack(x, k)` of 00_scope.md R14: the bytes of the k-bit values, the low bits that make no whole byte
discarded unchecked (92_eei_decisions.md D10). -/
def unpack (x : List Nat) (k : Nat) : List Byte :=
  let r := x.length
  let nb := r * k / 8
  let d := r * k - 8 * nb
  let U := beNat k x / 2 ^ d
  (List.range nb).map fun j => BitVec.ofNat 8 (U / 2 ^ (8 * (nb - j - 1)))

/-- `EncSyms(V, b)` of 41_block_encode.md R100. -/
def encSyms (w : Width) (v : Variant) (b : List Byte) : List CodeUnit :=
  (pack b v.family.k).map fun g => zextW w (FWD v g)

/-- `EncTail(V, b, pad)` of 41_block_encode.md R100. -/
def encTail (w : Width) (v : Variant) (b : List Byte) (pad : Bool) : List CodeUnit :=
  if b.length = 0 then []
  else encSyms w v b ++
    (if pad then List.replicate (v.family.S - v.family.tsym b.length) (zextW w (PAD v)) else [])

/-- `EncSyms(V, b[0..B)) ++ ... ++ EncSyms(V, b[(nfull-1)B..nfull*B))` of 43_bulk.md R180 and
44_streaming.md R212. -/
def encBlocks (w : Width) (v : Variant) (nfull : Nat) (b : List Byte) : List CodeUnit :=
  (List.range nfull).flatMap fun i => encSyms w v ((b.drop (i * v.family.B)).take v.family.B)

/-- The whole output of ENC: the full blocks, then the tail (43_bulk.md R180). -/
def encAll (w : Width) (v : Variant) (pad : Bool) (b : List Byte) : List CodeUnit :=
  let nfull := b.length / v.family.B
  encBlocks w v nfull b ++ encTail w v (b.drop (nfull * v.family.B)) pad

/-- The values of code units in data positions, each already checked valid (43_bulk.md R183). -/
def dataValues (v : Variant) (c : List CodeUnit) : List Nat := c.map fun x => (REV v x).getD 0

/-- The bytes of one group of data symbols, `unpack(REV(V, c), k)` (42_block_decode.md R140). -/
def decSyms (v : Variant) (c : List CodeUnit) : List Byte := unpack (dataValues v c) v.family.k

/-- `DecGroups(V, c)` of 43_bulk.md R183: the full groups, then the tail group. -/
def decGroups (v : Variant) (c : List CodeUnit) : List Byte :=
  let S := v.family.S
  let p := c.length
  let r := p % S
  ((List.range (p / S)).flatMap fun i => decSyms v ((c.drop (i * S)).take S)) ++
    (if r > 0 then decSyms v (c.drop (p - r)) else [])

/-- Bytes as elements of OUT (20_memory.md R62). -/
def byteUnits (b : List Byte) : List CodeUnit := b.map (BitVec.setWidth 32)

end Sys2Proof.Machine
end

