-- ==== Sys2Proof/Machine/Flags.lean ====
section
/-! DEFINITION. The STATUS register: its codes, and which error with which offset a decode reports. -/

namespace Sys2Proof.Machine

/-- The 2-bit encodings of STATUS (10_state.md R30). -/
def Status.code : Status → BitVec 2
  | .ok => 0
  | .invalidSymbol => 1
  | .unexpectedPadding => 2
  | .truncatedInput => 3

/-- The first error of a D* input, with its index (42_block_decode.md R140: in index order, a pad is
UnexpectedPadding, any other code unit without a value is InvalidSymbol). -/
def blockError (w : Width) (v : Variant) (c : List CodeUnit) : Option (Status × Nat) :=
  match c.findIdx? (fun x => x == zextW w (PAD v) || (REV v x).isNone) with
  | none => none
  | some i => if c.getD i 0 = zextW w (PAD v) then some (.unexpectedPadding, i) else some (.invalidSymbol, i)

/-- The index of the first pad, or |IN| if there is none (43_bulk.md R183, `p`). -/
def firstPad (w : Width) (v : Variant) (c : List CodeUnit) : Nat := c.findIdx (fun x => x == zextW w (PAD v))

/-- The checks of 43_bulk.md R183 after the first pad, at `p` with `r` data symbols in its group. -/
def paddingError (w : Width) (v : Variant) (c : List CodeUnit) (p r : Nat) : Option (Status × Nat) :=
  let n := c.length
  if r ∉ v.family.tails then some (.unexpectedPadding, p)
  else
    let qreq := v.family.S - r
    match (c.drop (p + 1)).findIdx? (fun x => x != zextW w (PAD v)) with
    | some j =>
      if (REV v (c.getD (p + 1 + j) 0)).isNone then some (.invalidSymbol, p + 1 + j)
      else some (.unexpectedPadding, p + 1 + j)
    | none =>
      let q := n - p
      if q < qreq then some (.truncatedInput, p - r)
      else if q > qreq then some (.unexpectedPadding, p + qreq)
      else none

/-- The first error of a DEC input, with its offset: the left-to-right pass of 43_bulk.md R183
(60_exceptions.md R242, R243). -/
def bulkError (w : Width) (v : Variant) (c : List CodeUnit) : Option (Status × Nat) :=
  let p := firstPad w v c
  match (c.take p).findIdx? (fun x => (REV v x).isNone) with
  | some i => some (.invalidSymbol, i)
  | none =>
    let r := p % v.family.S
    if p < c.length then paddingError w v c p r
    else if r ≠ 0 ∧ r ∉ v.family.tails then some (.truncatedInput, p - r)
    else none

end Sys2Proof.Machine
end

