-- ==== Sys2Proof/Machine/Ops.lean ====
section
/-! DEFINITION. The named operations over the result registers, the operands and the context records. -/

namespace Sys2Proof.Machine

/-- CARRY[0..4) as a list, oldest cell first (10_state.md R40). -/
def Carry.toList (c : Carry) : List Byte := [c.c0, c.c1, c.c2, c.c3]

/-- Four carry cells: the listed bytes, then what `rest` gives for each cell after them. -/
def carryOf (b : List Byte) (rest : Nat → Byte) : Carry where
  c0 := b.getD 0 (rest 0)
  c1 := b.getD 1 (rest 1)
  c2 := b.getD 2 (rest 2)
  c3 := b.getD 3 (rest 3)

/-- CARRY[0..4) <- [0, 0, 0, 0] (44_streaming.md R210, R214). -/
def zeroCarry : Carry := ⟨0, 0, 0, 0⟩

/-- A record the host created and CTXINIT has not touched (70_reset_and_hazards.md R270): UNINIT, its
PENDING and CARRY free values. -/
def freshContext (c : Nat) : Context where
  pending := Config.freshPending c
  carry := carryOf [] (Config.freshCarry c)
  init := false
  fin := false
  bound := none

/-- The record CTXINIT leaves (44_streaming.md R210): EMPTY. -/
def emptyContext : Context where
  pending := 0
  carry := zeroCarry
  init := true
  fin := false
  bound := none

/-- The carried bytes CARRY[0..PENDING), oldest first (10_state.md R40). -/
def Context.carried (x : Context) : List Byte := x.carry.toList.take x.pending.toNat

/-- The host's record of this name; a name not listed is a record never given CTXINIT. -/
def ctxRead : List (Nat × Context) → Nat → Context
  | [], c => freshContext c
  | (k, y) :: t, c => if c = k then y else ctxRead t c

/-- The host's records with this one written, names kept strictly rising. -/
def ctxWrite : List (Nat × Context) → Nat → Context → List (Nat × Context)
  | [], c, x => [(c, x)]
  | (k, y) :: t, c, x =>
    if c < k then (c, x) :: (k, y) :: t
    else if c = k then (c, x) :: t
    else (k, y) :: ctxWrite t c x

/-- The canonical form of the host's records: names strictly rising, and only initialised records listed,
so that no entry equals what an unlisted name reads as. -/
def ctxsWf : List (Nat × Context) → Bool
  | [] => true
  | (k, y) :: t => y.init && t.all (fun e => decide (k < e.1)) && ctxsWf t

/-- The context the current command was given (44_streaming.md, `ctx`). -/
def State.ctx (s : State) : Context := ctxRead s.ctxs s.ctxSel

/-- Write back the context the current command was given (10_state.md R44). -/
def State.setCtx (s : State) (x : Context) : State := { s with ctxs := ctxWrite s.ctxs s.ctxSel x }

/-- Take a transaction's operands; OUT is empty at command start (20_memory.md R60). -/
def State.latch (s : State) (r : Request) : State :=
  { s with inp := r.inp, outcap := r.outcap, ctxSel := r.ctx, out := [] }

/-- Count one more free value drawn. Log entry 7. -/
def State.drawn (s : State) : State := { s with draws := s.draws + 1 }

/-- The width of ERROFF and COUNT, ceil(log2(MAX_LEN + 1)) bits; `none` is unbounded, where MAX_LEN is
infinite (10_state.md R31, R32). -/
def regBits (c : Config) : Option Nat := c.maxLen.map fun m => Nat.clog 2 (m + 1)

/-- What ERROFF or COUNT holds after `n` is written to it (10_state.md R31, R32): `n` where the register is
unbounded or `n` fits its width; otherwise a free value of that width. Log entry 9. -/
def regHold (c : Config) (n : Nat) : Nat :=
  match regBits c with
  | none => n
  | some w => if n < 2 ^ w then n else Config.overflow w n % 2 ^ w

/-- Complete with STATUS = OK: OUT, STATUS and COUNT = |OUT| are written, and ERROFF holds no value
(10_state.md R30 to R32). -/
def State.completeOk (s : State) (o : List CodeUnit) : State :=
  { s with out := o, status := .holds .ok, count := .holds (regHold s.cfg o.length), erroff := .unwritten }

/-- `raise Err(code, off)`, the one operation that takes an architected error (60_exceptions.md R241):
STATUS and ERROFF are written, COUNT holds no value, OUT is a free draw of at most OUTCAP elements
(10_state.md R33), and nothing else changes. There is no return from it (R251). Log entry 17. -/
def State.raiseErr (s : State) (code : Status) (off : Nat) : State :=
  { s with
    status := .holds code
    erroff := .holds (regHold s.cfg off)
    count := .unwritten
    out := byteUnits ((Config.freeOut s.draws).take s.outcap)
    draws := s.draws + 1 }

/-- The state a fault leaves: the reason enters the fault set and nothing else changes
(60_exceptions.md R245). -/
def State.recordFault (s : State) (r : Fault) : State :=
  if r ∈ s.faults then s else { s with faults := s.faults ++ [r] }

/-- Block reset (70_reset_and_hazards.md R270, R271): the result registers hold no value and the fault set
is empty; the host's records, its operands, W and MAX_LEN keep their values. Log entry 16. -/
def State.blockReset (s : State) : State :=
  { s with status := .unwritten, erroff := .unwritten, count := .unwritten, faults := [] }

/-- The value a result register holds, as the host reads it; STATUS as its 2-bit code. -/
def State.regValue (s : State) : RegName → ResultReg Nat
  | .status =>
    match s.status with
    | .unwritten => .unwritten
    | .holds st => .holds st.code.toNat
  | .erroff => s.erroff
  | .count => s.count

/-- A host read of a result register: F_UNWRITTEN where it holds no value (60_exceptions.md R249). -/
def readReg (r : RegName) (s : State) : Host.Outcome State Fault Refusal :=
  match s.regValue r with
  | .unwritten => .fault .fUnwritten
  | .holds x => .next { s with readData := some x }

/-- The abstract states of a context (10_state.md R45). -/
inductive CtxState
  | uninit
  | empty
  | pending (n : Nat)
  | finalized
deriving DecidableEq, Repr

/-- The abstract state a context is in (10_state.md R45). -/
def Context.abstractState (x : Context) : CtxState :=
  if x.init = false then .uninit
  else if x.fin = true then .finalized
  else if x.pending = 0 then .empty
  else .pending x.pending.toNat

end Sys2Proof.Machine
end

