-- ==== Sys2Proof/Machine/BlockDecode.lean ====
section
/-! DEFINITION. The meanings of the block decode commands (42_block_decode.md). -/

namespace Sys2Proof.Machine

/-- `DecCommon(V, r_req)` of 42_block_decode.md R140. -/
def decCommon (v : Variant) (rreq : Nat) (s : State) : Host.Outcome State Fault Refusal :=
  if s.fixedTooLong then .fault .fLength
  else if s.inp.length ≠ rreq then .fault .fOperand
  else if s.outcap < v.family.tbytes rreq then .fault .fOutcap
  else
    match blockError s.cfg.width v s.inUnits with
    | some (code, off) => .next (s.raiseErr code off)
    | none => .next (s.completeOk (byteUnits (decSyms v s.inUnits)))

/-- D64T2: 2 symbols to 1 byte (R142). -/
def execD64t2 (v : Variant) (s : State) : Host.Outcome State Fault Refusal := decCommon v 2 s

/-- D64T3: 3 symbols to 2 bytes (R143). -/
def execD64t3 (v : Variant) (s : State) : Host.Outcome State Fault Refusal := decCommon v 3 s

/-- D64B4: 4 symbols to 3 bytes (R141). -/
def execD64b4 (v : Variant) (s : State) : Host.Outcome State Fault Refusal := decCommon v 4 s

/-- D32T2: 2 symbols to 1 byte (R145). -/
def execD32t2 (v : Variant) (s : State) : Host.Outcome State Fault Refusal := decCommon v 2 s

/-- D32T4: 4 symbols to 2 bytes (R146). -/
def execD32t4 (v : Variant) (s : State) : Host.Outcome State Fault Refusal := decCommon v 4 s

/-- D32T5: 5 symbols to 3 bytes (R147). -/
def execD32t5 (v : Variant) (s : State) : Host.Outcome State Fault Refusal := decCommon v 5 s

/-- D32T7: 7 symbols to 4 bytes (R148). -/
def execD32t7 (v : Variant) (s : State) : Host.Outcome State Fault Refusal := decCommon v 7 s

/-- D32B8: 8 symbols to 5 bytes (R144). -/
def execD32b8 (v : Variant) (s : State) : Host.Outcome State Fault Refusal := decCommon v 8 s

/-- D16B2: 2 symbols to 1 byte (R149). -/
def execD16b2 (v : Variant) (s : State) : Host.Outcome State Fault Refusal := decCommon v 2 s

end Sys2Proof.Machine
end

