-- ==== Sys2Proof/Machine/BlockEncode.lean ====
section
/-! DEFINITION. The meanings of the block encode commands (41_block_encode.md). -/

namespace Sys2Proof.Machine

/-- `EncCommon(V, n_req, out_len, body)` of 41_block_encode.md R100, the body a function of IN. -/
def encCommon (nreq outLen : Nat) (body : List Byte → List CodeUnit) (s : State) : Host.Outcome State Fault Refusal :=
  if s.fixedTooLong then .fault .fLength
  else if s.inp.length ≠ nreq then .fault .fOperand
  else if s.outcap < outLen then .fault .fOutcap
  else .next (s.completeOk (body s.inBytes))

/-- E64T1: 1 byte to 2 symbols, then 2 pads if P = 1 (R103). -/
def execE64t1 (v : Variant) (p : Bool) (s : State) : Host.Outcome State Fault Refusal :=
  encCommon 1 (if p then 4 else 2) (fun b => encTail s.cfg.width v b p) s

/-- E64T2: 2 bytes to 3 symbols, then 1 pad if P = 1 (R104). -/
def execE64t2 (v : Variant) (p : Bool) (s : State) : Host.Outcome State Fault Refusal :=
  encCommon 2 (if p then 4 else 3) (fun b => encTail s.cfg.width v b p) s

/-- E64B3: 3 bytes to 4 symbols (R101). -/
def execE64b3 (v : Variant) (s : State) : Host.Outcome State Fault Refusal :=
  encCommon 3 4 (fun b => encSyms s.cfg.width v b) s

/-- E64B6: 6 bytes to 8 symbols, as two E64B3 bodies (R102). -/
def execE64b6 (v : Variant) (s : State) : Host.Outcome State Fault Refusal :=
  encCommon 6 8 (fun b => encSyms s.cfg.width v (b.take 3) ++ encSyms s.cfg.width v (b.drop 3)) s

/-- E32T1: 1 byte to 2 symbols, then 6 pads if P = 1 (R106). -/
def execE32t1 (v : Variant) (p : Bool) (s : State) : Host.Outcome State Fault Refusal :=
  encCommon 1 (if p then 8 else 2) (fun b => encTail s.cfg.width v b p) s

/-- E32T2: 2 bytes to 4 symbols, then 4 pads if P = 1 (R107). -/
def execE32t2 (v : Variant) (p : Bool) (s : State) : Host.Outcome State Fault Refusal :=
  encCommon 2 (if p then 8 else 4) (fun b => encTail s.cfg.width v b p) s

/-- E32T3: 3 bytes to 5 symbols, then 3 pads if P = 1 (R108). -/
def execE32t3 (v : Variant) (p : Bool) (s : State) : Host.Outcome State Fault Refusal :=
  encCommon 3 (if p then 8 else 5) (fun b => encTail s.cfg.width v b p) s

/-- E32T4: 4 bytes to 7 symbols, then 1 pad if P = 1 (R109). -/
def execE32t4 (v : Variant) (p : Bool) (s : State) : Host.Outcome State Fault Refusal :=
  encCommon 4 (if p then 8 else 7) (fun b => encTail s.cfg.width v b p) s

/-- E32B5: 5 bytes to 8 symbols (R105). -/
def execE32b5 (v : Variant) (s : State) : Host.Outcome State Fault Refusal :=
  encCommon 5 8 (fun b => encSyms s.cfg.width v b) s

/-- E16B1: 1 byte to 2 symbols (R110). -/
def execE16b1 (v : Variant) (s : State) : Host.Outcome State Fault Refusal :=
  encCommon 1 2 (fun b => encSyms s.cfg.width v b) s

end Sys2Proof.Machine
end

