-- ==== Sys2Proof/Machine/Bulk.lean ====
section
/-! DEFINITION. The meanings of the bulk commands ENC and DEC (43_bulk.md). -/

namespace Sys2Proof.Machine

/-- ENC: one-shot encode of IN (R180). -/
def execEnc (v : Variant) (p : Bool) (s : State) : Host.Outcome State Fault Refusal :=
  if s.tooLong then .fault .fLength
  else if s.outcap < ceilDiv s.inp.length v.family.B * v.family.S then .fault .fOutcap
  else .next (s.completeOk (encAll s.cfg.width v p s.inBytes))

/-- DEC: one-shot decode of IN (R183). -/
def execDec (v : Variant) (s : State) : Host.Outcome State Fault Refusal :=
  if s.tooLong then .fault .fLength
  else if s.outcap < ceilDiv s.inp.length v.family.S * v.family.B then .fault .fOutcap
  else
    match bulkError s.cfg.width v s.inUnits with
    | some (code, off) => .next (s.raiseErr code off)
    | none => .next (s.completeOk (byteUnits (decGroups v (s.inUnits.take (firstPad s.cfg.width v s.inUnits)))))

end Sys2Proof.Machine
end

