-- ==== Sys2Proof/Machine/Streaming.lean ====
section
/-! DEFINITION. The meanings of the streaming commands CTXINIT, SFEED and SFIN (44_streaming.md). -/

namespace Sys2Proof.Machine

/-- CTXINIT: zero-initialise the context (R210); OUTCAP is ignored. -/
def execCtxinit (s : State) : Host.Outcome State Fault Refusal :=
  if s.fixedTooLong then .fault .fLength
  else if s.inp.length ≠ 0 then .fault .fOperand
  else .next ((s.setCtx emptyContext).completeOk [])

/-- `CtxCheck(ctx, V)` of R211: the fault it raises, if any. -/
def ctxCheck (x : Context) (v : Variant) : Option Fault :=
  if x.init = false then some .fCtxUninit
  else if x.fin = true then some .fCtxReuse
  else if x.bound ≠ none ∧ x.bound ≠ some v then some .fCtxVariant
  else none

/-- The context after SFEED carries `rem` bytes (R212): CARRY[rem..4) is unspecified, so free. -/
def feedContext (s : State) (v : Variant) (rem : List Byte) : Context :=
  { s.ctx with
    pending := BitVec.ofNat 3 rem.length
    carry := carryOf rem (Config.freeCarry s.draws)
    bound := some v }

/-- SFEED: emit every full block of the carry followed by IN, and carry the remainder (R212). -/
def execSfeed (v : Variant) (s : State) : Host.Outcome State Fault Refusal :=
  if s.tooLong then .fault .fLength
  else
    match ctxCheck s.ctx v with
    | some r => .fault r
    | none =>
      let buf := s.ctx.carried ++ s.inBytes
      let nfull := (s.ctx.pending.toNat + s.inp.length) / v.family.B
      if s.outcap < nfull * v.family.S then .fault .fOutcap
      else .next ((s.setCtx (feedContext s v (buf.drop (nfull * v.family.B)))).drawn.completeOk
        (encBlocks s.cfg.width v nfull buf))

/-- The capacity SFIN needs with `m` bytes pending (R214, `need`). -/
def sfinNeed (v : Variant) (p : Bool) (m : Nat) : Nat :=
  if m = 0 then 0 else if p then v.family.S else v.family.tsym m

/-- The context after SFIN: FINALIZED (R214). BOUND is set as 10_state.md R43 says; log entry 10. -/
def finalContext (x : Context) (v : Variant) : Context :=
  { x with pending := 0, carry := zeroCarry, fin := true, bound := some v }

/-- SFIN: flush the carry as a tail block and end the stream (R214). -/
def execSfin (v : Variant) (p : Bool) (s : State) : Host.Outcome State Fault Refusal :=
  if s.fixedTooLong then .fault .fLength
  else if s.inp.length ≠ 0 then .fault .fOperand
  else
    match ctxCheck s.ctx v with
    | some r => .fault r
    | none =>
      if s.outcap < sfinNeed v p s.ctx.pending.toNat then .fault .fOutcap
      else .next ((s.setCtx (finalContext s.ctx v)).completeOk (encTail s.cfg.width v s.ctx.carried p))

end Sys2Proof.Machine
end

