-- ==== Sys2Proof/Machine/Dispatch.lean ====
section
/-! DEFINITION. One arm per instruction: the meaning it calls. -/

namespace Sys2Proof.Machine

def exec (i : Instr) (s : State) : Host.Outcome State Fault Refusal :=
  match i with
  | .ctxinit => Sys2Proof.Machine.execCtxinit s
  | .enc v p => Sys2Proof.Machine.execEnc v p s
  | .dec v => Sys2Proof.Machine.execDec v s
  | .sfeed v => Sys2Proof.Machine.execSfeed v s
  | .sfin v p => Sys2Proof.Machine.execSfin v p s
  | .e64t1 v p => Sys2Proof.Machine.execE64t1 v p s
  | .e64t2 v p => Sys2Proof.Machine.execE64t2 v p s
  | .e64b3 v => Sys2Proof.Machine.execE64b3 v s
  | .e64b6 v => Sys2Proof.Machine.execE64b6 v s
  | .e32t1 v p => Sys2Proof.Machine.execE32t1 v p s
  | .e32t2 v p => Sys2Proof.Machine.execE32t2 v p s
  | .e32t3 v p => Sys2Proof.Machine.execE32t3 v p s
  | .e32t4 v p => Sys2Proof.Machine.execE32t4 v p s
  | .e32b5 v => Sys2Proof.Machine.execE32b5 v s
  | .e16b1 v => Sys2Proof.Machine.execE16b1 v s
  | .d64t2 v => Sys2Proof.Machine.execD64t2 v s
  | .d64t3 v => Sys2Proof.Machine.execD64t3 v s
  | .d64b4 v => Sys2Proof.Machine.execD64b4 v s
  | .d32t2 v => Sys2Proof.Machine.execD32t2 v s
  | .d32t4 v => Sys2Proof.Machine.execD32t4 v s
  | .d32t5 v => Sys2Proof.Machine.execD32t5 v s
  | .d32t7 v => Sys2Proof.Machine.execD32t7 v s
  | .d32b8 v => Sys2Proof.Machine.execD32b8 v s
  | .d16b2 v => Sys2Proof.Machine.execD16b2 v s

end Sys2Proof.Machine
end

