-- ==== Sys2Proof/Machine/Transact.lean ====
section
/-! DEFINITION. The command interface: one transaction, one host action, and the faulted state. -/

namespace Sys2Proof.Machine

/-- One transaction (30_encoding.md R80): the word is decoded first (60_exceptions.md R244, order 1), then
the command runs on its operands. A transaction with an element of IN that is not of the type 20_memory.md
R61 gives is refused by name; none exists. -/
def transact (r : Request) (s : State) : Host.Outcome State Fault Refusal :=
  match decode r.cmd with
  | .error _ => .fault .fIllegal
  | .ok i => if r.fits s.cfg.width i.op then exec i (s.latch r) else .refused .operandWidth

/-- One host action on a block that has not faulted. -/
def act (a : HostAction) (s : State) : Host.Outcome State Fault Refusal :=
  match a with
  | .command r => transact r s
  | .read r => readReg r s
  | .reset => .next s.blockReset

/-- What a faulted block answers (60_exceptions.md R249, R251): a read of any result register faults
F_UNWRITTEN; any other action meets the first reason recorded, for the run has ended. Log entry 4. -/
def afterFault (first : Fault) (q : List HostAction) : Fault :=
  match q with
  | .read _ :: _ => .fUnwritten
  | _ => first

/-- One step (70_reset_and_hazards.md R286: one command, one step): take the host's oldest action. With
nothing presented the block is idle and nothing changes. -/
def nextStep (s : State) : Host.Outcome State Fault Refusal :=
  match s.faults with
  | first :: _ => .fault (afterFault first s.queue)
  | [] =>
    match s.queue with
    | [] => .next s
    | a :: rest => act a { s with queue := rest }

/-- The operands a word is placed with: IN of the length 30_encoding.md R85 requires (zero bytes, or the
symbol of value 0), empty where any length is legal; OUTCAP 8, the most any of them needs; context 0. -/
def sampleRequest (w : CmdWord) : Request :=
  match decode w with
  | .error _ => ⟨w, [], 0, 0⟩
  | .ok i =>
    let c : CodeUnit :=
      match i.op with
      | .d64t2 | .d64t3 | .d64b4 | .d32t2 | .d32t4 | .d32t5 | .d32t7 | .d32b8 | .d16b2 => zextW .w8 (FWD i.variant 0)
      | _ => 0
    ⟨w, List.replicate (i.op.inLen.getD 0) c, 8, 0⟩

/-- Place a command word as the host's next action, with operands; for SFEED and SFIN context 0 is made
EMPTY, as CTXINIT leaves it. The run starts with an empty fault set. Log entry 3. -/
def State.presentWord (s : State) (w : CmdWord) : State :=
  let s' := { s with queue := .command (sampleRequest w) :: s.queue, faults := [] }
  match decode w with
  | .ok (.sfeed _) | .ok (.sfin _ _) => { s' with ctxs := ctxWrite s.ctxs 0 emptyContext }
  | _ => s'

end Sys2Proof.Machine
end

