-- ==== Sys2Proof/Machine/Step.lean ====
section
/-! DEFINITION. The step of the machine, and placing a word for it to run. -/

namespace Sys2Proof.Machine

/-- One step: the host's oldest action (Transact.lean). -/
def step (s : State) : Host.Outcome State Fault Refusal := nextStep s

/-- The state whose very next step runs the instruction of this table word (bits above `nbits` are 0). -/
def State.withFetchWord (s : State) (nbits w : Nat) : State :=
  s.presentWord (BitVec.ofNat 16 (w % 2 ^ nbits))

end Sys2Proof.Machine
end

