-- ==== Sys2Proof/Machine/Assembler.lean ====
section
/-! DEFINITION. The textual syntax of commands and the pseudo-command STREAM (30_encoding.md section 5). -/

namespace Sys2Proof.Machine

/-- The mnemonics of 30_encoding.md R85. -/
def opMnemonic : Op → String
  | .ctxinit => "CTXINIT"
  | .enc => "ENC"
  | .dec => "DEC"
  | .sfeed => "SFEED"
  | .sfin => "SFIN"
  | .e64t1 => "E64T1"
  | .e64t2 => "E64T2"
  | .e64b3 => "E64B3"
  | .e64b6 => "E64B6"
  | .e32t1 => "E32T1"
  | .e32t2 => "E32T2"
  | .e32t3 => "E32T3"
  | .e32t4 => "E32T4"
  | .e32b5 => "E32B5"
  | .e16b1 => "E16B1"
  | .d64t2 => "D64T2"
  | .d64t3 => "D64T3"
  | .d64b4 => "D64B4"
  | .d32t2 => "D32T2"
  | .d32t4 => "D32T4"
  | .d32t5 => "D32T5"
  | .d32t7 => "D32T7"
  | .d32b8 => "D32B8"
  | .d16b2 => "D16B2"

/-- The variant names of 30_encoding.md R90. -/
def variantName : Variant → String
  | .base64 => "base64"
  | .base64Url => "base64-url"
  | .base32 => "base32"
  | .base32Lower => "base32-lower"
  | .base32Hex => "base32-hex"
  | .base32HexLower => "base32-hex-lower"
  | .base32Crockford => "base32-crockford"
  | .base32CrockfordLower => "base32-crockford-lower"
  | .base16 => "base16"
  | .base16Lower => "base16-lower"

/-- An operand of a command line (30_encoding.md R90). A context's name is a number here. -/
inductive AsmOperand
  /-- `in="text"`: one element per character, its ASCII code. -/
  | inText (cs : List Char)
  /-- `in=x"66 6F"`: one element per hex pair. -/
  | inHex (bs : List Byte)
  /-- `cap=n`. -/
  | cap (n : Nat)
  /-- `ctx=name`. -/
  | ctx (c : Nat)
deriving DecidableEq, Repr

/-- A command line, `MNEMONIC [".P"] [VARIANT] { "," operand }` (30_encoding.md R90). -/
structure AsmLine where
  op : Op
  p : Bool
  variant : Option Variant
  operands : List AsmOperand
deriving DecidableEq, Repr

/-- One operand put into the request. -/
def AsmOperand.apply (r : Request) : AsmOperand → Request
  | .inText cs => { r with inp := cs.map fun c => BitVec.ofNat 32 c.toNat }
  | .inHex bs => { r with inp := bs.map (BitVec.setWidth 32) }
  | .cap n => { r with outcap := n }
  | .ctx c => { r with ctx := c }

/-- The transaction a command line stands for (30_encoding.md R90): IN empty and OUTCAP = 0 where omitted;
".P" only where R85 says "P ok"; no variant for CTXINIT, whose VAR is 0x00.
DESIGN CHOICE, log entry 19, where R90 is silent: a line whose variant is of another family than R85's "fam"
(`E64T1 base32`) or that gives no variant to a command other than CTXINIT assembles to nothing; an omitted `ctx=`
is context 0; of an operand given twice the last one counts. -/
def AsmLine.assemble (l : AsmLine) : Option Request :=
  let v? : Option Variant :=
    match l.op, l.variant with
    | .ctxinit, none => some .base64
    | .ctxinit, some _ => none
    | _, v => v
  match v? with
  | none => none
  | some v =>
    if l.op.takesFamily v.family = false ∨ (l.p = true ∧ l.op.takesPad = false) then none
    else some (l.operands.foldl AsmOperand.apply ⟨encode (l.op.instr v l.p), [], 0, 0⟩)

/-- The decimal digits of `n` before `acc`, at most `fuel` of them. -/
def decimalDigits : Nat → Nat → List Char → List Char
  | 0, _, acc => acc
  | fuel + 1, n, acc =>
    let acc' := Char.ofNat (0x30 + n % 10) :: acc
    if n < 10 then acc' else decimalDigits fuel (n / 10) acc'

/-- A natural in decimal. -/
def decimal (n : Nat) : String := String.ofList (decimalDigits (n + 1) n [])

/-- One hex digit, in capitals as the spec writes bytes. -/
def hexDigit (n : Nat) : Char := if n < 10 then Char.ofNat (0x30 + n) else Char.ofNat (0x37 + n)

/-- A hex pair. -/
def hexPair (b : Byte) : String := String.ofList [hexDigit (b.toNat / 16), hexDigit (b.toNat % 16)]

/-- An operand as text. -/
def AsmOperand.text : AsmOperand → String
  | .inText cs => "in=\"" ++ String.ofList cs ++ "\""
  | .inHex bs => "in=x\"" ++ " ".intercalate (bs.map hexPair) ++ "\""
  | .cap n => "cap=" ++ decimal n
  | .ctx c => "ctx=c" ++ decimal c

/-- A command line as text (30_encoding.md R90). -/
def AsmLine.text (l : AsmLine) : String :=
  opMnemonic l.op ++ (if l.p then ".P" else "") ++
  (match l.variant with
    | none => ""
    | some v => " " ++ variantName v) ++
  String.join (l.operands.map fun o => ", " ++ o.text)

/-- The 24 operations. -/
def allOps : List Op :=
  [.ctxinit, .enc, .dec, .sfeed, .sfin, .e64t1, .e64t2, .e64b3, .e64b6, .e32t1, .e32t2, .e32t3, .e32t4, .e32b5, .e16b1,
   .d64t2, .d64t3, .d64b4, .d32t2, .d32t4, .d32t5, .d32t7, .d32b8, .d16b2]

/-- The ten variants, in the order of 30_encoding.md R82. -/
def allVariants : List Variant :=
  [.base64, .base64Url, .base32, .base32Lower, .base32Hex, .base32HexLower,
   .base32Crockford, .base32CrockfordLower, .base16, .base16Lower]

/-- The text without the spaces around it. -/
def trimSpaces (cs : List Char) : List Char :=
  ((cs.dropWhile (fun c => c == ' ')).reverse.dropWhile (fun c => c == ' ')).reverse

/-- The parts of a text between separators that stand outside double quotes; `acc` is the part read so
far, last character first. -/
def splitOutside (sep : Char) : Bool → List Char → List Char → List (List Char)
  | _, acc, [] => [acc.reverse]
  | q, acc, c :: cs =>
    if c = '"' then splitOutside sep (!q) (c :: acc) cs
    else if c = sep ∧ q = false then acc.reverse :: splitOutside sep q [] cs
    else splitOutside sep q (c :: acc) cs

/-- The text after a prefix, if it begins with it. -/
def afterPrefix (pre : String) (cs : List Char) : Option (List Char) :=
  if pre.toList.isPrefixOf cs then some (cs.drop pre.toList.length) else none

/-- The value of a hex digit. -/
def hexValue (c : Char) : Option Nat :=
  let n := c.toNat
  if 0x30 ≤ n ∧ n ≤ 0x39 then some (n - 0x30)
  else if 0x41 ≤ n ∧ n ≤ 0x46 then some (n - 0x37)
  else if 0x61 ≤ n ∧ n ≤ 0x66 then some (n - 0x57)
  else none

/-- A hex pair as a byte. -/
def parseHexPair : List Char → Option Byte
  | [a, b] =>
    match hexValue a, hexValue b with
    | some x, some y => some (BitVec.ofNat 8 (16 * x + y))
    | _, _ => none
  | _ => none

/-- A natural in decimal digits. -/
def parseNat (cs : List Char) : Option Nat :=
  if cs ≠ [] ∧ cs.all (fun c => decide (0x30 ≤ c.toNat ∧ c.toNat ≤ 0x39)) = true then
    some (cs.foldl (fun a c => a * 10 + (c.toNat - 0x30)) 0)
  else none

/-- The ASCII text between two double quotes that hold all of it; it has no escape, so no double quote of its
own (30_encoding.md R90). -/
def parseQuoted (cs : List Char) : Option (List Char) :=
  match cs with
  | '"' :: rest =>
    if rest.getLast? = some '"' ∧ rest.dropLast.all (fun c => decide (c.toNat < 128) && c != '"') = true then
      some rest.dropLast
    else none
  | _ => none

/-- `in=seq`, `cap=natural` or `ctx=name` (30_encoding.md R90). -/
def parseOperand (cs : List Char) : Option AsmOperand :=
  match afterPrefix "in=x" cs, afterPrefix "in=" cs, afterPrefix "cap=" cs, afterPrefix "ctx=c" cs with
  | some t, _, _, _ =>
    (parseQuoted t).bind fun u => ((splitOutside ' ' false [] u).mapM parseHexPair).map .inHex
  | none, some t, _, _ => (parseQuoted t).map .inText
  | none, none, some t, _ => (parseNat t).map .cap
  | none, none, none, some t => (parseNat t).map .ctx
  | none, none, none, none => none

/-- `MNEMONIC [".P"]`. -/
def parseMnemonic (cs : List Char) : Option (Op × Bool) :=
  match allOps.find? (fun o => (opMnemonic o).toList == cs) with
  | some o => some (o, false)
  | none =>
    match allOps.find? (fun o => (opMnemonic o ++ ".P").toList == cs) with
    | some o => some (o, true)
    | none => none

/-- `MNEMONIC [".P"] [VARIANT]`. -/
def parseHead (cs : List Char) : Option (Op × Bool × Option Variant) :=
  match (splitOutside ' ' false [] cs).filter (fun w => !w.isEmpty) with
  | [m] => (parseMnemonic m).map fun x => (x.1, x.2, none)
  | [m, n] =>
    match parseMnemonic m, allVariants.find? (fun v => (variantName v).toList == n) with
    | some x, some v => some (x.1, x.2, some v)
    | _, _ => none
  | _ => none

/-- A command line read from its text (30_encoding.md R90). CTXINIT has no VARIANT word, so its first
operand may follow the mnemonic without a comma, as 44_streaming.md R210's `CTXINIT ctx=c0` writes it. -/
def parseLine (cs : List Char) : Option AsmLine :=
  let parts := (splitOutside ',' false [] cs).map trimSpaces
  match parts with
  | [] => none
  | h :: t =>
    match afterPrefix "CTXINIT " h with
    | some rest => ((rest :: t).mapM fun o => parseOperand (trimSpaces o)).map fun os => ⟨.ctxinit, false, none, os⟩
    | none =>
      match parseHead h, t.mapM parseOperand with
      | some (o, p, v), some os => some ⟨o, p, v, os⟩
      | _, _ => none

/-- The expansion of `STREAM[.P] V, ctx=c, chunks=(s1, ..., sk), cap=n` (30_encoding.md R91): CTXINIT,
one SFEED per chunk, then SFIN, all on one context. -/
def streamRequests (v : Variant) (p : Bool) (c : Nat) (chunks : List (List Byte)) (cap : Nat) : List Request :=
  ⟨encode .ctxinit, [], 0, c⟩ ::
    (chunks.map fun b => ⟨encode (.sfeed v), b.map (BitVec.setWidth 32), cap, c⟩) ++
    [⟨encode (.sfin v p), [], cap, c⟩]

end Sys2Proof.Machine
end

