-- ==== Sys2Proof/Machine/Run.lean ====
section
/-! DEFINITION. Runs: the fault set along a run, and the OUTs of a list of commands. -/

namespace Sys2Proof.Machine

/-- The state after one step of a run that keeps its fault set (60_exceptions.md R245): a fault leaves the
faulted state, in which the faulting action is taken and has written nothing. Log entry 4. -/
def advance (s : State) : State :=
  match step s with
  | .next t => t
  | .fault r => { s.recordFault r with queue := s.queue.tail }
  | .refused _ => s

/-- The state after `n` steps of such a run. -/
def advanceN : Nat → State → State
  | 0, s => s
  | n + 1, s => advanceN n (advance s)

/-- A final state: everything the host presented is done, and no fault is recorded (60_exceptions.md R245:
"the faulted state is never a final state"). -/
abbrev State.Final (s : State) : Prop := s.queue = [] ∧ s.faults = []

/-- The commands of one host thread in order (20_memory.md R69), with the concatenation of their OUTs. -/
def collect : List Request → State → Host.Outcome (List CodeUnit × State) Fault Refusal
  | [], s => .next ([], s)
  | r :: rs, s =>
    match transact r s with
    | .fault f => .fault f
    | .refused f => .refused f
    | .next t =>
      match collect rs t with
      | .fault f => .fault f
      | .refused f => .refused f
      | .next (o, u) => .next (t.out ++ o, u)

end Sys2Proof.Machine
end

