-- ==== Sys2Proof/Safety.lean ====
section
/-! DEFINITION. What a safe run is, and the invariant of the machine. -/

namespace Sys2Proof.Machine

/-- A run of `n` steps from `s` to `t` in which nothing faults and nothing is refused (60_exceptions.md
R245: "A claim about a host program holds only under the premise that no fault is recorded"). -/
abbrev SafeRun (n : Nat) (s t : State) : Prop := Host.Core.run Sys2Proof.core n s = .next t

/-- A context record in a legal abstract state (10_state.md R41, R45, R46): EMPTY or PENDING(n) with
n < B(fam(BOUND)), or FINALIZED with its architected fields zero. -/
def Context.legal (x : Context) : Bool :=
  x.init &&
    (if x.fin then decide (x.pending = 0) && decide (x.carry = zeroCarry)
     else
      match x.bound with
      | none => decide (x.pending = 0)
      | some v => decide (x.pending.toNat < v.family.B))

/-- The result registers as 10_state.md R30 to R32 leave them: none holds a value; or STATUS = OK, COUNT =
|OUT| and ERROFF holds none; or STATUS is an error, ERROFF an index into IN and COUNT holds none; COUNT and
the index as a register of their width holds them. -/
def State.regsCoherent (s : State) : Bool :=
  match s.status, s.erroff, s.count with
  | .unwritten, .unwritten, .unwritten => true
  | .holds .ok, .unwritten, .holds n => decide (n = regHold s.cfg s.out.length)
  | .holds st, .holds o, .unwritten => decide (st ≠ .ok) && (List.range s.inp.length).any fun off => o == regHold s.cfg off
  | _, _, _ => false

/-- The invariant of the machine: the host's records are in canonical form and each is in a legal abstract
state; the result registers are coherent; OUT fits OUTCAP; no fault is recorded twice. -/
abbrev State.Inv (s : State) : Prop :=
  ctxsWf s.ctxs = true ∧ s.ctxs.all (fun e => e.2.legal) = true ∧ s.regsCoherent = true ∧
    s.out.length ≤ s.outcap ∧ s.faults.Nodup

end Sys2Proof.Machine
end

