-- ==== Sys2Proof/Certificates/Slice0/Obligations.lean ====
section
/-! DEFINITION. The statements for the provers. `Sys2Proof.Claims` holds the shapes several of them share. -/

open Sys2Proof Sys2Proof.Machine

namespace Sys2Proof.Claims

/-- IN[i] of an encode-direction command. -/
def byteAt (s : State) (i : Nat) : Byte := s.inBytes.getD i 0

/-- `zext_W(FWD(V, g))`. -/
def sym (s : State) (v : Variant) (g : Nat) : CodeUnit := zextW s.cfg.width (FWD v g)

/-- `[zext_W(PAD(V))] * n` if P = 1, else nothing. -/
def pads (s : State) (v : Variant) (p : Bool) (n : Nat) : List CodeUnit :=
  if p then List.replicate n (zextW s.cfg.width (PAD v)) else []

/-- `REV(V, IN[i])` as a k-bit value, where it has one. -/
def val (s : State) (v : Variant) (k i : Nat) : BitVec k := BitVec.ofNat k ((REV v (s.inUnits.getD i 0)).getD 0)

/-- Bytes as the code units a host presents for an encode. -/
def units (b : List Byte) : List CodeUnit := b.map (BitVec.setWidth 32)

/-- The words of one OP value are exactly the listed ones, each with its instruction; every other word of
that OP value decodes to nothing. -/
def WordsOf (op : BitVec 8) (words : List (CmdWord × Instr)) : Prop :=
  ∀ (w : CmdWord) (i : Instr), fieldOP w = op → (decode w = .ok i ↔ (w, i) ∈ words)

/-- The ten words of a bulk or streaming operation with this padding flag: OP, P, RZ = 0, VAR (30_encoding.md R81,
R82), each with its instruction. -/
def wordsFor (op : BitVec 8) (p : Bool) (i : Variant → Instr) : List (CmdWord × Instr) :=
  ([(0x00, .base64), (0x01, .base64Url), (0x08, .base32), (0x09, .base32Lower), (0x0A, .base32Hex),
    (0x0B, .base32HexLower), (0x0C, .base32Crockford), (0x0D, .base32CrockfordLower), (0x10, .base16),
    (0x11, .base16Lower)] : List (BitVec 5 × Variant)).map
    fun e => (op ++ (BitVec.ofBool p ++ ((0 : BitVec 2) ++ e.1)), i e.2)

/-- What ERROFF or COUNT may hold once `n` is written to it (10_state.md R31, R32): `n` if MAX_LEN is infinite;
otherwise a value of ceil(log2(MAX_LEN + 1)) bits, which is `n` if `n` fits them. What the register holds of a
value that does not fit is free (log entry 9). -/
def InReg (c : Config) (n x : Nat) : Prop :=
  match c.maxLen with
  | none => x = n
  | some m => x < 2 ^ Nat.clog 2 (m + 1) ∧ (n < 2 ^ Nat.clog 2 (m + 1) → x = n)

/-- |IN| exceeds MAX_LEN and commands of fixed length check it: 00_scope.md R8 read of every command. Where R8 is
read of ENC, DEC and SFEED alone, as 60_exceptions.md R244 and R248 list them, this never holds (log entry 20). -/
def overLimit (s : State) : Prop :=
  s.cfg.lengthRule = .everyCommand ∧ ∃ m, s.cfg.maxLen = some m ∧ m < s.inp.length

/-- What an E* command does in every state: its three faults, and otherwise the state in which OUT, STATUS,
COUNT (in its width) and ERROFF are as its rule says and everything else is as before. -/
def EncodesBlock (i : Instr) (n need : Nat) (syms : State → List CodeUnit) : Prop :=
  ∀ s : State,
    (overLimit s → exec i s = .fault .fLength) ∧
    (¬ overLimit s → s.inp.length ≠ n → exec i s = .fault .fOperand) ∧
    (¬ overLimit s → s.inp.length = n → s.outcap < need → exec i s = .fault .fOutcap) ∧
    (¬ overLimit s → s.inp.length = n → need ≤ s.outcap →
      ∃ count, InReg s.cfg need count ∧
        exec i s = .next
          { s with out := syms s, status := .holds .ok, count := .holds count, erroff := .unwritten })

/-- What a D* command does in every state: its three faults; if every code unit has a value, the state in which
OUT, STATUS, COUNT (in its width) and ERROFF are as its rule says and everything else is as before; and if `j` is
the first index whose code unit has no value, the error of 42_block_decode.md R140 at `j`, ERROFF in its width,
with some OUT that fits. -/
def DecodesBlock (i : Instr) (v : Variant) (n need : Nat) (bytes : State → List Byte) : Prop :=
  ∀ s : State,
    (overLimit s → exec i s = .fault .fLength) ∧
    (¬ overLimit s → s.inp.length ≠ n → exec i s = .fault .fOperand) ∧
    (¬ overLimit s → s.inp.length = n → s.outcap < need → exec i s = .fault .fOutcap) ∧
    (¬ overLimit s → s.inp.length = n → need ≤ s.outcap → (∀ c ∈ s.inUnits, REV v c ≠ none) →
      ∃ count, InReg s.cfg need count ∧
        exec i s = .next
          { s with out := byteUnits (bytes s), status := .holds .ok, count := .holds count, erroff := .unwritten }) ∧
    (∀ j c, ¬ overLimit s → s.inp.length = n → need ≤ s.outcap → s.inUnits.drop j = c :: s.inUnits.drop (j + 1) → REV v c = none →
      (∀ d ∈ s.inUnits.take j, REV v d ≠ none) →
      ∃ (o : List CodeUnit) (erroff : Nat), o.length ≤ s.outcap ∧ InReg s.cfg j erroff ∧
        exec i s = .next
          { s with
            out := o
            status := .holds (if c = zextW s.cfg.width (PAD v) then .unexpectedPadding else .invalidSymbol)
            erroff := .holds erroff
            count := .unwritten
            draws := s.draws + 1 })

/-- The error outcome of DEC: STATUS and ERROFF, COUNT without a value, some OUT that fits, all else as before.
ERROFF's width has room for every index of a DEC's IN, which MAX_LEN admits. -/
def RaisesError (v : Variant) (s : State) (code : Status) (off : Nat) : Prop :=
  ∃ o : List CodeUnit, o.length ≤ s.outcap ∧
    exec (.dec v) s = .next
      { s with
        out := o
        status := .holds code
        erroff := .holds off
        count := .unwritten
        draws := s.draws + 1 }

/-- DEC's operand checks pass (60_exceptions.md R244, R246, R248). -/
def DecOperandsOk (v : Variant) (s : State) : Prop :=
  s.tooLong = false ∧ ceilDiv s.inp.length v.family.S * v.family.B ≤ s.outcap

/-- A code unit of the alphabet. -/
def isData (v : Variant) (c : CodeUnit) : Prop := REV v c ≠ none

/-- The OUTCAP each command requires, the table of 60_exceptions.md R246. -/
def requiredCap (i : Instr) (s : State) : Nat :=
  match i with
  | .ctxinit => 0
  | .enc v _ => ceilDiv s.inp.length v.family.B * v.family.S
  | .dec v => ceilDiv s.inp.length v.family.S * v.family.B
  | .sfeed v => (s.ctx.pending.toNat + s.inp.length) / v.family.B * v.family.S
  | .sfin v p => if s.ctx.pending = 0 then 0 else if p then v.family.S else v.family.tsym s.ctx.pending.toNat
  | .e64t1 _ p => if p then 4 else 2
  | .e64t2 _ p => if p then 4 else 3
  | .e64b3 _ => 4
  | .e64b6 _ => 8
  | .e32t1 _ p => if p then 8 else 2
  | .e32t2 _ p => if p then 8 else 4
  | .e32t3 _ p => if p then 8 else 5
  | .e32t4 _ p => if p then 8 else 7
  | .e32b5 _ => 8
  | .e16b1 _ => 2
  | .d64t2 _ => 1
  | .d64t3 _ => 2
  | .d64b4 _ => 3
  | .d32t2 _ => 1
  | .d32t4 _ => 2
  | .d32t5 _ => 3
  | .d32t7 _ => 4
  | .d32b8 _ => 5
  | .d16b2 _ => 1

/-- The fault of the context check (44_streaming.md R211), read off the abstract state (10_state.md R45). -/
def contextFault (x : Context) (v : Variant) : Option Fault :=
  match x.abstractState with
  | .uninit => some .fCtxUninit
  | .finalized => some .fCtxReuse
  | .empty | .pending _ => if x.bound = none ∨ x.bound = some v then none else some .fCtxVariant

/-- Checks 2 to 5 of 60_exceptions.md R244 in their order: the fault that decides, if any. Check 2 is made by the
three commands R244 lists, and by every command where 00_scope.md R8 is read so (log entry 20). -/
def firstFault (i : Instr) (s : State) : Option Fault :=
  if (i.op = .enc ∨ i.op = .dec ∨ i.op = .sfeed ∨ s.cfg.lengthRule = .everyCommand) ∧ (∃ m, s.cfg.maxLen = some m ∧ m < s.inp.length) then some .fLength
  else if i.op.inLen ≠ none ∧ i.op.inLen ≠ some s.inp.length then some .fOperand
  else if (i.op = .sfeed ∨ i.op = .sfin) ∧ contextFault s.ctx i.variant ≠ none then contextFault s.ctx i.variant
  else if s.outcap < requiredCap i s then some .fOutcap
  else none

/-- The commands that take a context (20_memory.md R60). -/
def isStreaming (i : Instr) : Prop := i.op = .ctxinit ∨ i.op = .sfeed ∨ i.op = .sfin

/-- The decode commands (60_exceptions.md R240). -/
def isDecode (i : Instr) : Prop :=
  i.op ∈ [Op.dec, .d64t2, .d64t3, .d64b4, .d32t2, .d32t4, .d32t5, .d32t7, .d32b8, .d16b2]

/-- Two contexts no rule can tell apart: equal ghost fields and, if initialised, equal PENDING and
CARRY[0..PENDING) (10_state.md R42; 70_reset_and_hazards.md R270). -/
def sameContext (x y : Context) : Prop :=
  x.init = y.init ∧ x.fin = y.fin ∧ x.bound = y.bound ∧
    (x.init = true → x.pending = y.pending ∧ x.carried = y.carried)

/-- Two answers no host can tell apart: equal result registers, and equal OUT where STATUS = OK (10_state.md
R33: otherwise OUT is unspecified). -/
def sameAnswer (t u : State) : Prop :=
  t.status = u.status ∧ t.erroff = u.erroff ∧ t.count = u.count ∧ (t.status = .holds .ok → t.out = u.out)

/-- IN as an operand of a command line gives it (30_encoding.md R90): a character's ASCII code, or a hex pair,
per element. -/
def inOf : AsmOperand → Option (List CodeUnit)
  | .inText cs => some (cs.map fun c => BitVec.ofNat 32 c.toNat)
  | .inHex bs => some (units bs)
  | .cap _ | .ctx _ => none

/-- OUTCAP as an operand gives it. -/
def capOf : AsmOperand → Option Nat
  | .cap n => some n
  | .inText _ | .inHex _ | .ctx _ => none

/-- The context as an operand names it. -/
def ctxOf : AsmOperand → Option Nat
  | .ctx c => some c
  | .inText _ | .inHex _ | .cap _ => none

/-- What the last operand of a kind gives, if the line has one. -/
def lastOf {α : Type} (f : AsmOperand → Option α) (os : List AsmOperand) : Option α := (os.filterMap f).getLast?

/-- An operand the syntax of 30_encoding.md R90 can write: ASCII text without a double quote, at least one hex
pair. -/
def writable : AsmOperand → Prop
  | .inText cs => ∀ c ∈ cs, c.toNat < 128 ∧ c ≠ '"'
  | .inHex bs => bs ≠ []
  | .cap _ | .ctx _ => True

/-- The request's command takes a context. -/
def usesContext (r : Request) : Prop := ∃ i, decode r.cmd = .ok i ∧ isStreaming i

/-- Full family-64 blocks of `b` given to the block commands in the sizes listed: 6 is E64B6, 3 is E64B3
(43_bulk.md R181; the program P4 of 95_test_vectors.md). -/
def driverRequests (v : Variant) : List Byte → List Nat → List Request
  | _, [] => []
  | b, n :: ns =>
    ⟨encode (if n = 6 then .e64b6 v else .e64b3 v), units (b.take n), 8, 0⟩ :: driverRequests v (b.drop n) ns

/-- The rows of 10_state.md R20: variant, family, VAR code. -/
def variantRows : List (Variant × Family × BitVec 5) :=
  [(.base64, .f64, 0x00), (.base64Url, .f64, 0x01), (.base32, .f32, 0x08), (.base32Lower, .f32, 0x09),
   (.base32Hex, .f32, 0x0A), (.base32HexLower, .f32, 0x0B), (.base32Crockford, .f32, 0x0C),
   (.base32CrockfordLower, .f32, 0x0D), (.base16, .f16, 0x10), (.base16Lower, .f16, 0x11)]

/-- The reverse table as the ranges 10_state.md R28 lists: first code unit, last code unit, value of the first. -/
def revRanges : Variant → List (Nat × Nat × Nat)
  | .base64 => [(0x41, 0x5A, 0), (0x61, 0x7A, 26), (0x30, 0x39, 52), (0x2B, 0x2B, 62), (0x2F, 0x2F, 63)]
  | .base64Url => [(0x41, 0x5A, 0), (0x61, 0x7A, 26), (0x30, 0x39, 52), (0x2D, 0x2D, 62), (0x5F, 0x5F, 63)]
  | .base32 => [(0x41, 0x5A, 0), (0x32, 0x37, 26)]
  | .base32Lower => [(0x61, 0x7A, 0), (0x32, 0x37, 26)]
  | .base32Hex => [(0x30, 0x39, 0), (0x41, 0x56, 10)]
  | .base32HexLower => [(0x30, 0x39, 0), (0x61, 0x76, 10)]
  | .base32Crockford =>
    [(0x30, 0x39, 0), (0x41, 0x48, 10), (0x4A, 0x4A, 18), (0x4B, 0x4B, 19), (0x4D, 0x4D, 20), (0x4E, 0x4E, 21)] ++
    [(0x50, 0x54, 22), (0x56, 0x5A, 27)]
  | .base32CrockfordLower =>
    [(0x30, 0x39, 0), (0x61, 0x68, 10), (0x6A, 0x6A, 18), (0x6B, 0x6B, 19), (0x6D, 0x6D, 20), (0x6E, 0x6E, 21)] ++
    [(0x70, 0x74, 22), (0x76, 0x7A, 27)]
  | .base16 => [(0x30, 0x39, 0), (0x41, 0x46, 10)]
  | .base16Lower => [(0x30, 0x39, 0), (0x61, 0x66, 10)]

end Sys2Proof.Claims

open Sys2Proof.Claims

/-! ### Command words -/

/-- Every well-formed instruction is read back from its word: no bit of an encoding is dropped
(30_encoding.md R81 to R86). -/
def Obligations.DecodeOfEncodeIsTheInstruction : Prop :=
  ∀ i : Instr, i.WellFormed → decode (encode i) = .ok i

/-- Every word that decodes is the word of exactly the instruction it decodes to, which is well-formed
(30_encoding.md R81, R86). -/
def Obligations.EncodeOfDecodeIsTheWord : Prop :=
  ∀ (w : CmdWord) (i : Instr), decode w = .ok i → i.WellFormed ∧ encode i = w

/-- 30_encoding.md R86: the five checks in their order, the first that fails faults F_ILLEGAL whatever the
operands are, and a word that passes all five decodes to its row, with its VAR and P. -/
def Obligations.DecoderChecksInOrder : Prop :=
  ∀ w : CmdWord,
    ((∀ o : Op, o.code ≠ fieldOP w) → decode w = .error .unknownOp) ∧
    (∀ o : Op, o.code = fieldOP w →
      (fieldRZ w ≠ 0 → decode w = .error .reservedZero) ∧
      (fieldRZ w = 0 → ((∀ v : Variant, v.code ≠ fieldVAR w) ∨ (o = .ctxinit ∧ fieldVAR w ≠ 0)) →
        decode w = .error .reservedVariant) ∧
      (∀ v : Variant, fieldRZ w = 0 → v.code = fieldVAR w → (o = .ctxinit → fieldVAR w = 0) →
        (o.family ≠ none → o.family ≠ some v.family → decode w = .error .wrongFamily) ∧
        (o.family = none ∨ o.family = some v.family → fieldP w = true → o.takesPad = false →
          decode w = .error .paddingNotTaken) ∧
        (o.family = none ∨ o.family = some v.family → (fieldP w = true → o.takesPad = true) →
          decode w = .ok (o.instr v (fieldP w))))) ∧
    (∀ (e : DecodeError) (r : Request) (s : State), r.cmd = w → decode w = .error e → transact r s = .fault .fIllegal)

/-- 30_encoding.md R87: exactly 167 of the 65536 words are legal, 61 for the five bulk and streaming commands
and 106 for the 19 block commands. -/
def Obligations.LegalWordsAre167 : Prop :=
  ∃ bulk block : List CmdWord, (bulk ++ block).Nodup ∧ bulk.length = 61 ∧ block.length = 106 ∧
    (∀ w, w ∈ bulk ↔ ∃ i : Instr, decode w = .ok i ∧ i.op.family = none) ∧
    (∀ w, w ∈ block ↔ ∃ i : Instr, decode w = .ok i ∧ i.op.family ≠ none)

/-- Words of 95_test_vectors.md section 2, one per family of commands, decode as listed there. -/
def Obligations.ListedWordsDecode : Prop :=
  decode 0x0100 = .ok .ctxinit ∧ decode 0x028D = .ok (.enc .base32CrockfordLower true) ∧
  decode 0x0311 = .ok (.dec .base16Lower) ∧ decode 0x0588 = .ok (.sfin .base32 true) ∧
  decode 0x2181 = .ok (.e64t1 .base64Url true) ∧ decode 0x348C = .ok (.e32t4 .base32Crockford true) ∧
  decode 0x4111 = .ok (.e16b1 .base16Lower) ∧ decode 0x680A = .ok (.d32b8 .base32Hex) ∧
  decode 0x7210 = .ok (.d16b2 .base16) ∧ decode 0x0402 = .error .reservedVariant ∧
  decode 0x0420 = .error .reservedZero ∧ decode 0x2108 = .error .wrongFamily ∧
  decode 0x2380 = .error .paddingNotTaken ∧ decode 0x2400 = .error .unknownOp

/-- Every line whose ".P" R85 calls legal and whose variant is of the operation's family, CTXINIT's being omitted,
assembles; and an assembled command line's word decodes to the operation, the variant and the padding flag of the line
(30_encoding.md R90), and its operands are the line's: whatever operands the line has, in whatever order, IN,
OUTCAP and the context are those of the last operand of each kind, IN empty and OUTCAP = 0 where omitted. That
the last one counts, and that an omitted `ctx=` is context 0, is the model's choice (log entry 19). -/
def Obligations.AssembledLineDecodes : Prop :=
  (∀ (l : AsmLine) (r : Request), l.assemble = some r →
    (∃ i : Instr, decode r.cmd = .ok i ∧ i.op = l.op ∧ i.pad = l.p ∧ ∀ v, l.variant = some v → i.variant = v) ∧
    r.inp = (lastOf inOf l.operands).getD [] ∧ r.outcap = (lastOf capOf l.operands).getD 0 ∧
    r.ctx = (lastOf ctxOf l.operands).getD 0) ∧
  (∀ l : AsmLine, (l.p = true → l.op.takesPad = true) →
    ((l.op = .ctxinit ∧ l.variant = none) ∨
      (l.op ≠ .ctxinit ∧ ∃ v, l.variant = some v ∧ (l.op.family = none ∨ l.op.family = some v.family))) →
    ∃ r : Request, l.assemble = some r)

/-- A command line written as text is read back as the same line (30_encoding.md R90), for every mnemonic, ".P",
variant and operand list. That a context's name is written `c` and a number is the model's choice (log entry 14). -/
def Obligations.CommandTextReadsBack : Prop :=
  ∀ l : AsmLine, (l.op = .ctxinit → l.variant = none) → (∀ o ∈ l.operands, writable o) →
    parseLine l.text.toList = some l

/-! ### The step -/

/-- A step runs the decoded command: on a block that has not faulted, the host's oldest action, if it is a
command whose word decodes to `i` with operands of its types, is taken and `i` runs on its operands. -/
def Obligations.StepRunsTheDecodedCommand : Prop :=
  ∀ (s : State) (r : Request) (rest : List HostAction) (i : Instr),
    s.faults = [] → s.queue = .command r :: rest → decode r.cmd = .ok i → r.fits s.cfg.width i.op = true →
    step s = exec i { s with queue := rest, inp := r.inp, outcap := r.outcap, ctxSel := r.ctx, out := [] }

/-- 00_scope.md R6 and R7, 20_memory.md R61: a byte has 8 bits, a code unit W of them. A transaction of a command that
takes elements fits exactly when every element of IN is a byte (encode direction) or a W-bit code unit (decode
direction); and such an IN is what the command reads, element by element, no lane cut off. One that does not fit is
refused, for no such transaction exists (log entry 6). -/
def Obligations.CommandsReadTheirElementsWhole : Prop :=
  Width.w8.bits = 8 ∧ Width.w16.bits = 16 ∧ Width.w32.bits = 32 ∧
  ∀ (i : Instr) (r : Request) (s : State), i.op ≠ .ctxinit → i.op ≠ .sfin →
    (r.fits s.cfg.width i.op = true ↔
      ∀ x ∈ r.inp, (isDecode i → x.toNat < 2 ^ s.cfg.width.bits) ∧ (¬ isDecode i → x.toNat < 2 ^ 8)) ∧
    (r.fits s.cfg.width i.op = true →
      (isDecode i → (s.latch r).inUnits = r.inp) ∧ (¬ isDecode i → units (s.latch r).inBytes = r.inp)) ∧
    (decode r.cmd = .ok i → r.fits s.cfg.width i.op = false → transact r s = .refused .operandWidth)

/-- What every other step does: a word that does not decode faults F_ILLEGAL (30_encoding.md R86); a read is
answered from the result register (60_exceptions.md R249); a reset leaves no result register holding a value and
the fault set empty (70_reset_and_hazards.md R270) and the context records as they are (R271). The model's own
choices: an idle block is unchanged (log entry 3); a reset keeps OUT, IN, OUTCAP, the context's name, the read
data and the counter of draws (log entry 16); a faulted block answers every further action with a fault (log
entry 4). -/
def Obligations.StepOfOtherActions : Prop :=
  (∀ s : State, s.faults = [] → s.queue = [] → step s = .next s) ∧
  (∀ (s : State) (r : Request) (rest : List HostAction) (e : DecodeError),
    s.faults = [] → s.queue = .command r :: rest → decode r.cmd = .error e → step s = .fault .fIllegal) ∧
  (∀ (s : State) (r : RegName) (rest : List HostAction) (x : Nat),
    s.faults = [] → s.queue = .read r :: rest → s.regValue r = .holds x →
    step s = .next { s with queue := rest, readData := some x }) ∧
  (∀ (s : State) (rest : List HostAction), s.faults = [] → s.queue = .reset :: rest →
    step s = .next
      { s with queue := rest, status := .unwritten, erroff := .unwritten, count := .unwritten, faults := [] }) ∧
  (∀ s : State, s.faults ≠ [] → ∃ f, step s = .fault f)

/-! ### Variants and geometry -/

/-- 10_state.md R20 and R21: the family and the VAR code of each variant, and the geometry functions: k, B, S, tsym,
TAILS and tbytes of each family, in the numbers the rules list and by their formulas. -/
def Obligations.GeometryIsTheListedOne : Prop :=
  (∀ v : Variant, (v, v.family, v.code) ∈ variantRows) ∧
  (Family.f64.k = 6 ∧ Family.f64.B = 3 ∧ Family.f64.S = 4) ∧
  (Family.f32.k = 5 ∧ Family.f32.B = 5 ∧ Family.f32.S = 8) ∧
  (Family.f16.k = 4 ∧ Family.f16.B = 1 ∧ Family.f16.S = 2) ∧
  [1, 2, 3].map Family.f64.tsym = [2, 3, 4] ∧ [1, 2, 3, 4, 5].map Family.f32.tsym = [2, 4, 5, 7, 8] ∧
  Family.f16.tsym 1 = 2 ∧
  Family.f64.tails = [2, 3] ∧ Family.f32.tails = [2, 4, 5, 7] ∧ Family.f16.tails = [] ∧
  [2, 3, 4].map Family.f64.tbytes = [1, 2, 3] ∧ [2, 4, 5, 7, 8].map Family.f32.tbytes = [1, 2, 3, 4, 5] ∧
  Family.f16.tbytes 2 = 1 ∧
  ∀ (f : Family) (n : Nat),
    (8 * n ≤ f.tsym n * f.k ∧ f.tsym n * f.k < 8 * n + f.k) ∧
    (f.tbytes n * 8 ≤ n * f.k ∧ n * f.k < f.tbytes n * 8 + 8)

/-! ### The alphabet ROM -/

/-- 10_state.md R29: the entries of each forward table are pairwise distinct and differ from the pad, and the
reverse table inverts the forward table; R22 and R27: the pad is 0x3D for every variant and stands at index 2^k. -/
def Obligations.RomTablesAreInverse : Prop :=
  ∀ v : Variant,
    (fwdTable v).length = 2 ^ v.family.k ∧
    (∀ i j, i < 2 ^ v.family.k → j < 2 ^ v.family.k → FWD v i = FWD v j → i = j) ∧
    (∀ i, i < 2 ^ v.family.k → FWD v i ≠ PAD v) ∧
    (∀ (w : Width) (i : Nat), i < 2 ^ v.family.k → REV v (zextW w (FWD v i)) = some i) ∧
    PAD v = 0x3D ∧ FWD v (2 ^ v.family.k) = PAD v

/-- 10_state.md R28: REV(V, c) is the index at which c stands in the forward table, INVALID for the pad and for
every code unit of 256 or more; and it is the table of ranges the rule lists, all else INVALID. -/
def Obligations.ReverseTableIsExact : Prop :=
  ∀ (v : Variant) (c : CodeUnit),
    (∀ i, REV v c = some i ↔ (c.toNat < 256 ∧ i < 2 ^ v.family.k ∧ (FWD v i).toNat = c.toNat)) ∧
    (∀ w : Width, c = zextW w (PAD v) → REV v c = none) ∧
    (256 ≤ c.toNat → REV v c = none) ∧
    (∀ i, REV v c = some i ↔ ∃ e ∈ revRanges v, e.1 ≤ c.toNat ∧ c.toNat ≤ e.2.1 ∧ i = e.2.2 + (c.toNat - e.1))

/-! ### Packing -/

/-- 00_scope.md R14, pack: ceil(8n/k) groups of k bits which, read as one number with the first group most
significant, are the bytes read so, with fewer than k zero bits below. -/
def Obligations.PackIsBigEndian : Prop :=
  ∀ (b : List Byte) (k : Nat), 0 < k →
    (pack b k).length = ceilDiv (8 * b.length) k ∧ (∀ g ∈ pack b k, g < 2 ^ k) ∧
    8 * b.length ≤ ceilDiv (8 * b.length) k * k ∧ ceilDiv (8 * b.length) k * k - 8 * b.length < k ∧
    beNat k (pack b k) = beNat 8 (b.map BitVec.toNat) * 2 ^ (ceilDiv (8 * b.length) k * k - 8 * b.length)

/-- 00_scope.md R14, unpack: floor(r*k/8) bytes which, read as one number with the first byte most significant,
are the values read so, with fewer than 8 low bits discarded. -/
def Obligations.UnpackIsBigEndian : Prop :=
  ∀ (x : List Nat) (k : Nat), 0 < k → (∀ g ∈ x, g < 2 ^ k) →
    (unpack x k).length = x.length * k / 8 ∧
    x.length * k - 8 * (x.length * k / 8) < 8 ∧
    beNat 8 ((unpack x k).map BitVec.toNat) = beNat k x / 2 ^ (x.length * k - 8 * (x.length * k / 8))

/-- 42_block_decode.md R150: decoding the symbols of a byte block gives the block; and encoding what a legal
string of symbols decodes to gives the string back exactly when the bits that decoding discards are zero. -/
def Obligations.BlockDecodeInvertsBlockEncode : Prop :=
  ∀ (w : Width) (v : Variant),
    (∀ b : List Byte, b ≠ [] → decSyms v (encSyms w v b) = b) ∧
    (∀ c : List CodeUnit, (c.length ∈ v.family.tails ∨ c.length = v.family.S) → (∀ x ∈ c, isData v x) →
      (encSyms w v (decSyms v c) = c ↔
        beNat v.family.k (dataValues v c) % 2 ^ (c.length * v.family.k - 8 * (c.length * v.family.k / 8)) = 0))

/-! ### Block encode commands -/

/-- 41_block_encode.md R101, E64B3.
What COUNT holds of a value its width (10_state.md R31, R32) does not admit is log entry 9's choice. F_LENGTH is raised here in
one reading of 00_scope.md R8 and not in the other; both are stated (log entry 20). -/
def Obligations.E64B3EncodesThreeBytes : Prop :=
  WordsOf 0x23 [(0x2300, .e64b3 .base64), (0x2301, .e64b3 .base64Url)] ∧
  ∀ v : Variant, v.family = .f64 → EncodesBlock (.e64b3 v) 3 4 fun s =>
    let x : BitVec 24 := byteAt s 0 ++ byteAt s 1 ++ byteAt s 2
    [sym s v (x.extractLsb' 18 6).toNat, sym s v (x.extractLsb' 12 6).toNat,
     sym s v (x.extractLsb' 6 6).toNat, sym s v (x.extractLsb' 0 6).toNat]

/-- 41_block_encode.md R102, E64B6: the body lists of two E64B3 on the two halves.
What COUNT holds of a value its width (10_state.md R31, R32) does not admit is log entry 9's choice. F_LENGTH is raised here in
one reading of 00_scope.md R8 and not in the other; both are stated (log entry 20). -/
def Obligations.E64B6IsTwoE64B3 : Prop :=
  WordsOf 0x26 [(0x2600, .e64b6 .base64), (0x2601, .e64b6 .base64Url)] ∧
  ∀ v : Variant, v.family = .f64 → EncodesBlock (.e64b6 v) 6 8 fun s =>
    let x : BitVec 24 := byteAt s 0 ++ byteAt s 1 ++ byteAt s 2
    let y : BitVec 24 := byteAt s 3 ++ byteAt s 4 ++ byteAt s 5
    [sym s v (x.extractLsb' 18 6).toNat, sym s v (x.extractLsb' 12 6).toNat,
     sym s v (x.extractLsb' 6 6).toNat, sym s v (x.extractLsb' 0 6).toNat] ++
    [sym s v (y.extractLsb' 18 6).toNat, sym s v (y.extractLsb' 12 6).toNat,
     sym s v (y.extractLsb' 6 6).toNat, sym s v (y.extractLsb' 0 6).toNat]

/-- 41_block_encode.md R103 and R104, E64T1 and E64T2.
What COUNT holds of a value its width (10_state.md R31, R32) does not admit is log entry 9's choice. F_LENGTH is raised here in
one reading of 00_scope.md R8 and not in the other; both are stated (log entry 20). -/
def Obligations.E64TailsEncodeOneOrTwoBytes : Prop :=
  WordsOf 0x21 [(0x2100, .e64t1 .base64 false), (0x2101, .e64t1 .base64Url false),
    (0x2180, .e64t1 .base64 true), (0x2181, .e64t1 .base64Url true)] ∧
  WordsOf 0x22 [(0x2200, .e64t2 .base64 false), (0x2201, .e64t2 .base64Url false),
    (0x2280, .e64t2 .base64 true), (0x2281, .e64t2 .base64Url true)] ∧
  ∀ (v : Variant) (p : Bool), v.family = .f64 →
    (EncodesBlock (.e64t1 v p) 1 (if p then 4 else 2) fun s =>
      let b := byteAt s 0
      [sym s v (b.extractLsb' 2 6).toNat, sym s v (b.extractLsb' 0 2 ++ (0 : BitVec 4)).toNat] ++ pads s v p 2) ∧
    (EncodesBlock (.e64t2 v p) 2 (if p then 4 else 3) fun s =>
      let x : BitVec 16 := byteAt s 0 ++ byteAt s 1
      [sym s v (x.extractLsb' 10 6).toNat, sym s v (x.extractLsb' 4 6).toNat,
       sym s v (x.extractLsb' 0 4 ++ (0 : BitVec 2)).toNat] ++ pads s v p 1)

/-- 41_block_encode.md R105, E32B5.
What COUNT holds of a value its width (10_state.md R31, R32) does not admit is log entry 9's choice. F_LENGTH is raised here in
one reading of 00_scope.md R8 and not in the other; both are stated (log entry 20). -/
def Obligations.E32B5EncodesFiveBytes : Prop :=
  WordsOf 0x35 [(0x3508, .e32b5 .base32), (0x3509, .e32b5 .base32Lower), (0x350A, .e32b5 .base32Hex),
    (0x350B, .e32b5 .base32HexLower), (0x350C, .e32b5 .base32Crockford), (0x350D, .e32b5 .base32CrockfordLower)] ∧
  ∀ v : Variant, v.family = .f32 → EncodesBlock (.e32b5 v) 5 8 fun s =>
    let x : BitVec 40 := byteAt s 0 ++ byteAt s 1 ++ byteAt s 2 ++ byteAt s 3 ++ byteAt s 4
    (List.range 8).map fun j => sym s v (x.extractLsb' (35 - 5 * j) 5).toNat

/-- 41_block_encode.md R106 and R107, E32T1 and E32T2.
What COUNT holds of a value its width (10_state.md R31, R32) does not admit is log entry 9's choice. F_LENGTH is raised here in
one reading of 00_scope.md R8 and not in the other; both are stated (log entry 20). -/
def Obligations.E32TailsEncodeOneOrTwoBytes : Prop :=
  WordsOf 0x31 [(0x3108, .e32t1 .base32 false), (0x3109, .e32t1 .base32Lower false), (0x310A, .e32t1 .base32Hex false),
    (0x310B, .e32t1 .base32HexLower false), (0x310C, .e32t1 .base32Crockford false),
    (0x310D, .e32t1 .base32CrockfordLower false), (0x3188, .e32t1 .base32 true),
    (0x3189, .e32t1 .base32Lower true), (0x318A, .e32t1 .base32Hex true), (0x318B, .e32t1 .base32HexLower true),
    (0x318C, .e32t1 .base32Crockford true), (0x318D, .e32t1 .base32CrockfordLower true)] ∧
  WordsOf 0x32 [(0x3208, .e32t2 .base32 false), (0x3209, .e32t2 .base32Lower false), (0x320A, .e32t2 .base32Hex false),
    (0x320B, .e32t2 .base32HexLower false), (0x320C, .e32t2 .base32Crockford false),
    (0x320D, .e32t2 .base32CrockfordLower false), (0x3288, .e32t2 .base32 true),
    (0x3289, .e32t2 .base32Lower true), (0x328A, .e32t2 .base32Hex true), (0x328B, .e32t2 .base32HexLower true),
    (0x328C, .e32t2 .base32Crockford true), (0x328D, .e32t2 .base32CrockfordLower true)] ∧
  ∀ (v : Variant) (p : Bool), v.family = .f32 →
    (EncodesBlock (.e32t1 v p) 1 (if p then 8 else 2) fun s =>
      let b := byteAt s 0
      [sym s v (b.extractLsb' 3 5).toNat, sym s v (b.extractLsb' 0 3 ++ (0 : BitVec 2)).toNat] ++ pads s v p 6) ∧
    (EncodesBlock (.e32t2 v p) 2 (if p then 8 else 4) fun s =>
      let x : BitVec 16 := byteAt s 0 ++ byteAt s 1
      [sym s v (x.extractLsb' 11 5).toNat, sym s v (x.extractLsb' 6 5).toNat, sym s v (x.extractLsb' 1 5).toNat,
       sym s v (x.extractLsb' 0 1 ++ (0 : BitVec 4)).toNat] ++ pads s v p 4)

/-- 41_block_encode.md R108 and R109, E32T3 and E32T4.
What COUNT holds of a value its width (10_state.md R31, R32) does not admit is log entry 9's choice. F_LENGTH is raised here in
one reading of 00_scope.md R8 and not in the other; both are stated (log entry 20). -/
def Obligations.E32TailsEncodeThreeOrFourBytes : Prop :=
  WordsOf 0x33 [(0x3308, .e32t3 .base32 false), (0x3309, .e32t3 .base32Lower false), (0x330A, .e32t3 .base32Hex false),
    (0x330B, .e32t3 .base32HexLower false), (0x330C, .e32t3 .base32Crockford false),
    (0x330D, .e32t3 .base32CrockfordLower false), (0x3388, .e32t3 .base32 true),
    (0x3389, .e32t3 .base32Lower true), (0x338A, .e32t3 .base32Hex true), (0x338B, .e32t3 .base32HexLower true),
    (0x338C, .e32t3 .base32Crockford true), (0x338D, .e32t3 .base32CrockfordLower true)] ∧
  WordsOf 0x34 [(0x3408, .e32t4 .base32 false), (0x3409, .e32t4 .base32Lower false), (0x340A, .e32t4 .base32Hex false),
    (0x340B, .e32t4 .base32HexLower false), (0x340C, .e32t4 .base32Crockford false),
    (0x340D, .e32t4 .base32CrockfordLower false), (0x3488, .e32t4 .base32 true),
    (0x3489, .e32t4 .base32Lower true), (0x348A, .e32t4 .base32Hex true), (0x348B, .e32t4 .base32HexLower true),
    (0x348C, .e32t4 .base32Crockford true), (0x348D, .e32t4 .base32CrockfordLower true)] ∧
  ∀ (v : Variant) (p : Bool), v.family = .f32 →
    (EncodesBlock (.e32t3 v p) 3 (if p then 8 else 5) fun s =>
      let x : BitVec 24 := byteAt s 0 ++ byteAt s 1 ++ byteAt s 2
      [sym s v (x.extractLsb' 19 5).toNat, sym s v (x.extractLsb' 14 5).toNat, sym s v (x.extractLsb' 9 5).toNat,
       sym s v (x.extractLsb' 4 5).toNat, sym s v (x.extractLsb' 0 4 ++ (0 : BitVec 1)).toNat] ++ pads s v p 3) ∧
    (EncodesBlock (.e32t4 v p) 4 (if p then 8 else 7) fun s =>
      let x : BitVec 32 := byteAt s 0 ++ byteAt s 1 ++ byteAt s 2 ++ byteAt s 3
      [sym s v (x.extractLsb' 27 5).toNat, sym s v (x.extractLsb' 22 5).toNat, sym s v (x.extractLsb' 17 5).toNat,
       sym s v (x.extractLsb' 12 5).toNat, sym s v (x.extractLsb' 7 5).toNat, sym s v (x.extractLsb' 2 5).toNat,
       sym s v (x.extractLsb' 0 2 ++ (0 : BitVec 3)).toNat] ++ pads s v p 1)

/-- 41_block_encode.md R110, E16B1.
What COUNT holds of a value its width (10_state.md R31, R32) does not admit is log entry 9's choice. F_LENGTH is raised here in
one reading of 00_scope.md R8 and not in the other; both are stated (log entry 20). -/
def Obligations.E16B1EncodesOneByte : Prop :=
  WordsOf 0x41 [(0x4110, .e16b1 .base16), (0x4111, .e16b1 .base16Lower)] ∧
  ∀ v : Variant, v.family = .f16 → EncodesBlock (.e16b1 v) 1 2 fun s =>
    let b := byteAt s 0
    [sym s v (b.extractLsb' 4 4).toNat, sym s v (b.extractLsb' 0 4).toNat]

/-! ### Block decode commands -/

/-- 42_block_decode.md R141, D64B4.
Its errors are R140's. What COUNT and ERROFF hold of a value their width (10_state.md R31, R32) does not admit is log
entry 9's choice. F_LENGTH is raised here in one reading of 00_scope.md R8 and not in the other; both are stated
(log entry 20). -/
def Obligations.D64B4DecodesFourSymbols : Prop :=
  WordsOf 0x54 [(0x5400, .d64b4 .base64), (0x5401, .d64b4 .base64Url)] ∧
  ∀ v : Variant, v.family = .f64 → DecodesBlock (.d64b4 v) v 4 3 fun s =>
    let x : BitVec 24 := val s v 6 0 ++ val s v 6 1 ++ val s v 6 2 ++ val s v 6 3
    [x.extractLsb' 16 8, x.extractLsb' 8 8, x.extractLsb' 0 8]

/-- 42_block_decode.md R142 and R143, D64T2 and D64T3.
Its errors are R140's. What COUNT and ERROFF hold of a value their width (10_state.md R31, R32) does not admit is log
entry 9's choice. F_LENGTH is raised here in one reading of 00_scope.md R8 and not in the other; both are stated
(log entry 20). -/
def Obligations.D64TailsDecodeTwoOrThreeSymbols : Prop :=
  WordsOf 0x52 [(0x5200, .d64t2 .base64), (0x5201, .d64t2 .base64Url)] ∧
  WordsOf 0x53 [(0x5300, .d64t3 .base64), (0x5301, .d64t3 .base64Url)] ∧
  ∀ v : Variant, v.family = .f64 →
    (DecodesBlock (.d64t2 v) v 2 1 fun s =>
      let x : BitVec 12 := val s v 6 0 ++ val s v 6 1
      [x.extractLsb' 4 8]) ∧
    (DecodesBlock (.d64t3 v) v 3 2 fun s =>
      let x : BitVec 18 := val s v 6 0 ++ val s v 6 1 ++ val s v 6 2
      [x.extractLsb' 10 8, x.extractLsb' 2 8])

/-- 42_block_decode.md R144, D32B8.
Its errors are R140's. What COUNT and ERROFF hold of a value their width (10_state.md R31, R32) does not admit is log
entry 9's choice. F_LENGTH is raised here in one reading of 00_scope.md R8 and not in the other; both are stated
(log entry 20). -/
def Obligations.D32B8DecodesEightSymbols : Prop :=
  WordsOf 0x68 [(0x6808, .d32b8 .base32), (0x6809, .d32b8 .base32Lower), (0x680A, .d32b8 .base32Hex),
    (0x680B, .d32b8 .base32HexLower), (0x680C, .d32b8 .base32Crockford), (0x680D, .d32b8 .base32CrockfordLower)] ∧
  ∀ v : Variant, v.family = .f32 → DecodesBlock (.d32b8 v) v 8 5 fun s =>
    let x : BitVec 40 := val s v 5 0 ++ val s v 5 1 ++ val s v 5 2 ++ val s v 5 3 ++ val s v 5 4 ++ val s v 5 5 ++
      val s v 5 6 ++ val s v 5 7
    [x.extractLsb' 32 8, x.extractLsb' 24 8, x.extractLsb' 16 8, x.extractLsb' 8 8, x.extractLsb' 0 8]

/-- 42_block_decode.md R145 and R146, D32T2 and D32T4.
Its errors are R140's. What COUNT and ERROFF hold of a value their width (10_state.md R31, R32) does not admit is log
entry 9's choice. F_LENGTH is raised here in one reading of 00_scope.md R8 and not in the other; both are stated
(log entry 20). -/
def Obligations.D32TailsDecodeTwoOrFourSymbols : Prop :=
  WordsOf 0x62 [(0x6208, .d32t2 .base32), (0x6209, .d32t2 .base32Lower), (0x620A, .d32t2 .base32Hex),
    (0x620B, .d32t2 .base32HexLower), (0x620C, .d32t2 .base32Crockford), (0x620D, .d32t2 .base32CrockfordLower)] ∧
  WordsOf 0x64 [(0x6408, .d32t4 .base32), (0x6409, .d32t4 .base32Lower), (0x640A, .d32t4 .base32Hex),
    (0x640B, .d32t4 .base32HexLower), (0x640C, .d32t4 .base32Crockford), (0x640D, .d32t4 .base32CrockfordLower)] ∧
  ∀ v : Variant, v.family = .f32 →
    (DecodesBlock (.d32t2 v) v 2 1 fun s =>
      let x : BitVec 10 := val s v 5 0 ++ val s v 5 1
      [x.extractLsb' 2 8]) ∧
    (DecodesBlock (.d32t4 v) v 4 2 fun s =>
      let x : BitVec 20 := val s v 5 0 ++ val s v 5 1 ++ val s v 5 2 ++ val s v 5 3
      [x.extractLsb' 12 8, x.extractLsb' 4 8])

/-- 42_block_decode.md R147 and R148, D32T5 and D32T7.
Its errors are R140's. What COUNT and ERROFF hold of a value their width (10_state.md R31, R32) does not admit is log
entry 9's choice. F_LENGTH is raised here in one reading of 00_scope.md R8 and not in the other; both are stated
(log entry 20). -/
def Obligations.D32TailsDecodeFiveOrSevenSymbols : Prop :=
  WordsOf 0x65 [(0x6508, .d32t5 .base32), (0x6509, .d32t5 .base32Lower), (0x650A, .d32t5 .base32Hex),
    (0x650B, .d32t5 .base32HexLower), (0x650C, .d32t5 .base32Crockford), (0x650D, .d32t5 .base32CrockfordLower)] ∧
  WordsOf 0x67 [(0x6708, .d32t7 .base32), (0x6709, .d32t7 .base32Lower), (0x670A, .d32t7 .base32Hex),
    (0x670B, .d32t7 .base32HexLower), (0x670C, .d32t7 .base32Crockford), (0x670D, .d32t7 .base32CrockfordLower)] ∧
  ∀ v : Variant, v.family = .f32 →
    (DecodesBlock (.d32t5 v) v 5 3 fun s =>
      let x : BitVec 25 := val s v 5 0 ++ val s v 5 1 ++ val s v 5 2 ++ val s v 5 3 ++ val s v 5 4
      [x.extractLsb' 17 8, x.extractLsb' 9 8, x.extractLsb' 1 8]) ∧
    (DecodesBlock (.d32t7 v) v 7 4 fun s =>
      let x : BitVec 35 := val s v 5 0 ++ val s v 5 1 ++ val s v 5 2 ++ val s v 5 3 ++ val s v 5 4 ++ val s v 5 5 ++
        val s v 5 6
      [x.extractLsb' 27 8, x.extractLsb' 19 8, x.extractLsb' 11 8, x.extractLsb' 3 8])

/-- 42_block_decode.md R149, D16B2.
Its errors are R140's. What COUNT and ERROFF hold of a value their width (10_state.md R31, R32) does not admit is log
entry 9's choice. F_LENGTH is raised here in one reading of 00_scope.md R8 and not in the other; both are stated
(log entry 20). -/
def Obligations.D16B2DecodesTwoSymbols : Prop :=
  WordsOf 0x72 [(0x7210, .d16b2 .base16), (0x7211, .d16b2 .base16Lower)] ∧
  ∀ v : Variant, v.family = .f16 → DecodesBlock (.d16b2 v) v 2 1 fun s =>
    let x : BitVec 8 := val s v 4 0 ++ val s v 4 1
    [x]

/-! ### Bulk commands -/

/-- 43_bulk.md R180 and R182: ENC's words, its faults, its OUT block by block and then the tail, the length of
OUT by the formulas, and COUNT in its width (10_state.md R31, R32); everything else is as before. What COUNT holds
of a value its width does not admit is log entry 9's choice. -/
def Obligations.EncEncodesBlocksThenTail : Prop :=
  WordsOf 0x02 (wordsFor 0x02 false (.enc · false) ++ wordsFor 0x02 true (.enc · true)) ∧
  ∀ (v : Variant) (p : Bool) (s : State),
    let n := s.inp.length
    let o := ((List.range (n / v.family.B)).flatMap fun i =>
        encSyms s.cfg.width v ((s.inBytes.drop (i * v.family.B)).take v.family.B)) ++
      encTail s.cfg.width v (s.inBytes.drop (n / v.family.B * v.family.B)) p
    o.length = (if p then ceilDiv n v.family.B * v.family.S else ceilDiv (8 * n) v.family.k) ∧
    (∀ m, s.cfg.maxLen = some m → m < n → exec (.enc v p) s = .fault .fLength) ∧
    ((∀ m, s.cfg.maxLen = some m → n ≤ m) →
      (s.outcap < ceilDiv n v.family.B * v.family.S → exec (.enc v p) s = .fault .fOutcap) ∧
      (ceilDiv n v.family.B * v.family.S ≤ s.outcap →
        ∃ count, InReg s.cfg o.length count ∧
          exec (.enc v p) s = .next
            { s with out := o, status := .holds .ok, count := .holds count, erroff := .unwritten }))

/-- ENC block by block is the conversion of the whole input as ONE big-endian integer into base-2^k digits,
followed for P = 1 by the pads that fill the last group (43_bulk.md R180, 00_scope.md R14). COUNT is in its width, log
entry 9. -/
def Obligations.EncIsOneBigEndianConversion : Prop :=
  ∀ (v : Variant) (p : Bool) (s : State), s.tooLong = false →
    ceilDiv s.inp.length v.family.B * v.family.S ≤ s.outcap →
    ∃ count,
      InReg s.cfg (if p then ceilDiv s.inp.length v.family.B * v.family.S
        else ceilDiv (8 * s.inp.length) v.family.k) count ∧
      exec (.enc v p) s = .next
        { s with
          out := (pack s.inBytes v.family.k).map (fun g => sym s v g) ++
            pads s v p (ceilDiv s.inp.length v.family.B * v.family.S - ceilDiv (8 * s.inp.length) v.family.k)
          status := .holds .ok
          count := .holds count
          erroff := .unwritten }

/-- 43_bulk.md R181: whatever split of the full family-64 blocks into E64B6 and E64B3 commands a host issues,
the concatenated OUT is the one ENC gives, and no context changes. Where every
command checks MAX_LEN (00_scope.md R8 read so, log entry 20), it admits the sizes. -/
def Obligations.BlockSplitIsNotObservable : Prop :=
  ∀ (v : Variant) (p : Bool) (b : List Byte) (sizes : List Nat) (s : State), v.family = .f64 →
    (∀ n ∈ sizes, n = 3 ∨ n = 6) → sizes.sum = b.length →
    (s.cfg.lengthRule = .everyCommand → ∀ m, s.cfg.maxLen = some m → ∀ n ∈ sizes, n ≤ m) →
    ∃ t : State, collect (driverRequests v b sizes) s = .next (encAll s.cfg.width v p b, t) ∧ t.ctxs = s.ctxs

/-- 43_bulk.md R183 and 60_exceptions.md R242, R243: which error DEC reports, with which offset. `pre` is what
stands before the first code unit that is not data; `r` its length modulo S. -/
def Obligations.DecReportsTheFirstError : Prop :=
  ∀ (v : Variant) (s : State) (pre : List CodeUnit), DecOperandsOk v s → (∀ x ∈ pre, isData v x) →
    (∀ c post, s.inUnits = pre ++ c :: post → REV v c = none → c ≠ zextW s.cfg.width (PAD v) →
      RaisesError v s .invalidSymbol pre.length) ∧
    (∀ post, s.inUnits = pre ++ zextW s.cfg.width (PAD v) :: post → pre.length % v.family.S ∉ v.family.tails →
      RaisesError v s .unexpectedPadding pre.length) ∧
    (∀ (m : Nat) c post, s.inUnits = pre ++ List.replicate (m + 1) (zextW s.cfg.width (PAD v)) ++ c :: post →
      pre.length % v.family.S ∈ v.family.tails → c ≠ zextW s.cfg.width (PAD v) →
      RaisesError v s (if REV v c = none then .invalidSymbol else .unexpectedPadding) (pre.length + m + 1)) ∧
    (∀ q : Nat, s.inUnits = pre ++ List.replicate (q + 1) (zextW s.cfg.width (PAD v)) →
      pre.length % v.family.S ∈ v.family.tails → q + 1 < v.family.S - pre.length % v.family.S →
      RaisesError v s .truncatedInput (pre.length - pre.length % v.family.S)) ∧
    (∀ q : Nat, s.inUnits = pre ++ List.replicate (q + 1) (zextW s.cfg.width (PAD v)) →
      pre.length % v.family.S ∈ v.family.tails → v.family.S - pre.length % v.family.S < q + 1 →
      RaisesError v s .unexpectedPadding (pre.length + (v.family.S - pre.length % v.family.S))) ∧
    (s.inUnits = pre → pre.length % v.family.S ≠ 0 → pre.length % v.family.S ∉ v.family.tails →
      RaisesError v s .truncatedInput (pre.length - pre.length % v.family.S))

/-- 43_bulk.md R183 and R184: data symbols, alone with a legal last group or followed by exactly the pads that
fill it, decode with STATUS = OK to their groups' bytes, COUNT by the formula of R184, all else as before. -/
def Obligations.DecDecodesLegalInput : Prop :=
  ∀ (v : Variant) (s : State) (data : List CodeUnit) (q : Nat), DecOperandsOk v s → (∀ x ∈ data, isData v x) →
    s.inUnits = data ++ List.replicate q (zextW s.cfg.width (PAD v)) →
    ((q = 0 ∧ (data.length % v.family.S = 0 ∨ data.length % v.family.S ∈ v.family.tails)) ∨
      (data.length % v.family.S ∈ v.family.tails ∧ q = v.family.S - data.length % v.family.S)) →
    exec (.dec v) s = .next
      { s with
        out := byteUnits
          (((List.range (data.length / v.family.S)).flatMap fun i =>
              decSyms v ((data.drop (i * v.family.S)).take v.family.S)) ++
            (if data.length % v.family.S > 0 then decSyms v (data.drop (data.length - data.length % v.family.S)) else []))
        status := .holds .ok
        count := .holds ((data.length - data.length % v.family.S) / v.family.S * v.family.B +
          v.family.tbytes (data.length % v.family.S))
        erroff := .unwritten }

/-- DEC ends with STATUS = OK exactly on data symbols with a legal last group, alone or followed by exactly the
pads that fill it (43_bulk.md R183, R185, R187: for every variant of every family). -/
def Obligations.DecAcceptsExactlyLegalInput : Prop :=
  ∀ (v : Variant) (s : State), DecOperandsOk v s →
    ((∃ t : State, exec (.dec v) s = .next t ∧ t.status = .holds .ok) ↔
      ∃ (data : List CodeUnit) (q : Nat), (∀ x ∈ data, isData v x) ∧
        s.inUnits = data ++ List.replicate q (zextW s.cfg.width (PAD v)) ∧
        ((q = 0 ∧ (data.length % v.family.S = 0 ∨ data.length % v.family.S ∈ v.family.tails)) ∨
          (data.length % v.family.S ∈ v.family.tails ∧ q = v.family.S - data.length % v.family.S)))

/-- The words of DEC and its two operand faults (43_bulk.md R183, 60_exceptions.md R246, R248). -/
def Obligations.DecFaultsOnLengthAndCapacity : Prop :=
  WordsOf 0x03 (wordsFor 0x03 false .dec) ∧
  ∀ (v : Variant) (s : State),
    (∀ m, s.cfg.maxLen = some m → m < s.inp.length → exec (.dec v) s = .fault .fLength) ∧
    ((∀ m, s.cfg.maxLen = some m → s.inp.length ≤ m) →
      s.outcap < ceilDiv s.inp.length v.family.S * v.family.B → exec (.dec v) s = .fault .fOutcap)

/-- 43_bulk.md R186, at the command interface: DEC of the OUT of ENC gives the bytes back, for both values of P
and every variant. MAX_LEN must also admit the encoded length, which is IN of the DEC (log entry 12). -/
def Obligations.DecOfEncIsTheInput : Prop :=
  ∀ (v : Variant) (p : Bool) (b : List Byte) (c cap capd : Nat) (s : State),
    (∀ m, s.cfg.maxLen = some m →
      (if p then ceilDiv b.length v.family.B * v.family.S else ceilDiv (8 * b.length) v.family.k) ≤ m ∧ b.length ≤ m) →
    ceilDiv b.length v.family.B * v.family.S ≤ cap → ceilDiv b.length v.family.B * v.family.B ≤ capd →
    ∃ t u : State,
      transact ⟨encode (.enc v p), units b, cap, c⟩ s = .next t ∧ t.status = .holds .ok ∧
      transact ⟨encode (.dec v), t.out, capd, c⟩ t = .next u ∧ u.status = .holds .ok ∧
      u.count = .holds b.length ∧ u.out = units b

/-! ### Streaming commands -/

/-- 44_streaming.md R210, CTXINIT: its one word, its faults, and the EMPTY context it leaves, in any state. F_LENGTH
is raised in one reading of 00_scope.md R8 and not in the other; both are stated (log entry 20). -/
def Obligations.CtxinitZeroInitialises : Prop :=
  WordsOf 0x01 [(0x0100, .ctxinit)] ∧
  ∀ s : State,
    (overLimit s → exec .ctxinit s = .fault .fLength) ∧
    (¬ overLimit s → s.inp ≠ [] → exec .ctxinit s = .fault .fOperand) ∧
    (s.inp = [] → exec .ctxinit s = .next
      { s with
        ctxs := ctxWrite s.ctxs s.ctxSel
          { pending := 0, carry := ⟨0, 0, 0, 0⟩, init := true, fin := false, bound := none }
        out := []
        status := .holds .ok
        count := .holds 0
        erroff := .unwritten })

/-- The host's records are a store: what is written under a name is read under it, every other name reads as
before, whatever the records are. -/
def Obligations.ContextStoreReadsBackWrites : Prop :=
  ∀ (cs : List (Nat × Context)) (c d : Nat) (x : Context),
    ctxRead (ctxWrite cs c x) c = x ∧ (d ≠ c → ctxRead (ctxWrite cs c x) d = ctxRead cs d)

/-- 44_streaming.md R211, CtxCheck: with every earlier check passed, SFEED and SFIN fault F_CTX_UNINIT,
F_CTX_REUSE or F_CTX_VARIANT, in that order. -/
def Obligations.StreamingChecksTheContext : Prop :=
  ∀ (v : Variant) (p : Bool) (s : State),
    (s.ctx.init = false →
      (s.tooLong = false → exec (.sfeed v) s = .fault .fCtxUninit) ∧
      (s.inp = [] → exec (.sfin v p) s = .fault .fCtxUninit)) ∧
    (s.ctx.init = true → s.ctx.fin = true →
      (s.tooLong = false → exec (.sfeed v) s = .fault .fCtxReuse) ∧
      (s.inp = [] → exec (.sfin v p) s = .fault .fCtxReuse)) ∧
    (∀ u : Variant, s.ctx.init = true → s.ctx.fin = false → s.ctx.bound = some u → u ≠ v →
      (s.tooLong = false → exec (.sfeed v) s = .fault .fCtxVariant) ∧
      (s.inp = [] → exec (.sfin v p) s = .fault .fCtxVariant))

/-- 44_streaming.md R212, SFEED on a context in EMPTY or PENDING(m) with m < B: its words, its faults (those of
the context check are R211's), the full blocks it emits, the remainder it carries, COUNT in its
width (10_state.md R31, R32), and nothing else changed. CARRY[rem..4) may be anything. What COUNT holds of a value
its width does not admit is log entry 9's choice. -/
def Obligations.SfeedEmitsFullBlocks : Prop :=
  WordsOf 0x04 (wordsFor 0x04 false .sfeed) ∧
  ∀ (v : Variant) (s : State), s.ctx.init = true → s.ctx.fin = false → (s.ctx.bound = none ∨ s.ctx.bound = some v) →
    s.ctx.pending.toNat < v.family.B →
    let buf := s.ctx.carried ++ s.inBytes
    let nfull := (s.ctx.pending.toNat + s.inp.length) / v.family.B
    let rem := (s.ctx.pending.toNat + s.inp.length) % v.family.B
    (∀ m, s.cfg.maxLen = some m → m < s.inp.length → exec (.sfeed v) s = .fault .fLength) ∧
    (s.tooLong = false → s.outcap < nfull * v.family.S → exec (.sfeed v) s = .fault .fOutcap) ∧
    (s.tooLong = false → nfull * v.family.S ≤ s.outcap →
      ∃ (x : Context) (count : Nat), x.init = true ∧ x.fin = false ∧ x.bound = some v ∧ x.pending.toNat = rem ∧
        x.carried = buf.drop (nfull * v.family.B) ∧ InReg s.cfg (nfull * v.family.S) count ∧
        exec (.sfeed v) s = .next
          { s with
            ctxs := ctxWrite s.ctxs s.ctxSel x
            out := (List.range nfull).flatMap fun i =>
              encSyms s.cfg.width v ((buf.drop (i * v.family.B)).take v.family.B)
            status := .holds .ok
            count := .holds count
            erroff := .unwritten
            draws := s.draws + 1 })

/-- 44_streaming.md R213: SFEED's corner cases. -/
def Obligations.SfeedCornerCases : Prop :=
  ∀ (v : Variant) (s t : State), s.ctx.pending.toNat < v.family.B → exec (.sfeed v) s = .next t →
    (s.inp = [] → t.out = [] ∧ t.ctx.pending = s.ctx.pending ∧ t.ctx.carried = s.ctx.carried ∧ t.ctx.bound = some v) ∧
    (s.ctx.pending.toNat + s.inp.length < v.family.B → t.out = [] ∧ t.ctx.carried = s.ctx.carried ++ s.inBytes) ∧
    t.ctx.pending.toNat < v.family.B ∧
    (v.family = .f16 → t.ctx.pending = 0 ∧ t.out.length = 2 * s.inp.length) ∧
    zextW s.cfg.width (PAD v) ∉ t.out

/-- 44_streaming.md R214, SFIN on a context in EMPTY or PENDING(m) with m < B: its words, its faults, the tail
block it flushes, COUNT in its width, and the FINALIZED context it leaves, all else unchanged. That BOUND is
set, as 10_state.md R43 says and R214 does not, is the model's reading (log entry 10); whether it raises
F_LENGTH follows the reading of 00_scope.md R8 (log entry 20); what COUNT holds of a value its width does not admit
is log entry 9's choice. -/
def Obligations.SfinFlushesTheTail : Prop :=
  WordsOf 0x05 (wordsFor 0x05 false (.sfin · false) ++ wordsFor 0x05 true (.sfin · true)) ∧
  ∀ (v : Variant) (p : Bool) (s : State), s.ctx.init = true → s.ctx.fin = false →
    (s.ctx.bound = none ∨ s.ctx.bound = some v) → s.ctx.pending.toNat < v.family.B →
    let m := s.ctx.pending.toNat
    let need := if m = 0 then 0 else if p then v.family.S else v.family.tsym m
    (overLimit s → exec (.sfin v p) s = .fault .fLength) ∧
    (¬ overLimit s → s.inp ≠ [] → exec (.sfin v p) s = .fault .fOperand) ∧
    (s.inp = [] → s.outcap < need → exec (.sfin v p) s = .fault .fOutcap) ∧
    (s.inp = [] → need ≤ s.outcap →
      ∃ count, InReg s.cfg need count ∧
        exec (.sfin v p) s = .next
          { s with
            ctxs := ctxWrite s.ctxs s.ctxSel
              { pending := 0, carry := ⟨0, 0, 0, 0⟩, init := true, fin := true, bound := some v }
            out := if m = 0 then [] else encSyms s.cfg.width v s.ctx.carried ++ pads s v p (v.family.S - v.family.tsym m)
            status := .holds .ok
            count := .holds count
            erroff := .unwritten })

/-- 10_state.md R45: the transitions of the abstract states. CTXINIT leads to EMPTY from any, an UNINIT record
whose PENDING is unspecified included; on a record within the invariant of R41, SFEED leads from EMPTY and
PENDING(n) to EMPTY or to PENDING(n') with n' < B of the stream's variant; SFIN leads to FINALIZED; from UNINIT
and FINALIZED neither completes, whatever PENDING is. -/
def Obligations.ContextStatesFollowTheirTransitions : Prop :=
  ∀ (v : Variant) (p : Bool) (s t : State),
    (exec .ctxinit s = .next t → t.ctx.abstractState = .empty) ∧
    (exec (.sfeed v) s = .next t →
      (s.ctx.abstractState = .empty ∨ ∃ n, s.ctx.abstractState = .pending n) ∧ t.ctx.bound = some v ∧
      (s.ctx.pending.toNat < v.family.B →
        t.ctx.abstractState = .empty ∨ ∃ n, 1 ≤ n ∧ n < v.family.B ∧ t.ctx.abstractState = .pending n)) ∧
    (exec (.sfin v p) s = .next t →
      (s.ctx.abstractState = .empty ∨ ∃ n, s.ctx.abstractState = .pending n) ∧ t.ctx.abstractState = .finalized)

/-- 44_streaming.md R215: CTXINIT, one SFEED per chunk and SFIN on one context give together the OUT of ENC of
the chunks joined, for every variant, padding flag, split and start state; the context ends FINALIZED. -/
def Obligations.StreamingEqualsOneShot : Prop :=
  ∀ (v : Variant) (p : Bool) (c cap : Nat) (chunks : List (List Byte)) (s : State),
    (∀ m, s.cfg.maxLen = some m → chunks.flatten.length ≤ m) →
    ceilDiv chunks.flatten.length v.family.B * v.family.S ≤ cap →
    ∃ (o : List CodeUnit) (t u : State),
      collect (streamRequests v p c chunks cap) s = .next (o, t) ∧
      collect [⟨encode (.enc v p), units chunks.flatten, cap, c⟩] s = .next (o, u) ∧
      (ctxRead t.ctxs c).abstractState = .finalized

/-! ### Errors, faults and result registers -/

/-- 60_exceptions.md R244: the checks in its order decide the fault of a well-formed command, each as R246, R247,
R248 and 44_streaming.md R211 give it, and a command that passes them all completes. 00_scope.md R8 says F_LENGTH of
any command, R244 and R248 of three; both readings are stated (log entry 20). For SFIN R244 and
44_streaming.md R214 put F_OPERAND before the context check, R211 puts the context check before every operand
check but F_LENGTH; the model follows R244 and R214 (log entry 21). -/
def Obligations.ChecksDecideTheFault : Prop :=
  ∀ (i : Instr) (s : State), i.WellFormed →
    (∀ f, exec i s = .fault f ↔ firstFault i s = some f) ∧
    (firstFault i s = none → ∃ t : State, exec i s = .next t)

/-- 60_exceptions.md R240: only DEC and the D* commands report an error, and TruncatedInput is DEC's alone. -/
def Obligations.OnlyDecodesReportErrors : Prop :=
  ∀ (i : Instr) (s t : State), exec i s = .next t → t.status ≠ .holds .ok →
    isDecode i ∧ (∃ code, t.status = .holds code) ∧ (t.status = .holds .truncatedInput → i.op = .dec)

/-- 10_state.md R30, R31, R32: a completing command writes STATUS; with OK it writes COUNT = |OUT|, in COUNT's
width, and ERROFF holds no value; otherwise ERROFF is an index into IN, in ERROFF's width, and COUNT holds no
value. What either holds of a value its width does not admit is log entry 9's choice. -/
def Obligations.ResultRegistersAfterEveryCommand : Prop :=
  ∀ (i : Instr) (s t : State), exec i s = .next t →
    (∃ count, t.status = .holds .ok ∧ t.count = .holds count ∧ InReg s.cfg t.out.length count ∧
      t.erroff = .unwritten) ∨
    (∃ (code : Status) (off erroff : Nat), code ≠ .ok ∧ t.status = .holds code ∧ t.erroff = .holds erroff ∧
      InReg s.cfg off erroff ∧ off < s.inp.length ∧ t.count = .unwritten)

/-- OUT never exceeds OUTCAP, whatever the command and however it completes (10_state.md R33; 60_exceptions.md
R246), on contexts within their invariant. -/
def Obligations.OutFitsOutcap : Prop :=
  ∀ (i : Instr) (s t : State), i.WellFormed → (i.op = .sfeed ∨ i.op = .sfin → s.ctx.pending.toNat < i.variant.family.B) →
    exec i s = .next t → t.out.length ≤ s.outcap

/-- 20_memory.md R63: an encode-direction command writes only symbols of its alphabet and pads, each with bits
W-1..8 zero; R62: a decode-direction command writes only 8-bit bytes. After an error OUT is of any values
(10_state.md R33): that they are bytes there too is the model's choice (log entry 7). -/
def Obligations.WrittenElementsHaveTheirType : Prop :=
  ∀ (i : Instr) (s t : State), exec i s = .next t → ∀ x ∈ t.out,
    x.toNat < 256 ∧
    (¬ isDecode i → x = zextW s.cfg.width (PAD i.variant) ∨
      ∃ g, g < 2 ^ i.variant.family.k ∧ x = zextW s.cfg.width (FWD i.variant g))

/-- 10_state.md R34 with 20_memory.md R60, R68: what no command changes. The frame of all 24 commands: W and
MAX_LEN, the queue, IN, OUTCAP, the context's name, the host's read data and the fault set are as before;
only CTXINIT, SFEED and SFIN change a context, and only the one they were given. -/
def Obligations.CommandsChangeOnlyTheirResults : Prop :=
  ∀ (i : Instr) (s t : State), exec i s = .next t →
    t.cfg = s.cfg ∧ t.queue = s.queue ∧ t.inp = s.inp ∧ t.outcap = s.outcap ∧ t.ctxSel = s.ctxSel ∧
    t.readData = s.readData ∧ t.faults = s.faults ∧
    (¬ isStreaming i → t.ctxs = s.ctxs) ∧
    (∀ d, d ≠ s.ctxSel → ctxRead t.ctxs d = ctxRead s.ctxs d)

/-- 10_state.md R36, R42 and 20_memory.md R68: a command's results depend on its own operands alone. In two
states with the same W, MAX_LEN, IN and OUTCAP and, for the three commands that take one, contexts equal but for
the cells at or above PENDING, the same command faults alike, or answers alike and leaves its context equal but for
those cells. -/
def Obligations.ResultsDependOnOperandsAlone : Prop :=
  ∀ (i : Instr) (s s' : State), s.cfg = s'.cfg → s.inp = s'.inp → s.outcap = s'.outcap →
    (isStreaming i → sameContext s.ctx s'.ctx) →
    (∀ f, exec i s = .fault f ↔ exec i s' = .fault f) ∧
    (∀ t, exec i s = .next t → ∃ t', exec i s' = .next t' ∧ sameAnswer t t' ∧
      (isStreaming i → sameContext t.ctx t'.ctx))

/-- 70_reset_and_hazards.md R284 and 20_memory.md R70: two commands that share no context commute. In either
order each gives the same answer, and every context ends the same but for the cells at or above PENDING. -/
def Obligations.IndependentCommandsCommute : Prop :=
  ∀ (a b : Request) (s ta tab : State), (usesContext a → usesContext b → a.ctx ≠ b.ctx) →
    transact a s = .next ta → transact b ta = .next tab →
    ∃ tb tba : State, transact b s = .next tb ∧ transact a tb = .next tba ∧
      sameAnswer tb tab ∧ sameAnswer tba ta ∧
      ∀ c, sameContext (ctxRead tab.ctxs c) (ctxRead tba.ctxs c)

/-- 60_exceptions.md R245: a faulting action writes nothing but the fault set, and the reason stays in it whatever
is presented later. The model's own: the faulting action is taken from the queue, and `advance` goes on to the
host's next action, which faults, so that no state after it is final; the spec says only that a fault ends the
run (R251; log entry 4). -/
def Obligations.FaultIsRecordedForTheWholeRun : Prop :=
  ∀ (s : State) (f : Fault), step s = .fault f →
    (advance s).queue = s.queue.tail ∧ { advance s with faults := s.faults, queue := s.queue } = s ∧
    ∀ n, f ∈ (advanceN n (advance s)).faults ∧ ¬ (advanceN n (advance s)).Final

/-- 60_exceptions.md R249: the four reads that fault F_UNWRITTEN, and the reads that are answered: STATUS with the
code of 10_state.md R30, COUNT and ERROFF in the width of R31 and R32. What these hold of a value their width does
not admit is log entry 9's choice; that a read meets the last clause after a fault that a read raised, and not a
command, is log entry 4's. -/
def Obligations.UnwrittenReadsFault : Prop :=
  (∀ (i : Instr) (s t : State) (rest : List HostAction), exec i s = .next t → t.faults = [] →
    (t.status = .holds .ok →
      step { t with queue := .read .erroff :: rest } = .fault .fUnwritten ∧
      (∃ count, InReg t.cfg t.out.length count ∧
        step { t with queue := .read .count :: rest } = .next { t with queue := rest, readData := some count }) ∧
      step { t with queue := .read .status :: rest } = .next { t with queue := rest, readData := some 0 }) ∧
    (t.status = .holds .invalidSymbol →
      step { t with queue := .read .status :: rest } = .next { t with queue := rest, readData := some 1 }) ∧
    (t.status = .holds .unexpectedPadding →
      step { t with queue := .read .status :: rest } = .next { t with queue := rest, readData := some 2 }) ∧
    (t.status = .holds .truncatedInput →
      step { t with queue := .read .status :: rest } = .next { t with queue := rest, readData := some 3 }) ∧
    (t.status ≠ .holds .ok →
      step { t with queue := .read .count :: rest } = .fault .fUnwritten ∧
      (∃ off erroff, off < s.inp.length ∧ InReg t.cfg off erroff ∧
        step { t with queue := .read .erroff :: rest } = .next { t with queue := rest, readData := some erroff }))) ∧
  (∀ (cfg : Config) (r : RegName) (rest : List HostAction),
    step { State.resetWith cfg with queue := .read r :: rest } = .fault .fUnwritten) ∧
  (∀ (s : State) (r : RegName) (rest : List HostAction), s.faults ≠ [] → s.queue = .read r :: rest →
    step s = .fault .fUnwritten)

/-! ### Reset and the invariant -/

/-- 70_reset_and_hazards.md R270: no result register holds a value after reset, under every W and MAX_LEN; every
context is UNINIT; the fault set is empty. IN, OUT, the queue and the counter of draws after reset are the
model's own (log entries 3, 5, 7) and are not stated. -/
def Obligations.ResetLeavesNothingWritten : Prop :=
  ∀ cfg : Config,
    (State.resetWith cfg).status = .unwritten ∧ (State.resetWith cfg).erroff = .unwritten ∧
    (State.resetWith cfg).count = .unwritten ∧ (State.resetWith cfg).faults = [] ∧
    ∀ c, (ctxRead (State.resetWith cfg).ctxs c).init = false ∧ (ctxRead (State.resetWith cfg).ctxs c).fin = false ∧
      (ctxRead (State.resetWith cfg).ctxs c).bound = none ∧ (ctxRead (State.resetWith cfg).ctxs c).abstractState = .uninit

/-- 70_reset_and_hazards.md R271: a block reset changes no context record, and a command after it faults,
answers and leaves every context as it would have without it, but for the cells at or above PENDING, which are
unspecified (10_state.md R42). -/
def Obligations.BlockResetKeepsStreams : Prop :=
  ∀ (s t : State) (rest : List HostAction), s.faults = [] → s.queue = .reset :: rest → step s = .next t →
    (∀ c, ctxRead t.ctxs c = ctxRead s.ctxs c) ∧
    (∀ (r : Request) (f : Fault), transact r s = .fault f ↔ transact r t = .fault f) ∧
    (∀ (r : Request) (u : State), transact r s = .next u → ∃ u', transact r t = .next u' ∧ sameAnswer u u' ∧
      ∀ c, sameContext (ctxRead u.ctxs c) (ctxRead u'.ctxs c))

/-- The invariant at reset, under every W and MAX_LEN. -/
def Obligations.InvariantAtReset : Prop := ∀ cfg : Config, (State.resetWith cfg).Inv

/-- Every step keeps the invariant, from every state that meets it: the host's records in canonical form and
each in a legal abstract state (10_state.md R41, R45, R46), the result registers coherent, COUNT and ERROFF each
what a register of its width holds (R30 to R32; log entry 9), OUT within OUTCAP, no fault recorded twice. -/
def Obligations.StepKeepsTheInvariant : Prop :=
  ∀ s t : State, s.Inv → step s = .next t → t.Inv

/-- W and MAX_LEN are fixed for the run and take no command (70_reset_and_hazards.md R272). -/
def Obligations.ConfigurationIsFixedForTheRun : Prop :=
  ∀ (n : Nat) (s t : State), SafeRun n s t → t.cfg = s.cfg
end

