-- ==== Sys2Proof/Laws/Assembler.lean ====
section
/-! SUPPORT. What the reader of command text does with each piece of a line: parts between separators, decimal
numbers, hex pairs, and the words of the two tables of names. -/

namespace Sys2Proof.Machine

/-- Whether a text with quotes open (`true`) or closed (`false`) before it meets no separator outside quotes, and
how it leaves them. -/
def quotesAfter (sep : Char) : Bool → List Char → Option Bool
  | q, [] => some q
  | q, c :: cs =>
    if c = '"' then quotesAfter sep (!q) cs else if c = sep ∧ q = false then none else quotesAfter sep q cs

/-- Quotes over two texts joined. -/
theorem quotesAfter_append (sep : Char) (q : Bool) (a b : List Char) :
    quotesAfter sep q (a ++ b) = (quotesAfter sep q a).bind fun r => quotesAfter sep r b := by
  induction a generalizing q with
  | nil => rfl
  | cons c cs ih =>
    simp only [List.cons_append, quotesAfter]
    split
    · exact ih _
    · split
      · rfl
      · exact ih _

/-- A text without a quote, and outside quotes without the separator, leaves the quotes as they are. -/
theorem quotesAfter_plain {sep : Char} {q : Bool} {a : List Char} (h : ∀ c ∈ a, c ≠ '"' ∧ (q = false → c ≠ sep)) :
    quotesAfter sep q a = some q := by
  induction a with
  | nil => rfl
  | cons c cs ih =>
    have h1 := h c (by simp)
    rw [quotesAfter, if_neg h1.1, if_neg fun e => h1.2 e.2 e.1]
    exact ih fun d hd => h d (by simp [hd])

/-- Reading on past a text that meets no separator outside quotes. -/
theorem splitOutside_append {sep : Char} {q r : Bool} {a : List Char} (h : quotesAfter sep q a = some r)
    (b acc : List Char) : splitOutside sep q acc (a ++ b) = splitOutside sep r (a.reverse ++ acc) b := by
  induction a generalizing q acc with
  | nil => cases h; rfl
  | cons c cs ih =>
    simp only [quotesAfter] at h
    simp only [List.cons_append, splitOutside]
    split
    · rw [if_pos ‹_›] at h
      rw [ih h]; simp
    · rw [if_neg ‹_›] at h
      split
      · rw [if_pos ‹_›] at h; cases h
      · rw [if_neg ‹_›] at h
        rw [ih h]; simp

/-- Parts joined by the separator are read back as the parts. -/
theorem splitOutside_parts {sep : Char} (hs : sep ≠ '"') {a : List Char} {l : List (List Char)}
    (ha : quotesAfter sep false a = some false) (hl : ∀ x ∈ l, quotesAfter sep false x = some false) (acc : List Char) :
    splitOutside sep false acc (a ++ l.flatMap (sep :: ·)) = (acc.reverse ++ a) :: l := by
  induction l generalizing a acc with
  | nil => rw [splitOutside_append ha]; simp [splitOutside]
  | cons x xs ih =>
    rw [splitOutside_append ha]
    simp only [List.flatMap_cons, List.cons_append, splitOutside, hs, if_false, and_self, if_true]
    rw [ih (hl x (by simp)) fun y hy => hl y (by simp [hy])]
    simp

/-- A text with no space at either end is trimmed to itself. -/
theorem trimSpaces_of_ends {cs : List Char} (h1 : cs.head? ≠ some ' ') (h2 : cs.getLast? ≠ some ' ') :
    trimSpaces cs = cs := by
  have drop (l : List Char) (h : l.head? ≠ some ' ') : l.dropWhile (fun c => c == ' ') = l := by
    cases l with
    | nil => rfl
    | cons c cs => rw [List.dropWhile_cons_of_neg]; simpa using h
  unfold trimSpaces
  rw [drop _ h1, drop _ (by simpa using h2), List.reverse_reverse]

/-- A leading space is trimmed. -/
@[simp] theorem trimSpaces_space (cs : List Char) : trimSpaces (' ' :: cs) = trimSpaces cs := by simp [trimSpaces]

/-- A prefix is taken off. -/
@[simp] theorem afterPrefix_append (p : String) (cs : List Char) : afterPrefix p (p.toList ++ cs) = some cs := by
  simp [afterPrefix]

/-- The decimal digits of `n`: some digits before `acc`, whose value is `n`. -/
theorem decimalDigits_spec {fuel n : Nat} (h : n < fuel) (acc : List Char) :
    ∃ l : List Char, decimalDigits fuel n acc = l ++ acc ∧ l ≠ [] ∧ (∀ c ∈ l, 0x30 ≤ c.toNat ∧ c.toNat ≤ 0x39) ∧
      l.foldl (fun a c => a * 10 + (c.toNat - 0x30)) 0 = n := by
  induction fuel generalizing n acc with
  | zero => omega
  | succ fuel ih =>
    have digit : ∀ d < 10, (Char.ofNat (0x30 + d)).toNat = 0x30 + d := by decide
    have hm := Nat.mod_lt n (show 10 > 0 by decide)
    have hd := digit _ hm
    simp only [decimalDigits]
    split
    · exact ⟨[Char.ofNat (0x30 + n % 10)], by simp, by simp, by simp; omega, by simp; omega⟩
    · obtain ⟨l, e, -, h2, h3⟩ := ih (n := n / 10) (by omega) (Char.ofNat (0x30 + n % 10) :: acc)
      refine ⟨l ++ [Char.ofNat (0x30 + n % 10)], by simp [e], by simp, ?_, ?_⟩
      · intro c hc
        rcases List.mem_append.mp hc with hc | hc
        · exact h2 c hc
        · rw [List.mem_singleton.mp hc]; omega
      · rw [List.foldl_append, h3]; simp [hd]; omega

/-- A natural written in decimal is read back, and only digits are written. -/
theorem parseNat_decimal (n : Nat) :
    parseNat (decimal n).toList = some n ∧ ∀ c ∈ (decimal n).toList, 0x30 ≤ c.toNat ∧ c.toNat ≤ 0x39 := by
  obtain ⟨l, e, h1, h2, h3⟩ := decimalDigits_spec (Nat.lt_succ_self n) []
  have e : (decimal n).toList = l := by simp [decimal, e]
  rw [e, parseNat, if_pos ⟨h1, List.all_eq_true.mpr fun c hc => decide_eq_true (h2 c hc)⟩, h3]
  exact ⟨rfl, h2⟩

/-- A hex pair is read back. -/
theorem parseHexPair_hexPair (b : Byte) : parseHexPair (hexPair b).toList = some b := by
  have key : ∀ b : Byte, parseHexPair [hexDigit (b.toNat / 16), hexDigit (b.toNat % 16)] = some b := by decide
  simpa [hexPair] using key b

/-- Quoted ASCII text without a quote of its own is read back. -/
theorem parseQuoted_quoted {cs : List Char} (h : ∀ c ∈ cs, c.toNat < 128 ∧ c ≠ '"') :
    parseQuoted ('"' :: cs ++ ['"']) = some cs := by
  simp only [List.cons_append, parseQuoted]
  rw [if_pos]
  · simp
  · simpa using h

/-- A name is found in a table of names that are all different. -/
theorem find?_name {α : Type} {f : α → List Char} {o : α} (hi : ∀ x, f x = f o → x = o) {l : List α} (hl : o ∈ l) :
    l.find? (fun x => f x == f o) = some o := by
  induction l with
  | nil => cases hl
  | cons a l ih =>
    by_cases h : a = o
    · simp [h]
    · rw [List.find?_cons_of_neg (by simpa using fun e => h (hi a e))]
      exact ih (by simpa [Ne.symm h] using hl)

end Sys2Proof.Machine
end

