-- ==== Sys2Proof/Laws/Bits.lean ====
section
/-! SUPPORT. Numbers written in base-2^k digits (00_scope.md R14), and the ceiling division of R11. -/

namespace Sys2Proof

/-- A family's block, symbol and group sizes are positive. -/
theorem Family.k_pos (f : Family) : 0 < f.k := by cases f <;> decide
theorem Family.B_pos (f : Family) : 0 < f.B := by cases f <;> decide
theorem Family.S_pos (f : Family) : 0 < f.S := by cases f <;> decide

/-- The bits of a block are the bits of a group (10_state.md R21). -/
theorem Family.block_bits (f : Family) : 8 * f.B = f.S * f.k := by cases f <;> decide

/-- No data-symbol count of a tail reaches a whole group. -/
theorem Family.tsym_lt (f : Family) (n : Nat) (h : n < f.B) : f.tsym n < f.S := by
  cases f <;> simp only [Family.tsym, ceilDiv, Family.k, Family.S, Family.B] at * <;> omega

end Sys2Proof

namespace Sys2Proof.Machine

/-- No digits: zero. -/
theorem beNat_nil (k) : beNat k [] = 0 := rfl

/-- The digits read onto what stands before them. -/
theorem beNat_foldl (k a : Nat) (xs : List Nat) :
    xs.foldl (fun a x => a * 2 ^ k + x) a = a * 2 ^ (k * xs.length) + beNat k xs := by
  induction xs generalizing a with
  | nil => simp [beNat]
  | cons x xs ih =>
    simp only [List.foldl_cons, List.length_cons, beNat]
    rw [ih, ih (0 * 2 ^ k + x)]
    ring

/-- The first digit is the most significant. -/
theorem beNat_cons (k x : Nat) (xs : List Nat) : beNat k (x :: xs) = x * 2 ^ (k * xs.length) + beNat k xs := by
  rw [beNat, List.foldl_cons, beNat_foldl]; simp

/-- The number of joined digit strings. -/
theorem beNat_append (k : Nat) (xs ys : List Nat) :
    beNat k (xs ++ ys) = beNat k xs * 2 ^ (k * ys.length) + beNat k ys := by
  rw [beNat, List.foldl_append, beNat_foldl]; rfl

/-- A number of n base-2^k digits is below 2^(k*n). -/
theorem beNat_lt (k : Nat) (xs : List Nat) (h : ∀ x ∈ xs, x < 2 ^ k) : beNat k xs < 2 ^ (k * xs.length) := by
  induction xs with
  | nil => simp [beNat]
  | cons x xs ih =>
    rw [beNat_cons]
    have h1 := ih (fun y hy => h y (by simp [hy]))
    have h2 : x + 1 ≤ 2 ^ k := h x (by simp)
    calc x * 2 ^ (k * xs.length) + beNat k xs < (x + 1) * 2 ^ (k * xs.length) := by rw [Nat.add_mul]; omega
      _ ≤ 2 ^ k * 2 ^ (k * xs.length) := Nat.mul_le_mul_right _ h2
      _ = _ := by rw [← pow_add, List.length_cons]; ring_nf

/-- Equally many digits of equal value are equal digits. -/
theorem beNat_inj (k : Nat) : ∀ (xs ys : List Nat), xs.length = ys.length → (∀ x ∈ xs, x < 2 ^ k) → (∀ y ∈ ys, y < 2 ^ k) →
    beNat k xs = beNat k ys → xs = ys
  | [], [], _, _, _, _ => rfl
  | x :: xs, y :: ys, hl, hx, hy, h => by
    have hl' : xs.length = ys.length := by simpa using hl
    rw [beNat_cons, beNat_cons, hl'] at h
    have a := beNat_lt k xs (fun z hz => hx z (by simp [hz]))
    have b := beNat_lt k ys (fun z hz => hy z (by simp [hz]))
    rw [hl'] at a
    have hp : 0 < 2 ^ (k * ys.length) := by positivity
    have e : x = y := by
      have := congrArg (· / 2 ^ (k * ys.length)) h
      simpa [Nat.mul_add_div hp, Nat.mul_comm _ (2 ^ (k * ys.length)), Nat.div_eq_of_lt a, Nat.div_eq_of_lt b] using this
    subst e
    have e2 : beNat k xs = beNat k ys := by omega
    rw [beNat_inj k xs ys hl' (fun z hz => hx z (by simp [hz])) (fun z hz => hy z (by simp [hz])) e2]

/-- The m base-2^k digits of a number below 2^(m*k), most significant first, read back to it. -/
theorem beNat_digits (k m V : Nat) (h : V < 2 ^ (m * k)) :
    beNat k ((List.range m).map fun j => V / 2 ^ ((m - j - 1) * k) % 2 ^ k) = V := by
  induction m generalizing V with
  | zero => simp at h; simp [beNat, h]
  | succ m ih =>
    rw [List.range_succ, List.map_append, beNat_append]
    have h2 : V / 2 ^ k < 2 ^ (m * k) := by
      rw [Nat.div_lt_iff_lt_mul (by positivity), ← pow_add]; convert h using 2; ring
    have e : (List.range m).map (fun j => V / 2 ^ ((m + 1 - j - 1) * k) % 2 ^ k) =
        (List.range m).map (fun j => (V / 2 ^ k) / 2 ^ ((m - j - 1) * k) % 2 ^ k) := by
      apply List.map_congr_left
      intro j hj
      have : j < m := by simpa using hj
      rw [Nat.div_div_eq_div_mul, ← pow_add]
      congr 3
      obtain ⟨d, rfl⟩ := Nat.exists_eq_add_of_lt this
      have : j + d + 1 + 1 - j - 1 = d + 1 := by omega
      have h' : j + d + 1 - j - 1 = d := by omega
      rw [this, h']; ring
    rw [e, ih _ h2]
    simp [beNat, Nat.div_add_mod']

/-- Whole multiples come out of a ceiling division. -/
theorem ceilDiv_add_mul (a q k : Nat) (hk : 0 < k) : ceilDiv (q * k + a) k = q + ceilDiv a k := by
  unfold ceilDiv
  rw [show q * k + a + k - 1 = (a + k - 1) + q * k by omega, Nat.add_mul_div_right _ _ hk]; omega

/-- How many groups `pack` makes. -/
@[simp] theorem pack_length (b : List Byte) (k : Nat) : (pack b k).length = ceilDiv (8 * b.length) k := by simp [pack]

/-- How many bytes `unpack` makes. -/
@[simp] theorem unpack_length (x : List Nat) (k : Nat) : (unpack x k).length = x.length * k / 8 := by simp [unpack]

/-- How many symbols `EncSyms` makes (10_state.md R21, tsym). -/
@[simp] theorem encSyms_length (w : Width) (v : Variant) (b : List Byte) :
    (encSyms w v b).length = v.family.tsym b.length := by simp [encSyms, Family.tsym]

/-- How many bytes a group of data symbols gives (10_state.md R21, tbytes). -/
@[simp] theorem decSyms_length (v : Variant) (c : List CodeUnit) : (decSyms v c).length = v.family.tbytes c.length := by
  simp [decSyms, dataValues, Family.tbytes]

/-- How many symbols a tail block gives, with its pads or without (41_block_encode.md R100). -/
theorem encTail_length (w : Width) (v : Variant) (b : List Byte) (p : Bool) (h : b.length < v.family.B) :
    (encTail w v b p).length = if b.length = 0 then 0 else if p then v.family.S else v.family.tsym b.length := by
  have := v.family.tsym_lt _ h
  unfold encTail
  split
  · rfl
  · cases p <;> simp; omega

end Sys2Proof.Machine
end

