-- ==== Sys2Proof/Laws/Context.lean ====
section
/-! SUPPORT. The host's context records: the canonical form is kept, and what a carry holds. -/

namespace Sys2Proof.Machine

/-- The names of a written store are the names before and the one written. -/
theorem mem_ctxWrite {cs : List (Nat × Context)} {c : Nat} {x : Context} {e : Nat × Context}
    (h : e ∈ ctxWrite cs c x) : e = (c, x) ∨ e ∈ cs := by
  induction cs with
  | nil => exact .inl (by simpa [ctxWrite] using h)
  | cons a t ih =>
    obtain ⟨k, y⟩ := a
    simp only [ctxWrite] at h
    split at h
    · rcases List.mem_cons.mp h with h | h
      · exact .inl h
      · exact .inr h
    · split at h
      · rcases List.mem_cons.mp h with h | h
        · exact .inl h
        · exact .inr (by simp [h])
      · rcases List.mem_cons.mp h with h | h
        · exact .inr (by simp [h])
        · rcases ih h with h | h
          · exact .inl h
          · exact .inr (by simp [h])

/-- Writing an initialised record keeps the canonical form of the host's records. -/
theorem ctxWrite_wf (cs : List (Nat × Context)) (c : Nat) (x : Context) (h : ctxsWf cs = true) (hx : x.init = true) :
    ctxsWf (ctxWrite cs c x) = true := by
  induction cs with
  | nil => simp [ctxWrite, ctxsWf, hx]
  | cons a t ih =>
    obtain ⟨k, y⟩ := a
    simp only [ctxsWf, Bool.and_eq_true, List.all_eq_true, decide_eq_true_eq] at h
    obtain ⟨⟨hy, hk⟩, ht⟩ := h
    simp only [ctxWrite]
    split
    · rename_i hc
      simp only [ctxsWf, Bool.and_eq_true, List.all_eq_true, decide_eq_true_eq]
      refine ⟨⟨hx, fun e he => ?_⟩, ⟨hy, hk⟩, ht⟩
      rcases List.mem_cons.mp he with rfl | he
      · exact hc
      · exact Nat.lt_trans hc (hk e he)
    · split
      · rename_i hc
        subst hc
        simp only [ctxsWf, Bool.and_eq_true, List.all_eq_true, decide_eq_true_eq]
        exact ⟨⟨hx, hk⟩, ht⟩
      · simp only [ctxsWf, Bool.and_eq_true, List.all_eq_true, decide_eq_true_eq]
        refine ⟨⟨hy, fun e he => ?_⟩, ih ht⟩
        rcases mem_ctxWrite he with rfl | he
        · simp only; omega
        · exact hk e he

/-- The store after reset is in canonical form. -/
theorem reset_ctxsWf : ctxsWf State.reset.ctxs = true := rfl

/-- A name that reads as an initialised record is listed. -/
theorem ctxRead_listed {cs : List (Nat × Context)} {c : Nat} (h : (ctxRead cs c).init = true) :
    (c, ctxRead cs c) ∈ cs := by
  induction cs with
  | nil => simp [ctxRead, freshContext] at h
  | cons a t ih =>
    obtain ⟨k, y⟩ := a
    simp only [ctxRead] at h ⊢
    split
    · rename_i hc; subst hc; simp
    · rename_i hc
      rw [if_neg hc] at h
      simp [ih h]

/-- Bytes laid into the carry cells are read back, whatever the cells above them hold. -/
theorem carryOf_take (b : List Byte) (f : Nat → Byte) (h : b.length ≤ 4) : (carryOf b f).toList.take b.length = b := by
  match b, h with
  | [], _ | [_], _ | [_, _], _ | [_, _, _], _ | [_, _, _, _], _ => rfl

/-- How many bytes a context carries: PENDING, as far as there are cells. -/
theorem carried_length (x : Context) : x.carried.length = min x.pending.toNat 4 := by
  simp [Context.carried, Carry.toList]

/-- A context that passes CtxCheck (44_streaming.md R211). -/
theorem ctxCheck_eq_none (x : Context) (v : Variant) :
    ctxCheck x v = none ↔ x.init = true ∧ x.fin = false ∧ (x.bound = none ∨ x.bound = some v) := by
  unfold ctxCheck
  cases hi : x.init <;> cases hf : x.fin <;> simp [or_iff_not_imp_left]

/-- What SFEED leaves uncarried into a block is less than a block, and fits the carry cells, from every
PENDING below the block size (10_state.md R41). -/
theorem feed_rem_length (x : Context) (f : Family) (b : List Byte) (h : x.pending.toNat < f.B) :
    ((x.carried ++ b).drop ((x.pending.toNat + b.length) / f.B * f.B)).length = (x.pending.toNat + b.length) % f.B ∧
      (x.pending.toNat + b.length) % f.B ≤ 4 := by
  have hb : f.B ≤ 5 := by cases f <;> decide
  have hl := carried_length x
  have hm := Nat.mod_lt (x.pending.toNat + b.length) (show 0 < f.B by cases f <;> decide)
  have hd := Nat.div_add_mod' (x.pending.toNat + b.length) f.B
  rw [List.length_drop, List.length_append, hl, Nat.min_eq_left (by omega)]
  omega

end Sys2Proof.Machine
end

