-- ==== Sys2Proof/Laws/Registers.lean ====
section
/-! SUPPORT. What ERROFF and COUNT hold after a write: the value itself, or some value of their width. -/

namespace Sys2Proof.Machine

variable {c : Config} {n m : Nat}

/-- With MAX_LEN infinite a register holds what was written (10_state.md R31). -/
theorem regHold_unbounded (h : c.maxLen = none) : regHold c n = n := by simp [regHold, regBits, h]

/-- With MAX_LEN finite a register holds a value of its width (R31). -/
theorem regHold_lt (h : c.maxLen = some m) : regHold c n < 2 ^ Nat.clog 2 (m + 1) := by
  simp only [regHold, regBits, h, Option.map_some]
  split
  · assumption
  · exact Nat.mod_lt _ (Nat.two_pow_pos _)

/-- A value of the register's width is held as it is (R31). -/
theorem regHold_fits (h : c.maxLen = some m) (hn : n < 2 ^ Nat.clog 2 (m + 1)) : regHold c n = n := by
  simp [regHold, regBits, h, hn]

/-- The register has room for every value up to MAX_LEN. -/
theorem lt_two_pow_clog (h : n ≤ m) : n < 2 ^ Nat.clog 2 (m + 1) :=
  Nat.lt_of_lt_of_le (Nat.lt_succ_of_le h) (Nat.le_pow_clog (by decide) _)

/-- What is at most MAX_LEN is held as it is: the index of an error of DEC, whose |IN| MAX_LEN admits. -/
theorem regHold_of_le (h : ∀ m, c.maxLen = some m → n ≤ m) : regHold c n = n := by
  cases hm : c.maxLen with
  | none => exact regHold_unbounded hm
  | some m => exact regHold_fits hm (lt_two_pow_clog (h m hm))

/-- Zero is held as it is, under every MAX_LEN. -/
@[simp] theorem regHold_zero : regHold c 0 = 0 := regHold_of_le fun _ _ => Nat.zero_le _

end Sys2Proof.Machine
end

