-- ==== Sys2Proof/Laws/State.lean ====
section
/-! SUPPORT. One lemma per field of State and update of it, and what recording a fault does. -/

namespace Sys2Proof.Machine

variable (s : State)

/-! ### latch: taking a transaction's operands -/

@[simp] theorem State.latch_cfg (r : Request) : (s.latch r).cfg = s.cfg := rfl
@[simp] theorem State.latch_queue (r : Request) : (s.latch r).queue = s.queue := rfl
@[simp] theorem State.latch_inp (r : Request) : (s.latch r).inp = r.inp := rfl
@[simp] theorem State.latch_outcap (r : Request) : (s.latch r).outcap = r.outcap := rfl
@[simp] theorem State.latch_ctxSel (r : Request) : (s.latch r).ctxSel = r.ctx := rfl
@[simp] theorem State.latch_out (r : Request) : (s.latch r).out = [] := rfl
@[simp] theorem State.latch_status (r : Request) : (s.latch r).status = s.status := rfl
@[simp] theorem State.latch_erroff (r : Request) : (s.latch r).erroff = s.erroff := rfl
@[simp] theorem State.latch_count (r : Request) : (s.latch r).count = s.count := rfl
@[simp] theorem State.latch_ctxs (r : Request) : (s.latch r).ctxs = s.ctxs := rfl
@[simp] theorem State.latch_readData (r : Request) : (s.latch r).readData = s.readData := rfl
@[simp] theorem State.latch_faults (r : Request) : (s.latch r).faults = s.faults := rfl
@[simp] theorem State.latch_draws (r : Request) : (s.latch r).draws = s.draws := rfl

/-! ### setCtx: writing back the context -/

@[simp] theorem State.setCtx_cfg (x : Context) : (s.setCtx x).cfg = s.cfg := rfl
@[simp] theorem State.setCtx_queue (x : Context) : (s.setCtx x).queue = s.queue := rfl
@[simp] theorem State.setCtx_inp (x : Context) : (s.setCtx x).inp = s.inp := rfl
@[simp] theorem State.setCtx_outcap (x : Context) : (s.setCtx x).outcap = s.outcap := rfl
@[simp] theorem State.setCtx_ctxSel (x : Context) : (s.setCtx x).ctxSel = s.ctxSel := rfl
@[simp] theorem State.setCtx_out (x : Context) : (s.setCtx x).out = s.out := rfl
@[simp] theorem State.setCtx_status (x : Context) : (s.setCtx x).status = s.status := rfl
@[simp] theorem State.setCtx_erroff (x : Context) : (s.setCtx x).erroff = s.erroff := rfl
@[simp] theorem State.setCtx_count (x : Context) : (s.setCtx x).count = s.count := rfl
@[simp] theorem State.setCtx_ctxs (x : Context) : (s.setCtx x).ctxs = ctxWrite s.ctxs s.ctxSel x := rfl
@[simp] theorem State.setCtx_readData (x : Context) : (s.setCtx x).readData = s.readData := rfl
@[simp] theorem State.setCtx_faults (x : Context) : (s.setCtx x).faults = s.faults := rfl
@[simp] theorem State.setCtx_draws (x : Context) : (s.setCtx x).draws = s.draws := rfl

/-! ### drawn: counting a free value -/

@[simp] theorem State.drawn_cfg : (s.drawn).cfg = s.cfg := rfl
@[simp] theorem State.drawn_queue : (s.drawn).queue = s.queue := rfl
@[simp] theorem State.drawn_inp : (s.drawn).inp = s.inp := rfl
@[simp] theorem State.drawn_outcap : (s.drawn).outcap = s.outcap := rfl
@[simp] theorem State.drawn_ctxSel : (s.drawn).ctxSel = s.ctxSel := rfl
@[simp] theorem State.drawn_out : (s.drawn).out = s.out := rfl
@[simp] theorem State.drawn_status : (s.drawn).status = s.status := rfl
@[simp] theorem State.drawn_erroff : (s.drawn).erroff = s.erroff := rfl
@[simp] theorem State.drawn_count : (s.drawn).count = s.count := rfl
@[simp] theorem State.drawn_ctxs : (s.drawn).ctxs = s.ctxs := rfl
@[simp] theorem State.drawn_readData : (s.drawn).readData = s.readData := rfl
@[simp] theorem State.drawn_faults : (s.drawn).faults = s.faults := rfl
@[simp] theorem State.drawn_draws : (s.drawn).draws = s.draws + 1 := rfl

/-! ### completeOk: completing with STATUS = OK -/

@[simp] theorem State.completeOk_cfg (o : List CodeUnit) : (s.completeOk o).cfg = s.cfg := rfl
@[simp] theorem State.completeOk_queue (o : List CodeUnit) : (s.completeOk o).queue = s.queue := rfl
@[simp] theorem State.completeOk_inp (o : List CodeUnit) : (s.completeOk o).inp = s.inp := rfl
@[simp] theorem State.completeOk_outcap (o : List CodeUnit) : (s.completeOk o).outcap = s.outcap := rfl
@[simp] theorem State.completeOk_ctxSel (o : List CodeUnit) : (s.completeOk o).ctxSel = s.ctxSel := rfl
@[simp] theorem State.completeOk_out (o : List CodeUnit) : (s.completeOk o).out = o := rfl
@[simp] theorem State.completeOk_status (o : List CodeUnit) : (s.completeOk o).status = .holds .ok := rfl
@[simp] theorem State.completeOk_erroff (o : List CodeUnit) : (s.completeOk o).erroff = .unwritten := rfl
@[simp] theorem State.completeOk_count (o : List CodeUnit) : (s.completeOk o).count = .holds (regHold s.cfg o.length) := rfl
@[simp] theorem State.completeOk_ctxs (o : List CodeUnit) : (s.completeOk o).ctxs = s.ctxs := rfl
@[simp] theorem State.completeOk_readData (o : List CodeUnit) : (s.completeOk o).readData = s.readData := rfl
@[simp] theorem State.completeOk_faults (o : List CodeUnit) : (s.completeOk o).faults = s.faults := rfl
@[simp] theorem State.completeOk_draws (o : List CodeUnit) : (s.completeOk o).draws = s.draws := rfl

/-! ### raiseErr: raising an architected error -/

@[simp] theorem State.raiseErr_cfg (e : Status) (off : Nat) : (s.raiseErr e off).cfg = s.cfg := rfl
@[simp] theorem State.raiseErr_queue (e : Status) (off : Nat) : (s.raiseErr e off).queue = s.queue := rfl
@[simp] theorem State.raiseErr_inp (e : Status) (off : Nat) : (s.raiseErr e off).inp = s.inp := rfl
@[simp] theorem State.raiseErr_outcap (e : Status) (off : Nat) : (s.raiseErr e off).outcap = s.outcap := rfl
@[simp] theorem State.raiseErr_ctxSel (e : Status) (off : Nat) : (s.raiseErr e off).ctxSel = s.ctxSel := rfl
@[simp] theorem State.raiseErr_out (e : Status) (off : Nat) : (s.raiseErr e off).out = byteUnits ((Config.freeOut s.draws).take s.outcap) := rfl
@[simp] theorem State.raiseErr_status (e : Status) (off : Nat) : (s.raiseErr e off).status = .holds e := rfl
@[simp] theorem State.raiseErr_erroff (e : Status) (off : Nat) : (s.raiseErr e off).erroff = .holds (regHold s.cfg off) := rfl
@[simp] theorem State.raiseErr_count (e : Status) (off : Nat) : (s.raiseErr e off).count = .unwritten := rfl
@[simp] theorem State.raiseErr_ctxs (e : Status) (off : Nat) : (s.raiseErr e off).ctxs = s.ctxs := rfl
@[simp] theorem State.raiseErr_readData (e : Status) (off : Nat) : (s.raiseErr e off).readData = s.readData := rfl
@[simp] theorem State.raiseErr_faults (e : Status) (off : Nat) : (s.raiseErr e off).faults = s.faults := rfl
@[simp] theorem State.raiseErr_draws (e : Status) (off : Nat) : (s.raiseErr e off).draws = s.draws + 1 := rfl

/-! ### blockReset: a block reset -/

@[simp] theorem State.blockReset_cfg : (s.blockReset).cfg = s.cfg := rfl
@[simp] theorem State.blockReset_queue : (s.blockReset).queue = s.queue := rfl
@[simp] theorem State.blockReset_inp : (s.blockReset).inp = s.inp := rfl
@[simp] theorem State.blockReset_outcap : (s.blockReset).outcap = s.outcap := rfl
@[simp] theorem State.blockReset_ctxSel : (s.blockReset).ctxSel = s.ctxSel := rfl
@[simp] theorem State.blockReset_out : (s.blockReset).out = s.out := rfl
@[simp] theorem State.blockReset_status : (s.blockReset).status = .unwritten := rfl
@[simp] theorem State.blockReset_erroff : (s.blockReset).erroff = .unwritten := rfl
@[simp] theorem State.blockReset_count : (s.blockReset).count = .unwritten := rfl
@[simp] theorem State.blockReset_ctxs : (s.blockReset).ctxs = s.ctxs := rfl
@[simp] theorem State.blockReset_readData : (s.blockReset).readData = s.readData := rfl
@[simp] theorem State.blockReset_faults : (s.blockReset).faults = [] := rfl
@[simp] theorem State.blockReset_draws : (s.blockReset).draws = s.draws := rfl

/-! ### recordFault: a fault's reason enters the fault set -/

@[simp] theorem State.recordFault_cfg (r : Fault) : (s.recordFault r).cfg = s.cfg := by
  unfold State.recordFault; split <;> rfl
@[simp] theorem State.recordFault_queue (r : Fault) : (s.recordFault r).queue = s.queue := by
  unfold State.recordFault; split <;> rfl
@[simp] theorem State.recordFault_inp (r : Fault) : (s.recordFault r).inp = s.inp := by
  unfold State.recordFault; split <;> rfl
@[simp] theorem State.recordFault_outcap (r : Fault) : (s.recordFault r).outcap = s.outcap := by
  unfold State.recordFault; split <;> rfl
@[simp] theorem State.recordFault_ctxSel (r : Fault) : (s.recordFault r).ctxSel = s.ctxSel := by
  unfold State.recordFault; split <;> rfl
@[simp] theorem State.recordFault_out (r : Fault) : (s.recordFault r).out = s.out := by
  unfold State.recordFault; split <;> rfl
@[simp] theorem State.recordFault_status (r : Fault) : (s.recordFault r).status = s.status := by
  unfold State.recordFault; split <;> rfl
@[simp] theorem State.recordFault_erroff (r : Fault) : (s.recordFault r).erroff = s.erroff := by
  unfold State.recordFault; split <;> rfl
@[simp] theorem State.recordFault_count (r : Fault) : (s.recordFault r).count = s.count := by
  unfold State.recordFault; split <;> rfl
@[simp] theorem State.recordFault_ctxs (r : Fault) : (s.recordFault r).ctxs = s.ctxs := by
  unfold State.recordFault; split <;> rfl
@[simp] theorem State.recordFault_readData (r : Fault) : (s.recordFault r).readData = s.readData := by
  unfold State.recordFault; split <;> rfl
@[simp] theorem State.recordFault_draws (r : Fault) : (s.recordFault r).draws = s.draws := by
  unfold State.recordFault; split <;> rfl

/-- The fault set after recording `r`: the set before, and `r`. -/
theorem State.mem_recordFault (r f : Fault) : f ∈ (s.recordFault r).faults ↔ f ∈ s.faults ∨ f = r := by
  unfold State.recordFault
  split
  · constructor
    · exact .inl
    · rintro (h | rfl) <;> assumption
  · simp

/-- Recording a fault writes nothing but the fault set (60_exceptions.md R245). -/
theorem State.recordFault_elsewhere (r : Fault) : { s.recordFault r with faults := s.faults } = s := by
  unfold State.recordFault
  split <;> rfl

/-- The fault set stays without repeats. -/
theorem State.recordFault_nodup (r : Fault) (h : s.faults.Nodup) : (s.recordFault r).faults.Nodup := by
  unfold State.recordFault
  split
  · exact h
  · rename_i hr
    simp only [List.nodup_append, h, List.nodup_cons, List.not_mem_nil, not_false_eq_true, List.nodup_nil, and_self,
      true_and]
    intro a ha b hb
    rw [List.mem_singleton.mp hb]
    exact fun e => hr (e ▸ ha)

end Sys2Proof.Machine
end

