-- ==== Sys2Proof/Laws/Commands.lean ====
section
/-! SUPPORT. For each shared operation and each meaning, the one lemma that says when it answers a next state,
and which. -/

namespace Sys2Proof.Machine

variable {s t : State} {v : Variant} {p : Bool}

/-- No input is too long exactly when MAX_LEN, if finite, admits it (60_exceptions.md R248). -/
theorem State.tooLong_eq_false : s.tooLong = false ↔ ∀ m, s.cfg.maxLen = some m → s.inp.length ≤ m := by
  unfold State.tooLong
  cases s.cfg.maxLen <;> simp

/-- A command of fixed length passes the length check exactly when MAX_LEN admits IN or it does not check it
(00_scope.md R8, 60_exceptions.md R248). -/
theorem State.fixedTooLong_eq_false :
    s.fixedTooLong = false ↔ (s.cfg.lengthRule = .everyCommand → ∀ m, s.cfg.maxLen = some m → s.inp.length ≤ m) := by
  unfold State.fixedTooLong
  cases s.cfg.lengthRule <;> simp [State.tooLong_eq_false]

/-- An empty IN passes the length check. -/
theorem State.fixedTooLong_of_nil (h : s.inp = []) : s.fixedTooLong = false :=
  State.fixedTooLong_eq_false.mpr fun _ _ _ => by simp [h]

/-- IN on byte lanes has the length of IN. -/
@[simp] theorem State.inBytes_length : s.inBytes.length = s.inp.length := by simp [State.inBytes]

/-- IN on code-unit lanes has the length of IN. -/
@[simp] theorem State.inUnits_length : s.inUnits.length = s.inp.length := by simp [State.inUnits]

/-- What an E* command answers (41_block_encode.md R100). -/
theorem encCommon_next {n need : Nat} {body : List Byte → List CodeUnit} :
    encCommon n need body s = .next t ↔
      s.fixedTooLong = false ∧ s.inp.length = n ∧ need ≤ s.outcap ∧ t = s.completeOk (body s.inBytes) := by
  unfold encCommon
  cases s.fixedTooLong
  · simp only [Bool.false_eq_true, if_false, true_and]
    split
    · simp [*]
    · split
      · simp; omega
      · rename_i h1 h2
        simp [not_not.mp h1, Nat.le_of_not_lt h2, eq_comm (a := t)]
  · simp

/-- What a D* command answers (42_block_decode.md R140). -/
theorem decCommon_next {r : Nat} :
    decCommon v r s = .next t ↔
      s.fixedTooLong = false ∧ s.inp.length = r ∧ v.family.tbytes r ≤ s.outcap ∧
        ((blockError s.cfg.width v s.inUnits = none ∧ t = s.completeOk (byteUnits (decSyms v s.inUnits))) ∨
          ∃ e off, blockError s.cfg.width v s.inUnits = some (e, off) ∧ t = s.raiseErr e off) := by
  unfold decCommon
  cases s.fixedTooLong
  · simp only [Bool.false_eq_true, if_false, true_and]
    split
    · simp [*]
    · split
      · simp; omega
      · rename_i h1 h2
        rcases h : blockError s.cfg.width v s.inUnits with _ | ⟨e, off⟩ <;>
          simp [not_not.mp h1, Nat.le_of_not_lt h2, eq_comm (a := t)]
  · simp

/-- A D* command's error is one of two, at an index of IN. -/
theorem blockError_some {w : Width} {c : List CodeUnit} {e : Status} {i : Nat} (h : blockError w v c = some (e, i)) :
    (e = .unexpectedPadding ∨ e = .invalidSymbol) ∧ i < c.length := by
  unfold blockError at h
  split at h
  · cases h
  · rename_i j hj
    have hlt := (List.findIdx?_eq_some_iff_findIdx_eq.mp hj).1
    split at h <;> simp only [Option.some.injEq, Prod.mk.injEq] at h <;> obtain ⟨rfl, rfl⟩ := h
    · exact ⟨.inl rfl, hlt⟩
    · exact ⟨.inr rfl, hlt⟩

/-- DEC's errors after the first pad are at an index of IN. -/
theorem paddingError_some {w : Width} {c : List CodeUnit} {q r : Nat} {e : Status} {i : Nat} (hq : q < c.length)
    (h : paddingError w v c q r = some (e, i)) : e ≠ .ok ∧ i < c.length := by
  unfold paddingError at h
  simp only at h
  split at h
  · cases h; exact ⟨by decide, hq⟩
  · split at h
    · rename_i j hj
      have hlt := (List.findIdx?_eq_some_iff_findIdx_eq.mp hj).1
      rw [List.length_drop] at hlt
      split at h <;> cases h <;> exact ⟨by decide, by omega⟩
    · split at h
      · cases h; exact ⟨by decide, by omega⟩
      · split at h
        · cases h; exact ⟨by decide, by omega⟩
        · cases h

/-- DEC's errors are at an index of IN (60_exceptions.md R242). -/
theorem bulkError_some {w : Width} {c : List CodeUnit} {e : Status} {i : Nat} (h : bulkError w v c = some (e, i)) :
    e ≠ .ok ∧ i < c.length := by
  unfold bulkError at h
  have hp : firstPad w v c ≤ c.length := List.findIdx_le_length
  simp only at h
  split at h
  · rename_i j hj
    have hlt := (List.findIdx?_eq_some_iff_findIdx_eq.mp hj).1
    rw [List.length_take] at hlt
    cases h
    exact ⟨by decide, by omega⟩
  · split at h
    · rename_i hlt
      exact paddingError_some hlt h
    · split at h
      · rename_i hr
        cases h
        have := Nat.mod_le (firstPad w v c) v.family.S
        exact ⟨by decide, by omega⟩
      · cases h

/-- What ENC answers (43_bulk.md R180). -/
theorem execEnc_next :
    execEnc v p s = .next t ↔
      s.tooLong = false ∧ ceilDiv s.inp.length v.family.B * v.family.S ≤ s.outcap ∧
        t = s.completeOk (encAll s.cfg.width v p s.inBytes) := by
  unfold execEnc
  cases s.tooLong
  · simp only [Bool.false_eq_true, if_false, true_and]
    split
    · simp; omega
    · rename_i h1
      simp [Nat.le_of_not_lt h1, eq_comm (a := t)]
  · simp

/-- What DEC answers (43_bulk.md R183). -/
theorem execDec_next :
    execDec v s = .next t ↔
      s.tooLong = false ∧ ceilDiv s.inp.length v.family.S * v.family.B ≤ s.outcap ∧
        ((bulkError s.cfg.width v s.inUnits = none ∧
            t = s.completeOk (byteUnits (decGroups v (s.inUnits.take (firstPad s.cfg.width v s.inUnits))))) ∨
          ∃ e off, bulkError s.cfg.width v s.inUnits = some (e, off) ∧ t = s.raiseErr e off) := by
  unfold execDec
  cases s.tooLong
  · simp only [Bool.false_eq_true, if_false, true_and]
    split
    · simp; omega
    · rename_i h1
      rcases h : bulkError s.cfg.width v s.inUnits with _ | ⟨e, off⟩ <;>
        simp [Nat.le_of_not_lt h1, eq_comm (a := t)]
  · simp

/-- What CTXINIT answers (44_streaming.md R210). -/
theorem execCtxinit_next :
    execCtxinit s = .next t ↔ s.inp = [] ∧ t = (s.setCtx emptyContext).completeOk [] := by
  unfold execCtxinit
  by_cases h : s.inp = []
  · simp [h, State.fixedTooLong_of_nil h, eq_comm (a := t)]
  · cases s.fixedTooLong <;> simp [h]

/-- What SFEED answers (44_streaming.md R212). -/
theorem execSfeed_next :
    execSfeed v s = .next t ↔
      s.tooLong = false ∧ ctxCheck s.ctx v = none ∧
        (s.ctx.pending.toNat + s.inp.length) / v.family.B * v.family.S ≤ s.outcap ∧
        t = ((s.setCtx (feedContext s v ((s.ctx.carried ++ s.inBytes).drop
              ((s.ctx.pending.toNat + s.inp.length) / v.family.B * v.family.B)))).drawn).completeOk
            (encBlocks s.cfg.width v ((s.ctx.pending.toNat + s.inp.length) / v.family.B)
              (s.ctx.carried ++ s.inBytes)) := by
  unfold execSfeed
  cases s.tooLong
  · simp only [Bool.false_eq_true, if_false, true_and]
    cases h : ctxCheck s.ctx v
    · simp only [true_and]
      split
      · simp; omega
      · rename_i h1
        simp [Nat.le_of_not_lt h1, eq_comm (a := t)]
    · simp
  · simp

/-- What SFIN answers (44_streaming.md R214). -/
theorem execSfin_next :
    execSfin v p s = .next t ↔
      s.inp = [] ∧ ctxCheck s.ctx v = none ∧ sfinNeed v p s.ctx.pending.toNat ≤ s.outcap ∧
        t = (s.setCtx (finalContext s.ctx v)).completeOk (encTail s.cfg.width v s.ctx.carried p) := by
  unfold execSfin
  by_cases h : s.inp = []
  · simp only [h, State.fixedTooLong_of_nil h, Bool.false_eq_true, if_false, List.length_nil, ne_eq, not_true_eq_false,
      true_and]
    cases hc : ctxCheck s.ctx v
    · simp only [true_and]
      split
      · simp; omega
      · rename_i h1
        simp [Nat.le_of_not_lt h1, eq_comm (a := t)]
    · simp
  · cases s.fixedTooLong <;> simp [h]

/-- What a read of a result register answers (60_exceptions.md R249). -/
theorem readReg_next {r : RegName} :
    readReg r s = .next t ↔ ∃ x, s.regValue r = .holds x ∧ t = { s with readData := some x } := by
  unfold readReg
  rcases h : s.regValue r with _ | x
  · simp
  · simp [eq_comm (a := t)]

end Sys2Proof.Machine
end

