-- ==== Sys2Proof/Laws/PerInstr.lean ====
section
/-! SUPPORT. Laws stated of every instruction as syntax, one lemma per constructor. -/

namespace Sys2Proof.Laws.WordFormat

/-- The word of an instruction is in the one format of 30_encoding.md R81: OP, P, RZ = 0 and VAR are the
instruction's own, and P = 1 stands only where the operation takes it (R83). -/
def Statement (i : Instr) : Prop :=
  fieldOP (encode i) = i.op.code ∧ fieldP (encode i) = i.pad ∧ fieldRZ (encode i) = 0 ∧
    fieldVAR (encode i) = i.variant.code ∧ (i.pad = true → i.op.takesPad = true)

theorem ctxinit : Statement .ctxinit := by unfold Statement; decide

theorem enc (v : Variant) (p : Bool) : Statement (.enc v p) := by cases v <;> cases p <;> unfold Statement <;> decide

theorem dec (v : Variant) : Statement (.dec v) := by cases v <;> unfold Statement <;> decide

theorem sfeed (v : Variant) : Statement (.sfeed v) := by cases v <;> unfold Statement <;> decide

theorem sfin (v : Variant) (p : Bool) : Statement (.sfin v p) := by cases v <;> cases p <;> unfold Statement <;> decide

theorem e64t1 (v : Variant) (p : Bool) : Statement (.e64t1 v p) := by cases v <;> cases p <;> unfold Statement <;> decide

theorem e64t2 (v : Variant) (p : Bool) : Statement (.e64t2 v p) := by cases v <;> cases p <;> unfold Statement <;> decide

theorem e64b3 (v : Variant) : Statement (.e64b3 v) := by cases v <;> unfold Statement <;> decide

theorem e64b6 (v : Variant) : Statement (.e64b6 v) := by cases v <;> unfold Statement <;> decide

theorem e32t1 (v : Variant) (p : Bool) : Statement (.e32t1 v p) := by cases v <;> cases p <;> unfold Statement <;> decide

theorem e32t2 (v : Variant) (p : Bool) : Statement (.e32t2 v p) := by cases v <;> cases p <;> unfold Statement <;> decide

theorem e32t3 (v : Variant) (p : Bool) : Statement (.e32t3 v p) := by cases v <;> cases p <;> unfold Statement <;> decide

theorem e32t4 (v : Variant) (p : Bool) : Statement (.e32t4 v p) := by cases v <;> cases p <;> unfold Statement <;> decide

theorem e32b5 (v : Variant) : Statement (.e32b5 v) := by cases v <;> unfold Statement <;> decide

theorem e16b1 (v : Variant) : Statement (.e16b1 v) := by cases v <;> unfold Statement <;> decide

theorem d64t2 (v : Variant) : Statement (.d64t2 v) := by cases v <;> unfold Statement <;> decide

theorem d64t3 (v : Variant) : Statement (.d64t3 v) := by cases v <;> unfold Statement <;> decide

theorem d64b4 (v : Variant) : Statement (.d64b4 v) := by cases v <;> unfold Statement <;> decide

theorem d32t2 (v : Variant) : Statement (.d32t2 v) := by cases v <;> unfold Statement <;> decide

theorem d32t4 (v : Variant) : Statement (.d32t4 v) := by cases v <;> unfold Statement <;> decide

theorem d32t5 (v : Variant) : Statement (.d32t5 v) := by cases v <;> unfold Statement <;> decide

theorem d32t7 (v : Variant) : Statement (.d32t7 v) := by cases v <;> unfold Statement <;> decide

theorem d32b8 (v : Variant) : Statement (.d32b8 v) := by cases v <;> unfold Statement <;> decide

theorem d16b2 (v : Variant) : Statement (.d16b2 v) := by cases v <;> unfold Statement <;> decide

end Sys2Proof.Laws.WordFormat
end

