-- ==== Sys2Proof/Laws/Step.lean ====
section
/-! SUPPORT. What a command, a transaction and a step can answer, said once. -/

namespace Sys2Proof.Machine

variable {s t : State} {i : Instr}

/-- Everything a command that answers a next state can have done: completed on no context; raised an
architected error; or completed having written an initialised record to its own context. -/
theorem exec_next_cases (h : exec i s = .next t) :
    (∃ o, t = s.completeOk o ∧ i.op ∉ [Op.ctxinit, .sfeed, .sfin]) ∨
      (∃ e off, t = s.raiseErr e off ∧ e ≠ .ok ∧ off < s.inp.length ∧
        i.op ∈ [Op.dec, .d64t2, .d64t3, .d64b4, .d32t2, .d32t4, .d32t5, .d32t7, .d32b8, .d16b2]) ∨
      ∃ x o, (t = (s.setCtx x).completeOk o ∨ t = ((s.setCtx x).drawn).completeOk o) ∧ x.init = true ∧
        i.op ∈ [Op.ctxinit, .sfeed, .sfin] := by
  have block {v : Variant} {r : Nat} (h : decCommon v r s = .next t) :
      (∃ o, t = s.completeOk o) ∨ ∃ e off, t = s.raiseErr e off ∧ e ≠ .ok ∧ off < s.inp.length := by
    obtain ⟨-, -, -, ⟨-, h⟩ | ⟨e, off, he, h⟩⟩ := decCommon_next.mp h
    · exact .inl ⟨_, h⟩
    · obtain ⟨ho, hl⟩ := blockError_some he
      exact .inr ⟨e, off, h, by rcases ho with rfl | rfl <;> decide, by simpa using hl⟩
  cases i
  case ctxinit =>
    obtain ⟨-, h⟩ := execCtxinit_next.mp h
    exact .inr (.inr ⟨_, _, .inl h, rfl, by simp [Instr.op]⟩)
  case enc v p =>
    obtain ⟨-, -, h⟩ := execEnc_next.mp h
    exact .inl ⟨_, h, by simp [Instr.op]⟩
  case dec v =>
    obtain ⟨-, -, ⟨-, h⟩ | ⟨e, off, he, h⟩⟩ := execDec_next.mp h
    · exact .inl ⟨_, h, by simp [Instr.op]⟩
    · obtain ⟨ho, hl⟩ := bulkError_some he
      exact .inr (.inl ⟨e, off, h, ho, by simpa using hl, by simp [Instr.op]⟩)
  case sfeed v =>
    obtain ⟨-, hc, -, h⟩ := execSfeed_next.mp h
    exact .inr (.inr ⟨_, _, .inr h, ((ctxCheck_eq_none _ _).mp hc).1, by simp [Instr.op]⟩)
  case sfin v p =>
    obtain ⟨-, hc, -, h⟩ := execSfin_next.mp h
    exact .inr (.inr ⟨_, _, .inl h, ((ctxCheck_eq_none _ _).mp hc).1, by simp [Instr.op]⟩)
  case e64t1 | e64t2 | e64b3 | e64b6 | e32t1 | e32t2 | e32t3 | e32t4 | e32b5 | e16b1 =>
    simp only [exec, execE64t1, execE64t2, execE64b3, execE64b6, execE32t1, execE32t2,
      execE32t3, execE32t4, execE32b5, execE16b1] at h
    obtain ⟨-, -, -, h⟩ := encCommon_next.mp h
    exact .inl ⟨_, h, by simp [Instr.op]⟩
  all_goals
    obtain ⟨o, h⟩ | ⟨e, off, h, h1, h2⟩ := block h
    · exact .inl ⟨o, h, by simp [Instr.op]⟩
    · exact .inr (.inl ⟨e, off, h, h1, h2, by simp [Instr.op]⟩)

/-- No command is refused. -/
theorem exec_not_refused (r : Refusal) : exec i s ≠ .refused r := by
  have enc {n need body} : encCommon n need body s ≠ .refused r := by
    unfold encCommon; split <;> [simp; (split <;> [simp; (split <;> simp)])]
  have dec {v k} : decCommon v k s ≠ .refused r := by
    unfold decCommon; split <;> [simp; (split <;> [simp; (split <;> [simp; (split <;> simp)])])]
  cases i
  case ctxinit => simp only [exec, execCtxinit]; split <;> [simp; (split <;> simp)]
  case enc => simp only [exec, execEnc]; split <;> [simp; (split <;> simp)]
  case dec => simp only [exec, execDec]; split <;> [simp; (split <;> [simp; (split <;> simp)])]
  case sfeed => simp only [exec, execSfeed]; split <;> [simp; (split <;> [simp; (split <;> simp)])]
  case sfin => simp only [exec, execSfin]; split <;> [simp; (split <;> [simp; (split <;> [simp; (split <;> simp)])])]
  case e64t1 | e64t2 | e64b3 | e64b6 | e32t1 | e32t2 | e32t3 | e32t4 | e32b5 | e16b1 =>
    simp only [exec, execE64t1, execE64t2, execE64b3, execE64b6, execE32t1, execE32t2,
      execE32t3, execE32t4, execE32b5, execE16b1]
    exact enc
  all_goals exact dec

/-- When a transaction answers a next state (30_encoding.md R80). -/
theorem transact_next {r : Request} :
    transact r s = .next t ↔
      ∃ i, decode r.cmd = .ok i ∧ r.fits s.cfg.width i.op = true ∧ exec i (s.latch r) = .next t := by
  unfold transact
  split
  · simp [*]
  · rename_i i hi
    split
    · simp [*]
    · simp [*]

/-- When a transaction faults. -/
theorem transact_fault {r : Request} {f : Fault} :
    transact r s = .fault f ↔
      (∃ e, decode r.cmd = .error e ∧ f = .fIllegal) ∨
        ∃ i, decode r.cmd = .ok i ∧ r.fits s.cfg.width i.op = true ∧ exec i (s.latch r) = .fault f := by
  unfold transact
  split
  · rename_i e he
    simp only [he, Host.Outcome.fault.injEq, reduceCtorEq, false_and, exists_false, or_false, Except.error.injEq]
    exact ⟨fun h => ⟨e, rfl, h.symm⟩, fun ⟨_, _, h⟩ => h.symm⟩
  · rename_i i hi
    split
    · simp [*]
    · simp [*]

/-- Everything a step that answers a next state can have done. -/
theorem step_next_cases (h : step s = .next t) :
    s.faults = [] ∧
      ((s.queue = [] ∧ t = s) ∨
        ∃ a rest, s.queue = a :: rest ∧
          ((∃ r, a = .command r ∧ transact r { s with queue := rest } = .next t) ∨
            (∃ r x, a = .read r ∧ s.regValue r = .holds x ∧ t = { s with queue := rest, readData := some x }) ∨
            (a = .reset ∧ t = ({ s with queue := rest } : State).blockReset))) := by
  unfold step nextStep at h
  split at h
  · cases h
  · rename_i hf
    refine ⟨hf, ?_⟩
    split at h
    · rename_i hq
      simp only [Host.Outcome.next.injEq] at h
      exact .inl ⟨hq, h.symm⟩
    · rename_i a rest hq
      refine .inr ⟨a, rest, hq, ?_⟩
      cases a with
      | command r => exact .inl ⟨r, rfl, h⟩
      | read r =>
        obtain ⟨x, hx, ht⟩ := readReg_next.mp h
        exact .inr (.inl ⟨r, x, rfl, by cases r <;> exact hx, ht⟩)
      | reset =>
        simp only [act, Host.Outcome.next.injEq] at h
        exact .inr (.inr ⟨rfl, h.symm⟩)

/-- A faulted block answers no next state (60_exceptions.md R251). -/
theorem step_of_faulted {f : Fault} {fs : List Fault} (h : s.faults = f :: fs) :
    step s = .fault (afterFault f s.queue) := by simp [step, nextStep, h]

/-- The OUTs of a list of commands that begins with one that completes. -/
theorem collect_cons {r : Request} {rs : List Request} {u : State} {o : List CodeUnit} (h : transact r s = .next t)
    (hs : collect rs t = .next (o, u)) : collect (r :: rs) s = .next (t.out ++ o, u) := by
  simp [collect, h, hs]

end Sys2Proof.Machine
end

