-- ==== Sys2Proof/Tests/Slice0.lean ====
section
/-! SUPPORT. The model's own tests, each expected result from the spec (the file is named), and for every
statement with hypotheses the inputs that meet them, clause by clause. -/

namespace Sys2Proof.Tests

open Sys2Proof Sys2Proof.Machine Sys2Proof.Claims

/-! ### Small states and views of an answer -/

/-- ASCII text as elements of IN or OUT. -/
def asc (x : String) : List CodeUnit := x.toList.map fun c => BitVec.ofNat 32 c.toNat

/-- Bytes as elements of IN or OUT. -/
def hex (l : List Nat) : List CodeUnit := l.map (BitVec.ofNat 32)

/-- Reset with IN and OUTCAP as a transaction gives them. -/
def st (i : List CodeUnit) (cap : Nat) : State := { State.reset with inp := i, outcap := cap }

/-- Reset with context 0 holding these carried bytes, bound to `v`. -/
def stream (v : Variant) (b : List Byte) (i : List CodeUnit) (cap : Nat) : State :=
  { st i cap with ctxs := [(0, ⟨BitVec.ofNat 3 b.length, carryOf b (fun _ => 0xEE), true, false, some v⟩)] }

/-- Reset with context 0 EMPTY, as CTXINIT leaves it. -/
def emptyStream (i : List CodeUnit) (cap : Nat) : State := { st i cap with ctxs := [(0, emptyContext)] }

/-- Reset with context 0 FINALIZED. -/
def finalStream (i : List CodeUnit) (cap : Nat) : State :=
  { st i cap with ctxs := [(0, finalContext emptyContext .base64)] }

/-- Reset with the host's actions presented. -/
def offer (q : List HostAction) : State := { State.reset with queue := q }

/-- Reset with MAX_LEN = `m`, IN and OUTCAP. -/
def short (m : Nat) (i : List CodeUnit) (cap : Nat) : State := { State.resetWith ⟨.w8, some m, .everyCommand⟩ with inp := i, outcap := cap }

/-- The same where ENC, DEC and SFEED alone check MAX_LEN. -/
def listed (m : Nat) (i : List CodeUnit) (cap : Nat) : State :=
  { State.resetWith ⟨.w8, some m, .listedCommands⟩ with inp := i, outcap := cap }

/-- OUT and COUNT of a command that completed with STATUS = OK. -/
def okOut : Host.Outcome State Fault Refusal → Option (List CodeUnit × ResultReg Nat)
  | .next t => if t.status = .holds .ok then some (t.out, t.count) else none
  | _ => none

/-- STATUS, ERROFF and COUNT of a command that completed. -/
def regs : Host.Outcome State Fault Refusal → Option (ResultReg Status × ResultReg Nat × ResultReg Nat)
  | .next t => some (t.status, t.erroff, t.count)
  | _ => none

/-- The fault of an answer. -/
def faultOf : Host.Outcome State Fault Refusal → Option Fault
  | .fault f => some f
  | _ => none

/-- What a host read answered. -/
def readOf : Host.Outcome State Fault Refusal → Option Nat
  | .next t => t.readData
  | _ => none

/-- PENDING and the carried bytes of the context a command left. -/
def carry : Host.Outcome State Fault Refusal → Option (BitVec 3 × List Byte × CtxState)
  | .next t => some (t.ctx.pending, t.ctx.carried, t.ctx.abstractState)
  | _ => none

/-- A completed answer with this OUT. -/
def gives (o : List CodeUnit) : Option (List CodeUnit × ResultReg Nat) := some (o, .holds o.length)

/-- An architected error with this offset. -/
def raises (e : Status) (off : Nat) : Option (ResultReg Status × ResultReg Nat × ResultReg Nat) :=
  some (.holds e, .holds off, .unwritten)

/-! ### Well-formed terms -/

/-- The one check of WellFormed (30_encoding.md R85, fam): a block command with a variant of another family is
refused, one for each family; the same operation with a variant of its family is not. -/
theorem test_ill_formed_refused :
    ¬ (Instr.e64b3 .base32).WellFormed ∧ ¬ (Instr.d32b8 .base16).WellFormed ∧ ¬ (Instr.e16b1 .base64).WellFormed ∧
    (Instr.e64b3 .base64Url).WellFormed ∧ (Instr.d32b8 .base32Hex).WellFormed ∧ (Instr.e16b1 .base16).WellFormed := by
  decide

/-! ### Command words, written out bit by bit (30_encoding.md R81: OP, P, RZ, VAR) -/

/-- 95_test_vectors.md section 2 and 30_encoding.md R85. -/
theorem test_words_bulk_streaming :
    decode 0b00000001_0_00_00000 = .ok .ctxinit ∧
    decode 0b00000010_1_00_01101 = .ok (.enc .base32CrockfordLower true) ∧
    decode 0b00000011_0_00_10001 = .ok (.dec .base16Lower) ∧
    decode 0b00000100_0_00_00000 = .ok (.sfeed .base64) ∧
    decode 0b00000101_1_00_01000 = .ok (.sfin .base32 true) := by
  decide

/-- 41_block_encode.md R101 to R104. -/
theorem test_words_encode64 :
    decode 0b00100001_1_00_00001 = .ok (.e64t1 .base64Url true) ∧
    decode 0b00100010_0_00_00000 = .ok (.e64t2 .base64 false) ∧
    decode 0b00100011_0_00_00001 = .ok (.e64b3 .base64Url) ∧
    decode 0b00100110_0_00_00000 = .ok (.e64b6 .base64) := by
  decide

/-- 41_block_encode.md R105 to R109. -/
theorem test_words_encode32 :
    decode 0b00110001_0_00_01101 = .ok (.e32t1 .base32CrockfordLower false) ∧
    decode 0b00110010_1_00_01011 = .ok (.e32t2 .base32HexLower true) ∧
    decode 0b00110011_0_00_01001 = .ok (.e32t3 .base32Lower false) ∧
    decode 0b00110100_1_00_01100 = .ok (.e32t4 .base32Crockford true) ∧
    decode 0b00110101_0_00_01000 = .ok (.e32b5 .base32) := by
  decide

/-- 41_block_encode.md R110, 42_block_decode.md R141 to R143 and R149. -/
theorem test_words_decode64_and_16 :
    decode 0b01000001_0_00_10001 = .ok (.e16b1 .base16Lower) ∧
    decode 0b01110010_0_00_10000 = .ok (.d16b2 .base16) ∧
    decode 0b01010010_0_00_00001 = .ok (.d64t2 .base64Url) ∧
    decode 0b01010011_0_00_00000 = .ok (.d64t3 .base64) ∧
    decode 0b01010100_0_00_00001 = .ok (.d64b4 .base64Url) := by
  decide

/-- 42_block_decode.md R144 to R148. -/
theorem test_words_decode32 :
    decode 0b01100010_0_00_01000 = .ok (.d32t2 .base32) ∧
    decode 0b01100100_0_00_01001 = .ok (.d32t4 .base32Lower) ∧
    decode 0b01100101_0_00_01011 = .ok (.d32t5 .base32HexLower) ∧
    decode 0b01100111_0_00_01100 = .ok (.d32t7 .base32Crockford) ∧
    decode 0b01101000_0_00_01010 = .ok (.d32b8 .base32Hex) := by
  decide

/-- 95_test_vectors.md section 2, the F_ILLEGAL rows. -/
theorem test_words_illegal :
    decode 0x0101 = .error .reservedVariant ∧ decode 0x0180 = .error .paddingNotTaken ∧
    decode 0x0380 = .error .paddingNotTaken ∧ decode 0x0402 = .error .reservedVariant ∧
    decode 0x0420 = .error .reservedZero ∧ decode 0x2108 = .error .wrongFamily ∧ decode 0x4100 = .error .wrongFamily ∧
    decode 0x0000 = .error .unknownOp ∧ decode 0x2400 = .error .unknownOp ∧ decode 0xFFFF = .error .unknownOp := by
  decide

/-! ### Block encode (95_test_vectors.md section 3) -/

/-- 41_block_encode.md and 95_test_vectors.md section 3. -/
theorem test_e64t1 :
    okOut (exec (.e64t1 .base64 true) (st (hex [0x66]) 4)) = gives (asc "Zg==") ∧
    okOut (exec (.e64t1 .base64 false) (st (hex [0xFF]) 2)) = gives (asc "/w") := by
  decide

/-- 41_block_encode.md and 95_test_vectors.md section 3. -/
theorem test_e64t2 :
    okOut (exec (.e64t2 .base64Url true) (st (hex [0xFF, 0xFF]) 4)) = gives (asc "__8=") ∧
    okOut (exec (.e64t2 .base64 false) (st (hex [0x66, 0x6F]) 3)) = gives (asc "Zm8") := by
  decide

/-- 41_block_encode.md and 95_test_vectors.md section 3. -/
theorem test_e64b3 :
    okOut (exec (.e64b3 .base64Url) (st (hex [0xFB, 0xFF, 0xBF]) 4)) = gives (asc "-_-_") ∧
    okOut (exec (.e64b3 .base64) (st (asc "foo") 4)) = gives (asc "Zm9v") := by
  decide

/-- 41_block_encode.md and 95_test_vectors.md section 3. -/
theorem test_e64b6 :
    okOut (exec (.e64b6 .base64) (st (hex [0x00, 0x00, 0x00, 0xFF, 0xFF, 0xFF]) 8)) = gives (asc "AAAA////") ∧
    okOut (exec (.e64b6 .base64) (st (asc "foobar") 8)) = gives (asc "Zm9vYmFy") := by
  decide

/-- 41_block_encode.md and 95_test_vectors.md section 3. -/
theorem test_e32t1 :
    okOut (exec (.e32t1 .base32HexLower true) (st (hex [0xFF]) 8)) = gives (asc "vs======") ∧
    okOut (exec (.e32t1 .base32 false) (st (hex [0x66]) 2)) = gives (asc "MY") := by
  decide

/-- 41_block_encode.md and 95_test_vectors.md section 3. -/
theorem test_e32t2 :
    okOut (exec (.e32t2 .base32 true) (st (hex [0x66, 0x6F]) 8)) = gives (asc "MZXQ====") := by
  decide

/-- 41_block_encode.md and 95_test_vectors.md section 3. -/
theorem test_e32t3 :
    okOut (exec (.e32t3 .base32 true) (st (asc "foo") 8)) = gives (asc "MZXW6===") := by
  decide

/-- 41_block_encode.md and 95_test_vectors.md section 3. -/
theorem test_e32t4 :
    okOut (exec (.e32t4 .base32Lower true) (st (asc "foob") 8)) = gives (asc "mzxw6yq=") ∧
    okOut (exec (.e32t4 .base32 false) (st (asc "foob") 7)) = gives (asc "MZXW6YQ") := by
  decide

/-- 41_block_encode.md and 95_test_vectors.md section 3. -/
theorem test_e32b5 :
    okOut (exec (.e32b5 .base32Crockford) (st (asc "fooba") 8)) = gives (asc "CSQPYRK1") ∧
    okOut (exec (.e32b5 .base32HexLower) (st (asc "fooba") 8)) = gives (asc "cpnmuoj1") := by
  decide

/-- 41_block_encode.md and 95_test_vectors.md section 3. -/
theorem test_e16b1 :
    okOut (exec (.e16b1 .base16Lower) (st (hex [0xAB]) 2)) = gives (asc "ab") ∧
    okOut (exec (.e16b1 .base16) (st (hex [0x66]) 2)) = gives (asc "66") := by
  decide

/-! ### Block decode (95_test_vectors.md section 4) -/

/-- 42_block_decode.md and 95_test_vectors.md section 4. -/
theorem test_d64t2 :
    okOut (exec (.d64t2 .base64) (st (asc "Zh") 1)) = gives (hex [0x66]) := by
  decide

/-- 42_block_decode.md and 95_test_vectors.md section 4. -/
theorem test_d64t3 :
    okOut (exec (.d64t3 .base64) (st (asc "//8") 2)) = gives (hex [0xFF, 0xFF]) ∧
    regs (exec (.d64t3 .base64) (st (asc "Ym=") 2)) = raises .unexpectedPadding 2 := by
  decide

/-- 42_block_decode.md and 95_test_vectors.md section 4. -/
theorem test_d64b4 :
    okOut (exec (.d64b4 .base64Url) (st (asc "-_-_") 3)) = gives (hex [0xFB, 0xFF, 0xBF]) ∧
    regs (exec (.d64b4 .base64) (st (asc "-_-_") 3)) = raises .invalidSymbol 0 := by
  decide

/-- 42_block_decode.md and 95_test_vectors.md section 4. -/
theorem test_d32t2 :
    okOut (exec (.d32t2 .base32) (st (asc "MZ") 1)) = gives (hex [0x66]) := by
  decide

/-- 42_block_decode.md and 95_test_vectors.md section 4. -/
theorem test_d32t4 :
    okOut (exec (.d32t4 .base32) (st (asc "MZXQ") 2)) = gives (hex [0x66, 0x6F]) ∧
    regs (exec (.d32t4 .base32) (st (asc "MZX=") 2)) = raises .unexpectedPadding 3 := by
  decide

/-- 42_block_decode.md and 95_test_vectors.md section 4. -/
theorem test_d32t5 :
    okOut (exec (.d32t5 .base32) (st (asc "MZXW7") 3)) = gives (asc "foo") := by
  decide

/-- 42_block_decode.md and 95_test_vectors.md section 4. -/
theorem test_d32t7 :
    okOut (exec (.d32t7 .base32) (st (asc "MZXW6YR") 4)) = gives (asc "foob") ∧
    regs (exec (.d32t7 .base32) (st (asc "MZXW6Y=") 4)) = raises .unexpectedPadding 6 := by
  decide

/-- 42_block_decode.md and 95_test_vectors.md section 4. -/
theorem test_d32b8 :
    okOut (exec (.d32b8 .base32Hex) (st (asc "CPNMUOJ1") 5)) = gives (asc "fooba") ∧
    regs (exec (.d32b8 .base32Crockford) (st (asc "CSQPYRKI") 5)) = raises .invalidSymbol 7 := by
  decide

/-- 42_block_decode.md and 95_test_vectors.md section 4. -/
theorem test_d16b2 :
    okOut (exec (.d16b2 .base16Lower) (st (asc "ab") 1)) = gives (hex [0xAB]) ∧
    regs (exec (.d16b2 .base16) (st (asc "6=") 1)) = raises .unexpectedPadding 1 := by
  decide

/-- 95_test_vectors.md section 4, W = 16: the low byte of a code unit is not enough. -/
theorem test_wide_code_unit_is_invalid :
    regs (exec (.d16b2 .base16) { st (hex [0x30, 0x141]) 1 with cfg := ⟨.w16, none, .everyCommand⟩ }) = raises .invalidSymbol 1 := by
  decide

/-! ### Bulk commands (95_test_vectors.md sections 1, 5 and 6; 43_bulk.md R185) -/

/-- V8, V1, section 5 and its fault. -/
theorem test_enc :
    okOut (exec (.enc .base32 true) (st (asc "foobar") 16)) = gives (asc "MZXW6YTBOI======") ∧
    okOut (exec (.enc .base64Url false) (st (hex [0xF0, 0xF1, 0xF2, 0xF3, 0xF4, 0xF5, 0xF6]) 12)) = gives (asc "8PHy8_T19g") ∧
    okOut (exec (.enc .base64 true) (st [] 0)) = gives [] ∧
    faultOf (exec (.enc .base64 false) (st (asc "foob") 6)) = some .fOutcap := by
  decide

/-- Sections 1 and 6: padded, unpadded, discarded bits unchecked, and the fault. -/
theorem test_dec :
    okOut (exec (.dec .base64) (st (asc "Zm9vYg==") 6)) = gives (asc "foob") ∧
    okOut (exec (.dec .base64) (st (asc "Zm9vYm") 6)) = gives (asc "foob") ∧
    okOut (exec (.dec .base32) (st (asc "MZXW6YTBOI") 10)) = gives (asc "foobar") ∧
    faultOf (exec (.dec .base64) (st (asc "Zm9vYg==") 5)) = some .fOutcap := by
  decide

/-- V9 to V11 and 43_bulk.md R185. -/
theorem test_dec_errors_base64 :
    (∀ e ∈ [("Zm9vYg=", Status.truncatedInput, 4), ("Zm9vY", .truncatedInput, 4), ("Z=9v", .unexpectedPadding, 1), ("Zm9v!", .invalidSymbol, 4),
        ("====", .unexpectedPadding, 0), ("Zg===", .unexpectedPadding, 4), ("Zg=A", .unexpectedPadding, 3), ("Zg=!", .invalidSymbol, 3)],
      regs (exec (.dec .base64) (st (asc e.1) 9)) = raises e.2.1 e.2.2) := by
  decide

/-- 43_bulk.md R185 and 95_test_vectors.md section 6. -/
theorem test_dec_errors_others :
    (∀ e ∈ [("MZXW6Y==", Status.unexpectedPadding, 6), ("MZX", .truncatedInput, 0), ("MZXW6YTBOI=====", .truncatedInput, 8),
        ("MZXW6YTBOI=======", .unexpectedPadding, 16), ("M=======", .unexpectedPadding, 1)],
      regs (exec (.dec .base32) (st (asc e.1) 15)) = raises e.2.1 e.2.2) ∧
    (∀ e ∈ [("666", Status.truncatedInput, 2), ("66==", .unexpectedPadding, 2)],
      regs (exec (.dec .base16) (st (asc e.1) 15)) = raises e.2.1 e.2.2) := by
  decide

/-! ### Streaming (95_test_vectors.md section 7) -/

/-- 44_streaming.md R210: a pending and a finalized context become EMPTY. -/
theorem test_ctxinit :
    carry (exec .ctxinit (stream .base64 [0x66, 0x6F] [] 0)) = some (0, [], .empty) ∧
    regs (exec .ctxinit (finalStream [] 0)) = some (.holds .ok, .unwritten, .holds 0) := by
  decide

/-- Section 7, rows 1 and 10. -/
theorem test_sfeed :
    okOut (exec (.sfeed .base64) (stream .base64 [0x66, 0x6F] (asc "ob") 4)) = gives (asc "Zm9v") ∧
    carry (exec (.sfeed .base64) (stream .base64 [0x66, 0x6F] (asc "ob") 4)) = some (1, [0x62], .pending 1) ∧
    okOut (exec (.sfeed .base32) (stream .base32 [0xFF] (hex [0xFF, 0xFF, 0xFF]) 0)) = gives [] ∧
    carry (exec (.sfeed .base32) (stream .base32 [0xFF] (hex [0xFF, 0xFF, 0xFF]) 0)) =
      some (4, [0xFF, 0xFF, 0xFF, 0xFF], .pending 4) := by
  decide

/-- Section 7, rows 9 and 5. -/
theorem test_sfin :
    okOut (exec (.sfin .base32CrockfordLower true) (stream .base32CrockfordLower [0x66, 0x6F, 0x6F, 0x62] [] 8)) =
      gives (asc "csqpyrg=") ∧
    okOut (exec (.sfin .base64 false) (stream .base64 [0x66] [] 2)) = gives (asc "Zg") ∧
    carry (exec (.sfin .base64 false) (stream .base64 [0x66] [] 2)) = some (0, [], .finalized) := by
  decide

/-- Section 7, the streaming faults. -/
theorem test_streaming_faults :
    faultOf (exec (.sfeed .base64) (st (asc "f") 4)) = some .fCtxUninit ∧
    faultOf (exec (.sfeed .base64) (finalStream (asc "f") 4)) = some .fCtxReuse ∧
    faultOf (exec (.sfin .base64 false) (finalStream [] 4)) = some .fCtxReuse ∧
    faultOf (exec (.sfeed .base64Url) (stream .base64 [0x66] (asc "o") 4)) = some .fCtxVariant ∧
    faultOf (exec (.sfeed .base64) (emptyStream (asc "foo") 3)) = some .fOutcap ∧
    faultOf (exec (.sfin .base64 true) (stream .base64 [0x66] [] 3)) = some .fOutcap ∧
    faultOf (exec (.sfin .base64 true) (emptyStream (asc "f") 4)) = some .fOperand := by
  decide

/-! ### Steps, reads and faults (95_test_vectors.md section 8) -/

/-- P5 d, f and a; 60_exceptions.md R249, R248; section 4. -/
theorem test_step_faults :
    faultOf (step (offer [.command ⟨0x0380, asc "Zg==", 3, 0⟩])) = some .fIllegal ∧
    faultOf (step (offer [.command ⟨0x2600, asc "foo", 8, 0⟩])) = some .fOperand ∧
    faultOf (step (offer [.command ⟨0x0400, asc "f", 4, 0⟩])) = some .fCtxUninit ∧
    faultOf (step (offer [.read .status])) = some .fUnwritten ∧
    faultOf (exec (.enc .base64 true) (short 2 (asc "foo") 4)) = some .fLength ∧
    faultOf (exec (.d32t2 .base32) (st (asc "MY") 0)) = some .fOutcap := by
  decide

/-- P5 e: COUNT reads, ERROFF faults. -/
theorem test_read_after_ok :
    faultOf (step { offer [.read .erroff] with status := .holds .ok, count := .holds 4 }) = some .fUnwritten ∧
    readOf (step { offer [.read .count] with status := .holds .ok, count := .holds 4 }) = some 4 := by
  decide

/-- 10_state.md R30: the four encodings, as a read answers them. -/
theorem test_status_codes :
    Status.ok.code = 0 ∧ Status.invalidSymbol.code = 1 ∧ Status.unexpectedPadding.code = 2 ∧ Status.truncatedInput.code = 3 ∧
    readOf (step { offer [.read .status] with status := .holds .truncatedInput }) = some 3 := by
  decide

/-- 60_exceptions.md R245, R249: no later step removes it, a reset neither; a read after it faults F_UNWRITTEN. -/
theorem test_fault_is_kept :
    (advance (offer [.command ⟨0x0000, [], 0, 0⟩, .reset])).faults = [.fIllegal] ∧
    (advanceN 2 (offer [.command ⟨0x0000, [], 0, 0⟩, .reset])).faults = [.fIllegal] ∧
    (advanceN 2 (offer [.command ⟨0x0000, [], 0, 0⟩, .read .status])).faults = [.fIllegal, .fUnwritten] := by
  decide

/-- 41_block_encode.md R101, the corner case 00 00 00; zero symbols decode to zero bytes; SFIN on EMPTY. -/
theorem test_fetch_word_runs :
    okOut (step (State.reset.withFetchWord 16 0x2300)) = gives (asc "AAAA") ∧
    okOut (step (State.reset.withFetchWord 16 0x680A)) = gives (hex [0, 0, 0, 0, 0]) ∧
    okOut (step (State.reset.withFetchWord 16 0x0580)) = gives [] ∧ decodeTableWord 16 0x0280 = some (.enc .base64 true) := by
  decide

/-! ### The width of ERROFF and COUNT (10_state.md R31, R32) -/

/-- ceil(log2(MAX_LEN + 1)) bits: 4 symbols fit 3 bits, and index 7 fits 4. -/
theorem test_register_width :
    regBits ⟨.w8, some 3, .listedCommands⟩ = some 2 ∧ regBits ⟨.w8, some 4, .listedCommands⟩ = some 3 ∧ regBits ⟨.w8, some 0, .listedCommands⟩ = some 0 ∧
    regBits ⟨.w8, none, .listedCommands⟩ = none ∧ okOut (exec (.e64b3 .base64) (short 4 (asc "foo") 4)) = gives (asc "Zm9v") ∧
    regs (exec (.d32b8 .base32) (short 8 (asc "MZXW6YT!") 5)) = raises .invalidSymbol 7 := by
  decide

/-- With MAX_LEN = 3 COUNT has 2 bits: the command completes with its OUT, and COUNT is some value below 4. -/
theorem test_register_too_narrow :
    ∃ x, okOut (exec (.e64b3 .base64) (short 3 (asc "foo") 4)) = some (asc "Zm9v", .holds x) ∧ x < 4 :=
  ⟨_, rfl, Nat.mod_lt _ (by decide)⟩

/-- 00_scope.md R8 read of every command (short), and 60_exceptions.md R244, R248 (listed). Log entry 20. -/
theorem test_length_rule :
    faultOf (exec (.e64b3 .base64) (short 2 (asc "foo") 4)) = some .fLength ∧
    (okOut (exec (.d64t2 .base64) (listed 1 (asc "Zg") 1))) = gives (asc "f") ∧
    faultOf (exec .ctxinit (listed 0 (asc "f") 0)) = some .fOperand ∧ faultOf (exec .ctxinit (short 0 (asc "f") 0)) = some .fLength ∧
    faultOf (exec (.enc .base64 false) (listed 2 (asc "foo") 4)) = some .fLength := by
  decide

/-! ### The command text (30_encoding.md R90, R91) -/

/-- 30_encoding.md R90: its example, IN and OUTCAP omitted, a hex operand, and a ".P" that is not legal. -/
theorem test_assembler :
    (parseLine "ENC.P base64, in=\"foo\", cap=4".toList).bind AsmLine.assemble = some ⟨0x0280, hex [0x66, 0x6F, 0x6F], 4, 0⟩ ∧
    (parseLine "CTXINIT ctx=c0".toList).bind AsmLine.assemble = some ⟨0x0100, [], 0, 0⟩ ∧
    (parseLine "E16B1 base16, in=x\"AB\", cap=2".toList).bind AsmLine.assemble = some ⟨0x4110, hex [0xAB], 2, 0⟩ ∧
    (parseLine "DEC.P base64, in=\"Zg==\"".toList).bind AsmLine.assemble = none := by
  decide

/-- 95_test_vectors.md P2, command 4. -/
theorem test_line_text :
    (AsmLine.mk .sfin true (some .base32) [.ctx 0, .cap 8]).text = "SFIN.P base32, ctx=c0, cap=8" := by
  decide

/-! ### Inputs that meet the hypotheses of the statements, clause by clause -/

/-- IN of `n` elements, 0xFF each, with capacity `cap`. -/
def blk (n cap : Nat) : State := st (List.replicate n 0xFF) cap

/-- MAX_LEN one below |IN| is over the limit where every command checks it, and not where three do. -/
theorem witness_overLimit (n : Nat) :
    overLimit { blk (n + 1) 8 with cfg := ⟨.w8, some n, .everyCommand⟩ } ∧
    ¬ overLimit { blk (n + 1) 8 with cfg := ⟨.w8, some (n + 1), .everyCommand⟩ } ∧
    ¬ overLimit { blk (n + 1) 8 with cfg := ⟨.w8, some n, .listedCommands⟩ } := by
  refine ⟨⟨rfl, n, rfl, by simp [blk, st]⟩, ?_, fun h => nomatch h.1⟩
  rintro ⟨-, m, hm, hl⟩
  cases hm
  simp [blk, st] at hl

/-- With MAX_LEN infinite nothing is over the limit: the states of these witnesses are not. -/
theorem witness_not_overLimit (i : List CodeUnit) (cap : Nat) : ¬ overLimit (st i cap) := fun ⟨_, _, h, _⟩ => nomatch h

/-- The clauses of EncodesBlock but for the limit, which is above: a wrong length, one element of capacity too few, just enough. -/
abbrev EncMet (n need : Nat) : Prop :=
  (blk (n + 1) need).inp.length ≠ n ∧
    ((blk n (need - 1)).inp.length = n ∧ (blk n (need - 1)).outcap < need) ∧
    ((blk n need).inp.length = n ∧ need ≤ (blk n need).outcap)

/-- A D* input whose first code unit without a value is at `j`. -/
abbrev BadAt (v : Variant) (n need : Nat) (x : String) (j : Nat) : Prop :=
  (st (asc x) need).inp.length = n ∧ need ≤ (st (asc x) need).outcap ∧
    (st (asc x) need).inUnits.drop j = (asc x).getD j 0 :: (st (asc x) need).inUnits.drop (j + 1) ∧
    REV v ((asc x).getD j 0) = none ∧ ∀ d ∈ (st (asc x) need).inUnits.take j, REV v d ≠ none

/-- The clauses of DecodesBlock but for the limit, which is above: a wrong length, capacity too small, data throughout, and a code unit
without a value at the first and at the last index. -/
abbrev DecMet (v : Variant) (n need : Nat) (good bad0 bad1 : String) : Prop :=
  EncMet n need ∧
    ((st (asc good) need).inp.length = n ∧ need ≤ (st (asc good) need).outcap ∧
      ∀ c ∈ (st (asc good) need).inUnits, REV v c ≠ none) ∧
    BadAt v n need bad0 0 ∧ BadAt v n need bad1 (n - 1)

/-- Every code unit of a list has a value, from a check that evaluates. -/
theorem allData {v : Variant} {l : List CodeUnit} (h : l.all (fun x => (REV v x).isSome) = true) :
    ∀ x ∈ l, REV v x ≠ none := by
  intro x hx e
  have := List.all_eq_true.mp h x hx
  simp [e] at this

/-- A code unit has no value, from a check that evaluates. -/
theorem noData {v : Variant} {c : CodeUnit} (h : (REV v c).isNone = true) : REV v c = none :=
  Option.isNone_iff_eq_none.mp h

/-- The clauses of DecodesBlock, from checks that evaluate. -/
theorem decMet {v : Variant} {n need : Nat} {good bad0 bad1 : String} (h : EncMet n need)
    (hg : (asc good).length = n ∧ (st (asc good) need).inUnits.all (fun x => (REV v x).isSome) = true)
    (h0 : (asc bad0).length = n ∧ (st (asc bad0) need).inUnits = asc bad0 ∧ 0 < n ∧
      (REV v ((asc bad0).getD 0 0)).isNone = true)
    (h1 : (asc bad1).length = n ∧ (st (asc bad1) need).inUnits = asc bad1 ∧ 0 < n ∧
      (REV v ((asc bad1).getD (n - 1) 0)).isNone = true ∧
      ((asc bad1).take (n - 1)).all (fun x => (REV v x).isSome) = true) :
    DecMet v n need good bad0 bad1 := by
  refine ⟨h, ⟨hg.1, Nat.le_refl _, allData hg.2⟩, ⟨h0.1, Nat.le_refl _, ?_, noData h0.2.2.2, by simp⟩,
    ⟨h1.1, Nat.le_refl _, ?_, noData h1.2.2.2.1, ?_⟩⟩
  · rw [h0.2.1, List.drop_eq_getElem_cons (by omega), List.getD_eq_getElem _ _ (by omega)]
  · rw [h1.2.1, List.drop_eq_getElem_cons (by omega), List.getD_eq_getElem _ _ (by omega)]
  · rw [h1.2.1]; exact allData h1.2.2.2.2

theorem witness_DecodeOfEncodeIsTheInstruction :
    (Instr.e32t4 .base32Crockford true).WellFormed ∧ Instr.ctxinit.WellFormed := by decide

theorem witness_EncodeOfDecodeIsTheWord : decode 0x348C = .ok (.e32t4 .base32Crockford true) := by decide

theorem witness_DecoderChecksInOrder :
    (∀ o : Op, o.code ≠ fieldOP 0x2400) ∧
    (Op.sfeed.code = fieldOP 0x0420 ∧ fieldRZ 0x0420 ≠ 0) ∧
    (Op.sfeed.code = fieldOP 0x0402 ∧ fieldRZ 0x0402 = 0 ∧ ∀ v : Variant, v.code ≠ fieldVAR 0x0402) ∧
    (Op.ctxinit.code = fieldOP 0x0101 ∧ fieldRZ 0x0101 = 0 ∧ fieldVAR 0x0101 ≠ 0) ∧
    (Op.e64t1.code = fieldOP 0x2108 ∧ fieldRZ 0x2108 = 0 ∧ Variant.base32.code = fieldVAR 0x2108 ∧
      Op.e64t1.family ≠ none ∧ Op.e64t1.family ≠ some Variant.base32.family) ∧
    (Op.dec.code = fieldOP 0x0380 ∧ fieldRZ 0x0380 = 0 ∧ Variant.base64.code = fieldVAR 0x0380 ∧
      Op.dec.family = none ∧ fieldP 0x0380 = true ∧ Op.dec.takesPad = false) ∧
    (Op.e64t1.code = fieldOP 0x2181 ∧ fieldRZ 0x2181 = 0 ∧ Variant.base64Url.code = fieldVAR 0x2181 ∧
      Op.e64t1.family = some Variant.base64Url.family ∧ fieldP 0x2181 = true ∧ Op.e64t1.takesPad = true) ∧
    (Op.ctxinit.code = fieldOP 0x0100 ∧ fieldRZ 0x0100 = 0 ∧ Variant.base64.code = fieldVAR 0x0100 ∧
      fieldVAR 0x0100 = 0 ∧ Op.ctxinit.family = none ∧ fieldP 0x0100 = false) ∧
    ((Request.mk 0xFFFF [] 0 0).cmd = 0xFFFF ∧ decode 0xFFFF = .error .unknownOp) :=
  ⟨by intro o; cases o <;> decide, by decide, by refine ⟨by decide, by decide, ?_⟩; intro v; cases v <;> decide,
    by decide, by decide, by decide, by decide, by decide, by decide⟩

/-- Words of the OP values that the statements list the legal words of. -/
theorem witness_words_of_op :
    fieldOP 0x0100 = 0x01 ∧ fieldOP 0x0280 = 0x02 ∧ fieldOP 0x0311 = 0x03 ∧ fieldOP 0x0400 = 0x04 ∧ fieldOP 0x0588 = 0x05 ∧
    fieldOP 0x2181 = 0x21 ∧ fieldOP 0x22FF = 0x22 ∧ fieldOP 0x2301 = 0x23 ∧ fieldOP 0x2600 = 0x26 ∧ fieldOP 0x318D = 0x31 ∧
    fieldOP 0x3208 = 0x32 ∧ fieldOP 0x3308 = 0x33 ∧ fieldOP 0x348C = 0x34 ∧ fieldOP 0x350D = 0x35 ∧ fieldOP 0x4111 = 0x41 ∧
    fieldOP 0x5200 = 0x52 ∧ fieldOP 0x5301 = 0x53 ∧ fieldOP 0x5400 = 0x54 ∧ fieldOP 0x6208 = 0x62 ∧ fieldOP 0x6409 = 0x64 ∧
    fieldOP 0x650B = 0x65 ∧ fieldOP 0x670C = 0x67 ∧ fieldOP 0x680A = 0x68 ∧ fieldOP 0x7210 = 0x72 := by decide

theorem witness_AssembledLineDecodes :
    (AsmLine.mk .enc true (some .base64) [.inText "foo".toList, .cap 4]).assemble =
      some ⟨0x0280, hex [0x66, 0x6F, 0x6F], 4, 0⟩ ∧
    (AsmLine.mk .ctxinit false none []).assemble = some ⟨0x0100, [], 0, 0⟩ ∧
    (AsmLine.mk .sfeed false (some .base16) [.ctx 1, .inText "a".toList, .cap 9, .inHex [0xAB], .ctx 7, .cap 2]).assemble =
      some ⟨0x0410, hex [0xAB], 2, 7⟩ ∧
    Op.e32t4.takesPad = true ∧ Op.e32t4.family = some Variant.base32Hex.family ∧ Op.enc.family = none ∧
    (Op.e64t1.family ≠ none ∧ Op.e64t1.family ≠ some Variant.base32.family) := by decide

theorem witness_CommandTextReadsBack :
    (Op.sfin = .ctxinit → (some Variant.base32) = none) ∧ (Op.ctxinit = .ctxinit → (none : Option Variant) = none) ∧
    writable (.inText ['f', ',', ' ', '=']) ∧ writable (.inText []) ∧ writable (.inHex [0xAB]) ∧ writable (.cap 1203) ∧
    writable (.ctx 0) := by
  refine ⟨by decide, by decide, ?_, ?_, ?_, trivial, trivial⟩ <;> simp [writable]

theorem witness_StepRunsTheDecodedCommand :
    (offer [.command ⟨0x0300, hex [0xFF], 3, 0⟩]).faults = [] ∧ decode 0x0300 = .ok (.dec .base64) ∧
    (offer [.command ⟨0x0300, hex [0xFF], 3, 0⟩]).queue = [.command ⟨0x0300, hex [0xFF], 3, 0⟩] ∧
    (Request.mk 0x0300 (hex [0xFF]) 3 0).fits .w8 .dec = true ∧
    (Request.mk 0x0300 (hex [0x100]) 3 0).fits .w8 .dec = false := by decide

theorem witness_CommandsReadTheirElementsWhole :
    ((Instr.dec .base64).op ≠ .ctxinit ∧ (Instr.dec .base64).op ≠ .sfin) ∧ isDecode (.dec .base64) ∧
    ¬ isDecode (.enc .base64 true) ∧ (Request.mk 0x0300 (hex [0xFFFF]) 3 0).fits .w16 .dec = true ∧
    (Request.mk 0x0300 (hex [0x10000]) 3 0).fits .w16 .dec = false ∧
    (Request.mk 0x0300 [0xFFFFFFFF] 3 0).fits .w32 .dec = true ∧ (Request.mk 0x0280 (hex [0xFF]) 4 0).fits .w32 .enc = true ∧
    (Request.mk 0x0280 (hex [0x100]) 4 0).fits .w32 .enc = false ∧ decode 0x0280 = .ok (.enc .base64 true) :=
  ⟨by decide, by unfold isDecode; decide, by unfold isDecode; decide, by decide, by decide, by decide, by decide, by decide,
    by decide⟩

theorem witness_StepOfOtherActions :
    (State.reset.faults = [] ∧ State.reset.queue = []) ∧
    ((offer [.command ⟨0, [], 0, 0⟩]).faults = [] ∧ decode 0 = .error .unknownOp) ∧
    ((({ offer [.read .count] with count := .holds 0 } : State)).faults = [] ∧
      ({ offer [.read .count] with count := .holds 0 } : State).regValue .count = .holds 0) ∧
    ((offer [.reset]).faults = [] ∧ (offer [.reset]).queue = [.reset]) ∧
    ({ offer [.reset] with faults := [.fIllegal] } : State).faults ≠ [] := by decide

theorem witness_RomTablesAreInverse :
    63 < 2 ^ Variant.base64Url.family.k ∧ 31 < 2 ^ Variant.base32CrockfordLower.family.k ∧
    15 < 2 ^ Variant.base16.family.k ∧ FWD .base64 63 = FWD .base64 63 := by decide

theorem witness_ReverseTableIsExact :
    ((0x3D : CodeUnit) = zextW .w32 (PAD .base16)) ∧ 256 ≤ (0x100 : CodeUnit).toNat := by decide

theorem witness_PackIsBigEndian : 0 < 6 ∧ (pack [0xFF] 6).length = 2 := by decide

theorem witness_UnpackIsBigEndian : 0 < 6 ∧ ∀ g ∈ [63, 48], g < 2 ^ 6 := by decide

theorem witness_BlockDecodeInvertsBlockEncode :
    ([0xFF] : List Byte) ≠ [] ∧
    ((asc "Zh").length ∈ Variant.base64.family.tails ∧ ∀ x ∈ asc "Zh", REV .base64 x ≠ none) ∧
    ((asc "MZXW6YTB").length = Variant.base32.family.S ∧ ∀ x ∈ asc "MZXW6YTB", REV .base32 x ≠ none) :=
  ⟨by decide, ⟨by decide, allData (by decide)⟩, ⟨by decide, allData (by decide)⟩⟩

theorem witness_E64B3EncodesThreeBytes : Variant.base64Url.family = .f64 ∧ EncMet 3 4 := by decide

theorem witness_E64B6IsTwoE64B3 : Variant.base64Url.family = .f64 ∧ EncMet 6 8 := by decide

theorem witness_E64TailsEncodeOneOrTwoBytes :
    Variant.base64Url.family = .f64 ∧ EncMet 1 4 ∧ EncMet 1 2 ∧ EncMet 2 4 ∧ EncMet 2 3 := by decide

theorem witness_E32B5EncodesFiveBytes : Variant.base32CrockfordLower.family = .f32 ∧ EncMet 5 8 := by decide

theorem witness_E32TailsEncodeOneOrTwoBytes :
    Variant.base32CrockfordLower.family = .f32 ∧ EncMet 1 8 ∧ EncMet 1 2 ∧ EncMet 2 8 ∧ EncMet 2 4 := by decide

theorem witness_E32TailsEncodeThreeOrFourBytes :
    Variant.base32CrockfordLower.family = .f32 ∧ EncMet 3 8 ∧ EncMet 3 5 ∧ EncMet 4 8 ∧ EncMet 4 7 := by decide

theorem witness_E16B1EncodesOneByte : Variant.base16Lower.family = .f16 ∧ EncMet 1 2 := by decide

theorem witness_D64B4DecodesFourSymbols :
    Variant.base64.family = .f64 ∧ DecMet .base64 4 3 "////" "-Zm9" "Zm9=" :=
  ⟨rfl, decMet (by decide) (by decide) (by decide) (by decide)⟩

theorem witness_D64TailsDecodeTwoOrThreeSymbols :
    Variant.base64.family = .f64 ∧ DecMet .base64 2 1 "Zg" "=g" "Z!" ∧ DecMet .base64 3 2 "//8" "-m8" "Ym=" :=
  ⟨rfl, decMet (by decide) (by decide) (by decide) (by decide),
    decMet (by decide) (by decide) (by decide) (by decide)⟩

theorem witness_D32B8DecodesEightSymbols :
    Variant.base32Crockford.family = .f32 ∧ DecMet .base32Crockford 8 5 "CSQPYRK1" "ISQPYRK1" "CSQPYRKI" :=
  ⟨rfl, decMet (by decide) (by decide) (by decide) (by decide)⟩

theorem witness_D32TailsDecodeTwoOrFourSymbols :
    Variant.base32.family = .f32 ∧ DecMet .base32 2 1 "MY" "mY" "M=" ∧ DecMet .base32 4 2 "MZXQ" "=ZXQ" "MZX=" :=
  ⟨rfl, decMet (by decide) (by decide) (by decide) (by decide),
    decMet (by decide) (by decide) (by decide) (by decide)⟩

theorem witness_D32TailsDecodeFiveOrSevenSymbols :
    Variant.base32.family = .f32 ∧ DecMet .base32 5 3 "MZXW6" "1ZXW6" "MZXW=" ∧
    DecMet .base32 7 4 "MZXW6YQ" "=ZXW6YQ" "MZXW6Y=" :=
  ⟨rfl, decMet (by decide) (by decide) (by decide) (by decide),
    decMet (by decide) (by decide) (by decide) (by decide)⟩

theorem witness_D16B2DecodesTwoSymbols :
    Variant.base16.family = .f16 ∧ DecMet .base16 2 1 "FF" "G0" "6=" :=
  ⟨rfl, decMet (by decide) (by decide) (by decide) (by decide)⟩

theorem witness_EncEncodesBlocksThenTail :
    ((short 2 (asc "foo") 4).cfg.maxLen = some 2 ∧ 2 < (short 2 (asc "foo") 4).inp.length) ∧
    ((short 3 (asc "foo") 3).tooLong = false ∧
      (short 3 (asc "foo") 3).outcap < ceilDiv (short 3 (asc "foo") 3).inp.length 3 * 4) ∧
    ((short 3 (asc "foo") 4).tooLong = false ∧
      ceilDiv (short 3 (asc "foo") 4).inp.length 3 * 4 ≤ (short 3 (asc "foo") 4).outcap) ∧
    (∀ m, (short 3 (asc "foo") 4).cfg.maxLen = some m → (short 3 (asc "foo") 4).inp.length ≤ m) :=
  ⟨by decide, by decide, by decide, fun m h => by cases h; decide⟩

theorem witness_EncIsOneBigEndianConversion :
    (short 3 (asc "foo") 4).tooLong = false ∧
    ceilDiv (short 3 (asc "foo") 4).inp.length Variant.base64.family.B * Variant.base64.family.S ≤
      (short 3 (asc "foo") 4).outcap := by decide

theorem witness_BlockSplitIsNotObservable :
    Variant.base64.family = .f64 ∧ (∀ n ∈ [6, 3], n = 3 ∨ n = 6) ∧
    [6, 3].sum = (List.replicate 9 (0xFF : Byte)).length ∧
    ((short 6 [] 0).cfg.lengthRule = .everyCommand ∧ (short 6 [] 0).cfg.maxLen = some 6 ∧ ∀ n ∈ [6, 3], n ≤ 6) := by decide

/-- DEC's operand checks pass on this text. -/
abbrev DecReady (v : Variant) (x : String) (cap : Nat) : Prop :=
  (st (asc x) cap).tooLong = false ∧ ceilDiv (asc x).length v.family.S * v.family.B ≤ cap ∧
    (st (asc x) cap).inUnits = asc x

theorem witness_DecReportsTheFirstError :
    (∀ x ∈ asc "Zm9vYg", REV .base64 x ≠ none) ∧
    (DecReady .base64 "Zm9v!" 6 ∧ asc "Zm9v!" = asc "Zm9v" ++ 0x21 :: [] ∧ REV .base64 0x21 = none ∧
      (0x21 : CodeUnit) ≠ zextW .w8 (PAD .base64)) ∧
    (DecReady .base64 "Z=9v" 3 ∧ asc "Z=9v" = asc "Z" ++ zextW .w8 (PAD .base64) :: asc "9v" ∧
      1 % Variant.base64.family.S ∉ Variant.base64.family.tails) ∧
    (DecReady .base64 "Zg=A" 3 ∧ 2 % Variant.base64.family.S ∈ Variant.base64.family.tails ∧
      asc "Zg=A" = asc "Zg" ++ List.replicate (0 + 1) (zextW .w8 (PAD .base64)) ++ 0x41 :: [] ∧
      (0x41 : CodeUnit) ≠ zextW .w8 (PAD .base64)) ∧
    (DecReady .base64 "Zm9vYg=" 6 ∧ 0 + 1 < Variant.base64.family.S - 6 % Variant.base64.family.S ∧
      asc "Zm9vYg=" = asc "Zm9vYg" ++ List.replicate (0 + 1) (zextW .w8 (PAD .base64))) ∧
    (DecReady .base64 "Zg===" 6 ∧ Variant.base64.family.S - 2 % Variant.base64.family.S < 2 + 1 ∧
      asc "Zg===" = asc "Zg" ++ List.replicate (2 + 1) (zextW .w8 (PAD .base64))) ∧
    (DecReady .base64 "Zm9vY" 6 ∧ 5 % Variant.base64.family.S ≠ 0 ∧
      5 % Variant.base64.family.S ∉ Variant.base64.family.tails) :=
  ⟨allData (by decide), ⟨by decide, by decide, noData (by decide), by decide⟩, by decide, by decide, by decide,
    by decide, by decide⟩

theorem witness_DecDecodesLegalInput :
    (∀ x ∈ asc "Zm9vYg", REV .base64 x ≠ none) ∧
    (DecReady .base64 "Zm9v" 3 ∧ 4 % Variant.base64.family.S = 0) ∧
    (DecReady .base64 "Zm9vYg" 6 ∧ 6 % Variant.base64.family.S ∈ Variant.base64.family.tails) ∧
    (DecReady .base64 "Zm9vYg==" 6 ∧ 2 = Variant.base64.family.S - 6 % Variant.base64.family.S ∧
      asc "Zm9vYg==" = asc "Zm9vYg" ++ List.replicate 2 (zextW .w8 (PAD .base64))) :=
  ⟨allData (by decide), by decide, by decide, by decide⟩

theorem witness_DecAcceptsExactlyLegalInput :
    DecReady .base64 "" 0 ∧ DecReady .base16 "666" 2 ∧ okOut (exec (.dec .base64) (st [] 0)) = gives [] := by decide

theorem witness_DecFaultsOnLengthAndCapacity :
    ((short 2 (asc "Zm8") 3).cfg.maxLen = some 2 ∧ 2 < (short 2 (asc "Zm8") 3).inp.length) ∧
    (∀ m, (short 3 (asc "Zm8") 2).cfg.maxLen = some m → (short 3 (asc "Zm8") 2).inp.length ≤ m) ∧
    (short 3 (asc "Zm8") 2).outcap < ceilDiv 3 Variant.base64.family.S * Variant.base64.family.B :=
  ⟨by decide, fun m h => by cases h; decide, by decide⟩

theorem witness_DecOfEncIsTheInput :
    (∀ m, (short 4 [] 0).cfg.maxLen = some m →
      (if true then ceilDiv ([0xFF] : List Byte).length Variant.base64.family.B * Variant.base64.family.S
        else ceilDiv (8 * ([0xFF] : List Byte).length) Variant.base64.family.k) ≤ m ∧ ([0xFF] : List Byte).length ≤ m) ∧
    (∀ m, (short 2 [] 0).cfg.maxLen = some m →
      (if false then ceilDiv ([0xFF] : List Byte).length Variant.base64.family.B * Variant.base64.family.S
        else ceilDiv (8 * ([0xFF] : List Byte).length) Variant.base64.family.k) ≤ m ∧ ([0xFF] : List Byte).length ≤ m) ∧
    ceilDiv 1 Variant.base64.family.B * Variant.base64.family.S ≤ 4 ∧
    ceilDiv 1 Variant.base64.family.B * Variant.base64.family.B ≤ 3 :=
  ⟨fun m h => by cases h; decide, fun m h => by cases h; decide, by decide, by decide⟩

theorem witness_CtxinitZeroInitialises : (st (asc "f") 0).inp ≠ [] ∧ (st [] 0).inp = [] := by decide

theorem witness_ContextStoreReadsBackWrites : (1 : Nat) ≠ 0 ∧ ctxWrite [(1, emptyContext)] 0 emptyContext ≠ [] := by
  decide

theorem witness_StreamingChecksTheContext :
    ((st [] 0).ctx.init = false ∧ (st [] 0).tooLong = false ∧ (st [] 0).inp = []) ∧
    ((finalStream [] 0).ctx.init = true ∧ (finalStream [] 0).ctx.fin = true ∧ (finalStream [] 0).tooLong = false ∧
      (finalStream [] 0).inp = []) ∧
    ((stream .base64 [0x66] [] 0).ctx.init = true ∧ (stream .base64 [0x66] [] 0).ctx.fin = false ∧
      (stream .base64 [0x66] [] 0).ctx.bound = some .base64 ∧ Variant.base64 ≠ .base64Url ∧
      (stream .base64 [0x66] [] 0).tooLong = false ∧ (stream .base64 [0x66] [] 0).inp = []) := by decide

/-- A context SFEED and SFIN take: EMPTY, or PENDING with the most bytes a base32 stream carries. -/
theorem witness_stream_is_open :
    ((emptyStream [] 0).ctx.init = true ∧ (emptyStream [] 0).ctx.fin = false ∧ (emptyStream [] 0).ctx.bound = none ∧
      (emptyStream [] 0).ctx.pending.toNat < Variant.base16.family.B) ∧
    ((stream .base32 [1, 2, 3, 4] (asc "f") 8).ctx.init = true ∧
      (stream .base32 [1, 2, 3, 4] (asc "f") 8).ctx.fin = false ∧
      (stream .base32 [1, 2, 3, 4] (asc "f") 8).ctx.bound = some .base32 ∧
      (stream .base32 [1, 2, 3, 4] (asc "f") 8).ctx.pending.toNat < Variant.base32.family.B) := by decide

theorem witness_SfeedEmitsFullBlocks :
    (({ stream .base32 [1, 2, 3, 4] (asc "f") 8 with cfg := ⟨.w8, some 0, .everyCommand⟩ } : State).cfg.maxLen = some 0 ∧
      0 < (stream .base32 [1, 2, 3, 4] (asc "f") 8).inp.length) ∧
    ((stream .base32 [1, 2, 3, 4] (asc "f") 7).tooLong = false ∧
      (stream .base32 [1, 2, 3, 4] (asc "f") 7).outcap < (4 + 1) / Variant.base32.family.B * Variant.base32.family.S) ∧
    ((stream .base32 [1, 2, 3, 4] (asc "f") 8).tooLong = false ∧
      (4 + 1) / Variant.base32.family.B * Variant.base32.family.S ≤ (stream .base32 [1, 2, 3, 4] (asc "f") 8).outcap) := by
  decide

theorem witness_SfeedCornerCases :
    (stream .base32 [1, 2, 3, 4] [] 0).inp = [] ∧ (stream .base64 [1] (asc "f") 0).ctx.pending.toNat + 1 < 3 ∧
    Variant.base16.family = .f16 ∧ (∃ t, exec (.sfeed .base32) (stream .base32 [1, 2, 3, 4] [] 0) = .next t) ∧
    (∃ t, exec (.sfeed .base16) (emptyStream (asc "f") 2) = .next t) :=
  ⟨by decide, by decide, by decide, ⟨_, rfl⟩, ⟨_, rfl⟩⟩

theorem witness_SfinFlushesTheTail :
    (emptyStream (asc "f") 0).inp ≠ [] ∧
    ((stream .base32 [1, 2, 3, 4] [] 6).inp = [] ∧ (stream .base32 [1, 2, 3, 4] [] 6).outcap < Family.f32.tsym 4) ∧
    ((stream .base32 [1, 2, 3, 4] [] 7).inp = [] ∧ Family.f32.tsym 4 ≤ (stream .base32 [1, 2, 3, 4] [] 7).outcap) := by
  decide

theorem witness_ContextStatesFollowTheirTransitions :
    (∃ t, exec .ctxinit (st [] 0) = .next t) ∧ (∃ t, exec .ctxinit (finalStream [] 0) = .next t) ∧
    (stream .base32 [1, 2, 3, 4] (asc "f") 8).ctx.pending.toNat < Variant.base32.family.B ∧
    (∃ t, exec (.sfeed .base32) (stream .base32 [1, 2, 3, 4] (asc "f") 8) = .next t) ∧
    (∃ t, exec (.sfin .base32 true) (stream .base32 [1, 2, 3, 4] [] 8) = .next t) :=
  ⟨⟨_, rfl⟩, ⟨_, rfl⟩, by decide, ⟨_, rfl⟩, ⟨_, rfl⟩⟩

theorem witness_StreamingEqualsOneShot :
    (∀ m, (short 4 [] 0).cfg.maxLen = some m → ([[0x66], [], [0x6F, 0x6F, 0x62]] : List (List Byte)).flatten.length ≤ m) ∧
    ceilDiv ([[0x66], [], [0x6F, 0x6F, 0x62]] : List (List Byte)).flatten.length Variant.base64.family.B *
      Variant.base64.family.S ≤ 8 :=
  ⟨fun m h => by cases h; decide, by decide⟩

theorem witness_ChecksDecideTheFault :
    (Instr.enc .base64 false).WellFormed ∧ firstFault (.enc .base64 false) (st (asc "foob") 8) = none ∧
    firstFault (.enc .base64 false) (st (asc "foob") 7) = some .fOutcap ∧
    firstFault (.enc .base64 false) (short 3 (asc "foob") 7) = some .fLength ∧
    firstFault (.e64b3 .base64) (st (asc "fo") 0) = some .fOperand ∧
    firstFault (.sfin .base64 true) (finalStream [] 0) = some .fCtxReuse := by
  refine ⟨by decide, ?_, ?_, ?_, ?_, ?_⟩ <;> simp [firstFault, short, st, asc, State.reset, State.resetWith] <;> decide

theorem witness_OnlyDecodesReportErrors :
    (∃ t, exec (.dec .base64) (st (asc "Z") 3) = .next t ∧ t.status ≠ .holds .ok ∧ t.status = .holds .truncatedInput) ∧
    (∃ t, exec (.d16b2 .base16) (st (asc "G0") 1) = .next t ∧ t.status ≠ .holds .ok) :=
  ⟨⟨_, rfl, by decide, by decide⟩, ⟨_, rfl, by decide⟩⟩

theorem witness_ResultRegistersAfterEveryCommand :
    (∃ t, exec (.e16b1 .base16) (st (asc "f") 2) = .next t) ∧ (∃ t, exec (.dec .base64) (st (asc "Z") 3) = .next t) :=
  ⟨⟨_, rfl⟩, ⟨_, rfl⟩⟩

theorem witness_OutFitsOutcap :
    (Instr.sfeed .base32).WellFormed ∧
    (stream .base32 [1, 2, 3, 4] (asc "f") 8).ctx.pending.toNat < (Instr.sfeed .base32).variant.family.B ∧
    ∃ t, exec (.sfeed .base32) (stream .base32 [1, 2, 3, 4] (asc "f") 8) = .next t :=
  ⟨by decide, by decide, ⟨_, rfl⟩⟩

theorem witness_WrittenElementsHaveTheirType :
    (∃ t, exec (.e16b1 .base16) (st (asc "f") 2) = .next t ∧ (0x36 : CodeUnit) ∈ t.out) ∧
    ¬ isDecode (.e16b1 .base16) :=
  ⟨⟨_, rfl, by decide⟩, by unfold isDecode; decide⟩

theorem witness_CommandsChangeOnlyTheirResults :
    (∃ t, exec (.sfeed .base32) (stream .base32 [1, 2, 3, 4] (asc "f") 8) = .next t) ∧
    ¬ isStreaming (.enc .base64 true) ∧ (1 : Nat) ≠ (stream .base32 [1, 2, 3, 4] (asc "f") 8).ctxSel :=
  ⟨⟨_, rfl⟩, by unfold isStreaming; decide, by decide⟩

/-- Two contexts that differ in the cells above PENDING alone. -/
theorem witness_ResultsDependOnOperandsAlone :
    sameContext (stream .base64 [0x66] [] 4).ctx ⟨1, ⟨0x66, 1, 2, 3⟩, true, false, some .base64⟩ ∧
    (stream .base64 [0x66] [] 4).ctx ≠ ⟨1, ⟨0x66, 1, 2, 3⟩, true, false, some .base64⟩ ∧
    (∃ t, exec (.sfin .base64 true) (stream .base64 [0x66] [] 4) = .next t) ∧
    isStreaming (.sfin .base64 true) ∧ ¬ isStreaming (.e16b1 .base16) ∧
    ¬ sameContext (stream .base64 [0x66] (asc "f") 2).ctx (finalStream (asc "f") 2).ctx ∧
    (∃ t, exec (.e16b1 .base16) (stream .base64 [0x66] (asc "f") 2) = .next t) :=
  ⟨by unfold sameContext; decide, by decide, ⟨_, rfl⟩, by unfold isStreaming; decide, by unfold isStreaming; decide,
    by unfold sameContext; decide, ⟨_, rfl⟩⟩

theorem witness_IndependentCommandsCommute :
    (1 : Nat) ≠ 0 ∧ ∃ ta tab, transact ⟨0x0100, [], 0, 1⟩ (emptyStream [] 0) = .next ta ∧
      transact ⟨0x0410, asc "f", 2, 0⟩ ta = .next tab :=
  ⟨by decide, _, _, rfl, rfl⟩

theorem witness_FaultIsRecordedForTheWholeRun :
    step (offer [.command ⟨0x0000, [], 0, 0⟩, .reset]) = .fault .fIllegal := rfl

theorem witness_UnwrittenReadsFault :
    (∃ t, exec (.e16b1 .base16) (st (asc "f") 2) = .next t ∧ t.faults = [] ∧ t.status = .holds .ok) ∧
    (∃ t, exec (.dec .base64) (st (asc "!") 3) = .next t ∧ t.faults = [] ∧ t.status = .holds .invalidSymbol) ∧
    (∃ t, exec (.dec .base64) (st (asc "=") 3) = .next t ∧ t.faults = [] ∧ t.status = .holds .unexpectedPadding) ∧
    (∃ t, exec (.dec .base64) (st (asc "Z") 3) = .next t ∧ t.faults = [] ∧ t.status = .holds .truncatedInput) ∧
    (∃ t, exec (.dec .base64) (st (asc "Z") 3) = .next t ∧ t.faults = [] ∧ t.status ≠ .holds .ok) ∧
    (({ offer [.read .status] with faults := [.fIllegal] } : State).faults ≠ [] ∧
      ({ offer [.read .status] with faults := [.fIllegal] } : State).queue = [.read .status]) :=
  ⟨⟨_, rfl, by decide, by decide⟩, ⟨_, rfl, by decide, by decide⟩, ⟨_, rfl, by decide, by decide⟩,
    ⟨_, rfl, by decide, by decide⟩, ⟨_, rfl, by decide, by decide⟩, by decide⟩

theorem witness_BlockResetKeepsStreams :
    ({ stream .base64 [0x66] [] 4 with queue := [.reset] } : State).faults = [] ∧
    ∃ t u, step { stream .base64 [0x66] [] 4 with queue := [.reset] } = .next t ∧
      transact ⟨0x0580, [], 4, 0⟩ { stream .base64 [0x66] [] 4 with queue := [.reset] } = .next u :=
  ⟨by decide, _, _, rfl, rfl⟩

theorem witness_StepKeepsTheInvariant :
    ({ stream .base64 [0x66] [] 0 with queue := [.command ⟨0x0580, [], 4, 0⟩] } : State).Inv ∧
    ∃ t, step { stream .base64 [0x66] [] 0 with queue := [.command ⟨0x0580, [], 4, 0⟩] } = .next t :=
  ⟨by decide, ⟨_, rfl⟩⟩

theorem witness_ConfigurationIsFixedForTheRun :
    ∃ t, SafeRun 1 { stream .base64 [0x66] [] 0 with queue := [.command ⟨0x0580, [], 4, 0⟩] } t := ⟨_, rfl⟩

end Sys2Proof.Tests
end

section
/-! Packing as a change of base (00_scope.md R14): the sizes of `ceilDiv`, `pack` and `unpack` as numbers, and
the law that a whole number of groups packs apart from what follows it. -/

namespace Sys2Proof

/-- The ceiling division is the least number of groups of `k` that hold `a`. -/
theorem ceilDiv_le_iff {a q k : Nat} (hk : 0 < k) : ceilDiv a k ≤ q ↔ a ≤ q * k := by
  rw [ceilDiv, Nat.div_le_iff_le_mul_add_pred hk, Nat.mul_comm k]
  omega

/-- Its groups hold `a`. -/
theorem le_ceilDiv_mul (a : Nat) {k : Nat} (hk : 0 < k) : a ≤ ceilDiv a k * k :=
  (ceilDiv_le_iff hk).mp le_rfl

/-- Less than one group is left over. -/
theorem ceilDiv_mul_lt (a : Nat) {k : Nat} (hk : 0 < k) : ceilDiv a k * k < a + k := by
  have hdiv := Nat.div_mul_le_self (a + k - 1) k
  unfold ceilDiv
  omega

/-- Nothing needs no group. -/
@[simp] theorem ceilDiv_zero {k : Nat} (hk : 0 < k) : ceilDiv 0 k = 0 :=
  Nat.le_zero.mp ((ceilDiv_le_iff hk).mpr (Nat.zero_le _))

/-- Up to a whole group, but not nothing, needs one group. -/
theorem ceilDiv_eq_one {a k : Nat} (ha : 0 < a) (h : a ≤ k) : ceilDiv a k = 1 := by
  have hk : 0 < k := Nat.lt_of_lt_of_le ha h
  have hone : ceilDiv a k ≤ 1 := (ceilDiv_le_iff hk).mpr (by omega)
  have hpos : ¬ ceilDiv a k ≤ 0 := by
    rw [ceilDiv_le_iff hk]
    omega
  omega

/-- The data symbols of `n` bytes fit the groups of their blocks (10_state.md R21). -/
theorem Family.tsym_le (f : Family) (n : Nat) : f.tsym n ≤ ceilDiv n f.B * f.S :=
  (ceilDiv_le_iff f.k_pos).mpr <| calc
    8 * n ≤ 8 * (ceilDiv n f.B * f.B) := Nat.mul_le_mul_left 8 (le_ceilDiv_mul n f.B_pos)
    _ = ceilDiv n f.B * (8 * f.B) := by ring
    _ = ceilDiv n f.B * f.S * f.k := by rw [f.block_bits, Nat.mul_assoc]

/-- Whole blocks before `r` bytes add whole groups to their data symbols (10_state.md R21). -/
theorem Family.tsym_blocks_add (f : Family) (q r : Nat) : f.tsym (q * f.B + r) = q * f.S + f.tsym r := by
  have hbits : 8 * (q * f.B + r) = q * f.S * f.k + 8 * r := by
    rw [Nat.mul_assoc, ← f.block_bits]
    ring
  rw [Family.tsym, hbits, Machine.ceilDiv_add_mul _ _ _ f.k_pos, Family.tsym]

end Sys2Proof

namespace Sys2Proof.Machine

/-- The bits of the bytes and of the zero fill are the bits of the groups (00_scope.md R14). -/
theorem pack_fill_add (n : Nat) {k : Nat} (hk : 0 < k) :
    8 * n + (ceilDiv (8 * n) k * k - 8 * n) = ceilDiv (8 * n) k * k :=
  Nat.add_sub_cancel' (le_ceilDiv_mul (8 * n) hk)

/-- Bytes read as one number, below 2^(8n). -/
theorem beNat_bytes_lt (b : List Byte) : beNat 8 (b.map BitVec.toNat) < 2 ^ (8 * b.length) := by
  have h := beNat_lt 8 (b.map BitVec.toNat) fun x hx => by
    obtain ⟨y, -, rfl⟩ := List.mem_map.mp hx
    exact y.isLt
  simpa using h

/-- `pack` makes k-bit groups. -/
theorem pack_lt {b : List Byte} {k g : Nat} (h : g ∈ pack b k) : g < 2 ^ k := by
  obtain ⟨j, -, rfl⟩ := List.mem_map.mp h
  exact Nat.mod_lt _ (Nat.two_pow_pos k)

/-- The groups of `pack` read as one number are the bytes read so, above the zero fill (00_scope.md R14). -/
theorem beNat_pack (b : List Byte) {k : Nat} (hk : 0 < k) :
    beNat k (pack b k) =
      beNat 8 (b.map BitVec.toNat) * 2 ^ (ceilDiv (8 * b.length) k * k - 8 * b.length) :=
  beNat_digits k _ _ <| calc
    _ < 2 ^ (8 * b.length) * 2 ^ (ceilDiv (8 * b.length) k * k - 8 * b.length) :=
      Nat.mul_lt_mul_of_pos_right (beNat_bytes_lt b) (Nat.two_pow_pos _)
    _ = 2 ^ (ceilDiv (8 * b.length) k * k) := by rw [← pow_add, pack_fill_add _ hk]

/-- No bytes make no groups. -/
@[simp] theorem pack_nil {k : Nat} (hk : 0 < k) : pack [] k = [] :=
  List.eq_nil_of_length_eq_zero (by simp [hk])

/-- Bytes that fill whole groups pack apart from the bytes after them: both sides have as many digits and are
one number. -/
theorem pack_append {a : List Byte} (b : List Byte) {k q : Nat} (hk : 0 < k) (ha : 8 * a.length = q * k) :
    pack (a ++ b) k = pack a k ++ pack b k := by
  have hqa : ceilDiv (8 * a.length) k = q := by simpa [ha, hk] using ceilDiv_add_mul 0 q k hk
  have hlen : 8 * (a ++ b).length = q * k + 8 * b.length := by rw [List.length_append, Nat.mul_add, ha]
  have hqab : ceilDiv (8 * (a ++ b).length) k = q + ceilDiv (8 * b.length) k := by
    rw [hlen, ceilDiv_add_mul _ _ _ hk]
  apply beNat_inj k
  · simp only [List.length_append, pack_length, hqa, ← hqab]
  · exact fun g => pack_lt
  · exact fun g hg => (List.mem_append.mp hg).elim pack_lt pack_lt
  · have hfill : (q + ceilDiv (8 * b.length) k) * k - (q * k + 8 * b.length) =
        ceilDiv (8 * b.length) k * k - 8 * b.length := by rw [Nat.add_mul, Nat.add_sub_add_left]
    have hnum : beNat k (pack a k) = beNat 8 (a.map BitVec.toNat) := by
      rw [beNat_pack a hk, hqa, ha, Nat.sub_self, pow_zero, Nat.mul_one]
    calc beNat k (pack (a ++ b) k)
      _ = (beNat 8 (a.map BitVec.toNat) * 2 ^ (8 * b.length) + beNat 8 (b.map BitVec.toNat)) *
            2 ^ (ceilDiv (8 * b.length) k * k - 8 * b.length) := by
        rw [beNat_pack _ hk, hqab, hlen, hfill, List.map_append, beNat_append, List.length_map]
      _ = beNat k (pack a k) * 2 ^ (k * ceilDiv (8 * b.length) k) + beNat k (pack b k) := by
        rw [Nat.add_mul, Nat.mul_assoc, ← pow_add, pack_fill_add _ hk, Nat.mul_comm k, hnum, beNat_pack b hk]
      _ = beNat k (pack a k ++ pack b k) := by rw [beNat_append, pack_length]

/-- The bytes of `unpack` read as one number are the values read so, without the discarded bits
(00_scope.md R14). -/
theorem beNat_unpack {x : List Nat} {k : Nat} (hx : ∀ g ∈ x, g < 2 ^ k) :
    beNat 8 ((unpack x k).map BitVec.toNat) =
      beNat k x / 2 ^ (x.length * k - 8 * (x.length * k / 8)) := by
  have hlt : beNat k x / 2 ^ (x.length * k - 8 * (x.length * k / 8)) < 2 ^ (x.length * k / 8 * 8) := by
    rw [Nat.div_lt_iff_lt_mul (Nat.two_pow_pos _), ← pow_add,
      show x.length * k / 8 * 8 + (x.length * k - 8 * (x.length * k / 8)) = k * x.length by
        rw [Nat.mul_comm k]; omega]
    exact beNat_lt k x hx
  rw [← beNat_digits 8 _ _ hlt]
  simp [unpack, Nat.mul_comm 8, Function.comp_def]

/-- Settles O14: the groups are the digits of the bytes' number above its zero fill. -/
theorem packIsBigEndian : Obligations.PackIsBigEndian := by
  intro b k hk
  have hlow := le_ceilDiv_mul (8 * b.length) hk
  have hhigh := ceilDiv_mul_lt (8 * b.length) hk
  exact ⟨pack_length b k, fun g => pack_lt, hlow, by omega, beNat_pack b hk⟩

/-- Settles O15: the bytes are the digits of the values' number above the discarded bits. -/
theorem unpackIsBigEndian : Obligations.UnpackIsBigEndian := by
  intro x k _ hx
  exact ⟨unpack_length x k, by omega, beNat_unpack hx⟩

end Sys2Proof.Machine
end

section
/-! ENC as one conversion (43_bulk.md R180): the blocks and the tail join to the symbols of the whole input. -/

open Sys2Proof.Claims

namespace Sys2Proof.Machine

variable (w : Width) (v : Variant) (p : Bool)

/-- A block's symbols stand before those of the bytes after it. -/
theorem encSyms_append {a : List Byte} (b : List Byte) (ha : a.length = v.family.B) :
    encSyms w v (a ++ b) = encSyms w v a ++ encSyms w v b := by
  simp only [encSyms, pack_append b v.family.k_pos (ha ▸ v.family.block_bits), List.map_append]

/-- One more block of `encBlocks` is the next B bytes. -/
theorem encBlocks_succ (q : Nat) (b : List Byte) :
    encBlocks w v (q + 1) b =
      encBlocks w v q b ++ encSyms w v ((b.drop (q * v.family.B)).take v.family.B) := by
  simp [encBlocks, List.range_succ]

/-- The symbols of the first blocks and of the rest are the symbols of the whole. -/
theorem encBlocks_append_encSyms {q : Nat} {b : List Byte} (h : q * v.family.B ≤ b.length) :
    encBlocks w v q b ++ encSyms w v (b.drop (q * v.family.B)) = encSyms w v b := by
  induction q with
  | zero => simp [encBlocks]
  | succ q ih =>
    rw [Nat.succ_mul] at h
    have hblock : ((b.drop (q * v.family.B)).take v.family.B).length = v.family.B := by
      rw [List.length_take, List.length_drop]
      omega
    rw [encBlocks_succ, List.append_assoc, Nat.succ_mul, ← List.drop_drop, ← encSyms_append w v _ hblock,
      List.take_append_drop]
    exact ih (by omega)

/-- How many pads fill the last group of `n` bytes (43_bulk.md R182). -/
def padCount (v : Variant) (n : Nat) : Nat := ceilDiv n v.family.B * v.family.S - v.family.tsym n

/-- Whole blocks take no pads. -/
theorem padCount_blocks_add (q r : Nat) : padCount v (q * v.family.B + r) = padCount v r := by
  rw [padCount, ceilDiv_add_mul _ _ _ v.family.B_pos, v.family.tsym_blocks_add, Nat.add_mul, Nat.add_sub_add_left,
    padCount]

/-- A tail block is its symbols and the pads that fill its group (41_block_encode.md R100). -/
theorem encTail_eq {b : List Byte} (h : b.length < v.family.B) :
    encTail w v b p =
      encSyms w v b ++ if p then List.replicate (padCount v b.length) (zextW w (PAD v)) else [] := by
  by_cases h0 : b.length = 0
  · obtain rfl := List.eq_nil_of_length_eq_zero h0
    simp [encTail, encSyms, padCount, v.family.k_pos, v.family.B_pos]
  · simp [encTail, h0, padCount, ceilDiv_eq_one (Nat.pos_of_ne_zero h0) h.le]

/-- ENC's blocks and tail are the symbols of the whole input and the pads that fill its last group. -/
theorem encAll_eq (b : List Byte) :
    encAll w v p b =
      encSyms w v b ++ if p then List.replicate (padCount v b.length) (zextW w (PAD v)) else [] := by
  have hsplit := Nat.div_add_mod' b.length v.family.B
  have hrest : (b.drop (b.length / v.family.B * v.family.B)).length = b.length % v.family.B := by
    rw [List.length_drop]
    omega
  have hpads := padCount_blocks_add v (b.length / v.family.B) (b.length % v.family.B)
  rw [hsplit] at hpads
  rw [encAll, encTail_eq w v p (hrest ▸ Nat.mod_lt _ v.family.B_pos), ← List.append_assoc,
    encBlocks_append_encSyms w v (Nat.div_mul_le_self _ _), hrest, ← hpads]

/-- The length of ENC's output (43_bulk.md R182). -/
theorem encAll_length (b : List Byte) :
    (encAll w v p b).length =
      if p then ceilDiv b.length v.family.B * v.family.S else ceilDiv (8 * b.length) v.family.k := by
  have := v.family.tsym_le b.length
  rw [encAll_eq]
  cases p
  · simp [Family.tsym]
  · simp [padCount]
    omega

/-- A register holds, of what is written to it, what its width allows (10_state.md R31, R32). -/
theorem inReg_regHold (c : Config) (n : Nat) : InReg c n (regHold c n) := by
  unfold InReg
  cases hm : c.maxLen with
  | none => exact regHold_unbounded hm
  | some m => exact ⟨regHold_lt hm, regHold_fits hm⟩

/-- Settles O31: `encAll_eq` with the registers of a completing command. -/
theorem encIsOneBigEndianConversion : Obligations.EncIsOneBigEndianConversion := by
  intro v p s hlen hcap
  refine ⟨regHold s.cfg (encAll s.cfg.width v p s.inBytes).length, ?_, ?_⟩
  · have := inReg_regHold s.cfg (encAll s.cfg.width v p s.inBytes).length
    rwa [encAll_length, State.inBytes_length] at this ⊢
  · have hout : (pack s.inBytes v.family.k).map (fun g => sym s v g) ++
        pads s v p (ceilDiv s.inp.length v.family.B * v.family.S - ceilDiv (8 * s.inp.length) v.family.k) =
        encAll s.cfg.width v p s.inBytes := by
      rw [encAll_eq, State.inBytes_length]
      rfl
    rw [hout]
    exact execEnc_next.mpr ⟨hlen, hcap, rfl⟩

end Sys2Proof.Machine
end

section
/-! The elements of IN (20_memory.md R61): a transaction that fits is read with no lane cut off. -/

open Sys2Proof.Claims

namespace Sys2Proof.Machine

variable {s : State} {i : Instr} {r : Request} {w : Width}

/-- A decode command's elements are code units of W bits (20_memory.md R61). -/
theorem inBits_of_isDecode (h : isDecode i) : inBits w i.op = w.bits := by
  unfold isDecode at h
  cases ho : i.op <;> simp [ho, inBits] at h ⊢

/-- Every other command that takes elements takes bytes (R61). -/
theorem inBits_of_not_isDecode (h : ¬ isDecode i) (hc : i.op ≠ .ctxinit) (hf : i.op ≠ .sfin) :
    inBits w i.op = 8 := by
  unfold isDecode at h
  cases ho : i.op <;> simp [ho, inBits] at h hc hf ⊢

/-- A transaction fits exactly when each element has the bits of its type. -/
theorem Request.fits_iff {o : Op} : r.fits w o = true ↔ ∀ x ∈ r.inp, x.toNat < 2 ^ inBits w o := by
  simp [Request.fits]

/-- An element within the low `n` lanes is read whole from them. -/
theorem setWidth_lanes_of_lt {c : CodeUnit} {n : Nat} (h : c.toNat < 2 ^ n) :
    (c.setWidth n).setWidth 32 = c :=
  BitVec.eq_of_toNat_eq (by simp [Nat.mod_eq_of_lt h, Nat.mod_eq_of_lt c.isLt])

/-- Code units of W bits are read as they are. -/
theorem State.inUnits_eq_inp (h : ∀ x ∈ s.inp, x.toNat < 2 ^ s.cfg.width.bits) : s.inUnits = s.inp :=
  (List.map_congr_left fun x hx => setWidth_lanes_of_lt (h x hx)).trans (List.map_id _)

/-- Bytes are read as they are. -/
theorem State.units_inBytes (h : ∀ x ∈ s.inp, x.toNat < 2 ^ 8) : units s.inBytes = s.inp := by
  rw [units, State.inBytes, List.map_map]
  exact (List.map_congr_left fun x hx => setWidth_lanes_of_lt (h x hx)).trans (List.map_id _)

/-- A transaction that does not fit its command is refused (log entry 6). -/
theorem transact_of_not_fits (hd : decode r.cmd = .ok i) (h : r.fits s.cfg.width i.op = false) :
    transact r s = .refused .operandWidth := by
  simp [transact, hd, h]

/-- Settles O9, by the direction of the command. -/
theorem commandsReadTheirElementsWhole : Obligations.CommandsReadTheirElementsWhole := by
  refine ⟨rfl, rfl, rfl, fun i r s hc hf => ?_⟩
  rw [Request.fits_iff]
  by_cases h : isDecode i
  · have hread := State.inUnits_eq_inp (s := s.latch r)
    rw [inBits_of_isDecode h]
    exact ⟨by simp [h], fun hx => ⟨fun _ => hread hx, (absurd h ·)⟩, transact_of_not_fits⟩
  · have hread := State.units_inBytes (s := s.latch r)
    rw [inBits_of_not_isDecode h hc hf]
    exact ⟨by simp [h], fun hx => ⟨(absurd · h), fun _ => hread hx⟩, transact_of_not_fits⟩

end Sys2Proof.Machine
end

section
/-! The commands by shape: every E* command is `EncCommon` of one body (41_block_encode.md R100) and every D*
command `DecCommon` (42_block_decode.md R140), so that what holds of these two holds of all of them. -/

open Sys2Proof.Claims

namespace Sys2Proof.Machine

variable {s t : State} {i : Instr} {v : Variant} {p : Bool}

/-- The operations of the E* commands. -/
def encodeBlockOps : List Op :=
  [.e64t1, .e64t2, .e64b3, .e64b6, .e32t1, .e32t2, .e32t3, .e32t4, .e32b5, .e16b1]

/-- The operations of the D* commands. -/
def decodeBlockOps : List Op := [.d64t2, .d64t3, .d64b4, .d32t2, .d32t4, .d32t5, .d32t7, .d32b8, .d16b2]

/-- A command is a bulk command, a streaming command, an E* command or a D* command. -/
theorem instr_cases (i : Instr) :
    (∃ v p, i = .enc v p) ∨ (∃ v, i = .dec v) ∨ i = .ctxinit ∨ (∃ v, i = .sfeed v) ∨ (∃ v p, i = .sfin v p) ∨
      i.op ∈ encodeBlockOps ∨ i.op ∈ decodeBlockOps := by
  cases i <;> simp [Instr.op, encodeBlockOps, decodeBlockOps]

/-- A decode command is DEC or a D* command (60_exceptions.md R240). -/
theorem isDecode_iff : isDecode i ↔ i.op = .dec ∨ i.op ∈ decodeBlockOps := List.mem_cons

/-- Every D* command is `DecCommon` at the length its row of 30_encoding.md R85 lists. -/
theorem exec_of_decodeBlock (h : i.op ∈ decodeBlockOps) : exec i = decCommon i.variant (i.op.inLen.getD 0) := by
  cases i <;> simp [Instr.op, decodeBlockOps] at h <;> rfl

/-- Every E* command is `EncCommon` of a body that reads W and IN alone; where the variant is of the command's family,
the body fits the capacity asked. -/
theorem exec_of_encodeBlock (h : i.op ∈ encodeBlockOps) :
    ∃ (n need : Nat) (body : Width → List Byte → List CodeUnit),
      (∀ s, exec i s = encCommon n need (body s.cfg.width) s) ∧
        (i.WellFormed → ∀ w b, b.length = n → (body w b).length ≤ need) := by
  have tail {n need : Nat} {v : Variant} {p : Bool} (hn : n < v.family.B)
      (hneed : (if n = 0 then 0 else if p then v.family.S else v.family.tsym n) ≤ need) (w : Width) (b : List Byte)
      (hb : b.length = n) : (encTail w v b p).length ≤ need := by
    rw [encTail_length w v b p (hb ▸ hn), hb]
    exact hneed
  cases i with
  | e64t1 v p | e64t2 v p | e32t1 v p | e32t2 v p | e32t3 v p | e32t4 v p =>
    refine ⟨_, _, fun w b => encTail w v b p, fun _ => rfl, fun hf => ?_⟩
    have hf : v.family = _ := of_decide_eq_true hf
    apply tail <;> rw [hf] <;> cases p <;> decide
  | e64b3 v | e32b5 v | e16b1 v =>
    refine ⟨_, _, fun w b => encSyms w v b, fun _ => rfl, fun hf w b hb => ?_⟩
    have hf : v.family = _ := of_decide_eq_true hf
    rw [encSyms_length, hf, hb]
    decide
  | e64b6 v =>
    refine ⟨_, _, fun w b => encSyms w v (b.take 3) ++ encSyms w v (b.drop 3), fun _ => rfl, fun hf w b hb => ?_⟩
    have hf : v.family = _ := of_decide_eq_true hf
    rw [List.length_append, encSyms_length, encSyms_length, List.length_take, List.length_drop, hf, hb]
    decide
  | _ => simp [Instr.op, encodeBlockOps] at h

/-- An operation with a variant of its family makes a well-formed instruction. -/
theorem instr_wellFormed {o : Op} (h : o.takesFamily v.family = true) : (o.instr v p).WellFormed := by
  cases o with
  | ctxinit => rfl
  | _ => exact h

/-- A word that decodes names a variant of its operation's family (30_encoding.md R86, check 4). -/
theorem wellFormed_of_decode {w : CmdWord} (h : decode w = .ok i) : i.WellFormed := by
  unfold decode at h
  split at h
  · cases h
  · split at h
    · cases h
    · split at h
      · cases h
      · split at h
        · cases h
        · rename_i hfam
          split at h
          · cases h
          · exact Except.ok.inj h ▸ instr_wellFormed (by simpa using hfam)

end Sys2Proof.Machine
end

section
/-! OUT within OUTCAP (60_exceptions.md R246): how long the output of each command is at most. -/

open Sys2Proof.Claims

namespace Sys2Proof.Machine

variable {s t : State} {i : Instr} {v : Variant} {p : Bool}

/-- Pieces of at most `m` elements join to at most `m` for each. -/
theorem length_flatMap_le {α β : Type} {l : List α} {f : α → List β} {m : Nat} (h : ∀ a ∈ l, (f a).length ≤ m) :
    (l.flatMap f).length ≤ l.length * m := by
  rw [List.length_flatMap, ← List.length_map (fun a => (f a).length)]
  exact List.sum_le_card_nsmul _ _ (by simpa using h)

/-- At most a block of bytes gives at most a group of symbols. -/
theorem encSyms_length_le {w : Width} {b : List Byte} (h : b.length ≤ v.family.B) :
    (encSyms w v b).length ≤ v.family.S := by
  rw [encSyms_length, Family.tsym, ceilDiv_le_iff v.family.k_pos, ← v.family.block_bits]
  omega

/-- At most a group of symbols gives at most a block of bytes. -/
theorem decSyms_length_le {c : List CodeUnit} (h : c.length ≤ v.family.S) : (decSyms v c).length ≤ v.family.B := by
  have hbits : c.length * v.family.k ≤ 8 * v.family.B := v.family.block_bits ▸ Nat.mul_le_mul_right _ h
  rw [decSyms_length, Family.tbytes]
  omega

/-- The full blocks give at most a group of symbols each (43_bulk.md R180). -/
theorem encBlocks_length_le (w : Width) (v : Variant) (n : Nat) (b : List Byte) :
    (encBlocks w v n b).length ≤ n * v.family.S := by
  simpa only [encBlocks, List.length_range] using
    length_flatMap_le (l := List.range n) fun _ _ => encSyms_length_le (List.length_take_le _ _)

/-- ENC's output is at most its groups, padded or not (43_bulk.md R182). -/
theorem encAll_length_le (w : Width) (v : Variant) (p : Bool) (b : List Byte) :
    (encAll w v p b).length ≤ ceilDiv b.length v.family.B * v.family.S := by
  rw [encAll_length]
  split
  · exact le_rfl
  · exact v.family.tsym_le _

/-- DEC's output is at most a block of bytes for each group, the last one whole or not (43_bulk.md R183). -/
theorem decGroups_length_le (v : Variant) (c : List CodeUnit) :
    (decGroups v c).length ≤ ceilDiv c.length v.family.S * v.family.B := by
  have hS := v.family.S_pos
  have hmod := Nat.mod_lt c.length hS
  have hgroups : ceilDiv c.length v.family.S = c.length / v.family.S + ceilDiv (c.length % v.family.S) v.family.S := by
    rw [← ceilDiv_add_mul _ _ _ hS, Nat.div_add_mod']
  have hfull := length_flatMap_le (l := List.range (c.length / v.family.S))
    (f := fun j => decSyms v ((c.drop (j * v.family.S)).take v.family.S))
    fun _ _ => decSyms_length_le (List.length_take_le _ _)
  rw [List.length_range] at hfull
  rw [decGroups, List.length_append, hgroups, Nat.add_mul]
  refine Nat.add_le_add hfull ?_
  split
  · rename_i hr
    rw [ceilDiv_eq_one hr hmod.le, Nat.one_mul]
    apply decSyms_length_le
    rw [List.length_drop]
    omega
  · simp

/-- Less needs no more groups. -/
theorem ceilDiv_mono {a b k : Nat} (hk : 0 < k) (h : a ≤ b) : ceilDiv a k ≤ ceilDiv b k :=
  (ceilDiv_le_iff hk).mpr (h.trans (le_ceilDiv_mul b hk))

/-- The bytes left in OUT by an error are at most OUTCAP (10_state.md R33). -/
theorem State.raiseErr_out_length_le (s : State) (e : Status) (off : Nat) : (s.raiseErr e off).out.length ≤ s.outcap := by
  simp [byteUnits]

/-- A D* command's OUT fits OUTCAP. -/
theorem decCommon_out_length_le {r : Nat} (h : decCommon v r s = .next t) : t.out.length ≤ s.outcap := by
  obtain ⟨-, hr, hcap, ⟨-, rfl⟩ | ⟨e, off, -, rfl⟩⟩ := decCommon_next.mp h
  · simpa [byteUnits, hr] using hcap
  · exact s.raiseErr_out_length_le e off

/-- DEC's OUT fits OUTCAP. -/
theorem execDec_out_length_le (h : execDec v s = .next t) : t.out.length ≤ s.outcap := by
  obtain ⟨-, hcap, ⟨-, rfl⟩ | ⟨e, off, -, rfl⟩⟩ := execDec_next.mp h
  · have hdata : (s.inUnits.take (firstPad s.cfg.width v s.inUnits)).length ≤ s.inp.length := by simp
    calc (byteUnits (decGroups v (s.inUnits.take (firstPad s.cfg.width v s.inUnits)))).length
      _ ≤ ceilDiv (s.inUnits.take (firstPad s.cfg.width v s.inUnits)).length v.family.S * v.family.B := by
        rw [byteUnits, List.length_map]
        exact decGroups_length_le v _
      _ ≤ ceilDiv s.inp.length v.family.S * v.family.B :=
        Nat.mul_le_mul_right _ (ceilDiv_mono v.family.S_pos hdata)
      _ ≤ s.outcap := hcap
  · exact s.raiseErr_out_length_le e off

/-- SFIN's OUT fits OUTCAP, from PENDING below the block size. -/
theorem execSfin_out_length_le (hm : s.ctx.pending.toNat < v.family.B) (h : execSfin v p s = .next t) :
    t.out.length ≤ s.outcap := by
  obtain ⟨-, -, hcap, rfl⟩ := execSfin_next.mp h
  have hB : v.family.B ≤ 5 := by cases v.family <;> decide
  have hlen : s.ctx.carried.length = s.ctx.pending.toNat := by
    rw [carried_length, Nat.min_eq_left (by omega)]
  rw [State.completeOk_out, encTail_length _ v _ p (hlen ▸ hm), hlen]
  exact hcap

/-- Settles O49, by the shape of the command. -/
theorem outFitsOutcap : Obligations.OutFitsOutcap := by
  intro i s t hwf hctx h
  obtain ⟨v, p, rfl⟩ | ⟨v, rfl⟩ | rfl | ⟨v, rfl⟩ | ⟨v, p, rfl⟩ | hi | hi := instr_cases i
  · obtain ⟨-, hcap, rfl⟩ := execEnc_next.mp h
    exact (encAll_length_le _ v p _).trans (by simpa using hcap)
  · exact execDec_out_length_le h
  · obtain ⟨-, rfl⟩ := execCtxinit_next.mp h
    simp
  · obtain ⟨-, -, hcap, rfl⟩ := execSfeed_next.mp h
    exact (encBlocks_length_le _ v _ _).trans hcap
  · exact execSfin_out_length_le (hctx (.inr rfl)) h
  · obtain ⟨n, need, body, hexec, hbody⟩ := exec_of_encodeBlock hi
    obtain ⟨-, hn, hcap, rfl⟩ := encCommon_next.mp (hexec s ▸ h)
    exact (hbody hwf _ _ (by simpa using hn)).trans hcap
  · rw [exec_of_decodeBlock hi] at h
    exact decCommon_out_length_le h

end Sys2Proof.Machine
end

section
/-! The host's context records as a store, and the abstract states of a context (10_state.md R45). -/

namespace Sys2Proof.Machine

variable {s t : State} {x : Context} {v : Variant}

/-- A written record is read under its name. -/
@[simp] theorem ctxRead_ctxWrite_same (cs : List (Nat × Context)) (c : Nat) (x : Context) :
    ctxRead (ctxWrite cs c x) c = x := by
  fun_induction ctxWrite cs c x with
  | case1 => simp [ctxRead]
  | case2 => simp [ctxRead]
  | case3 => simp [ctxRead]
  | case4 c x k y t _ hne ih => simpa [ctxRead, hne] using ih

/-- Every other name reads as before a write. -/
theorem ctxRead_ctxWrite_of_ne (cs : List (Nat × Context)) {c d : Nat} (x : Context) (h : d ≠ c) :
    ctxRead (ctxWrite cs c x) d = ctxRead cs d := by
  fun_induction ctxWrite cs c x with
  | case1 => simp [ctxRead, h]
  | case2 => simp [ctxRead, h]
  | case3 => simp [ctxRead, h]
  | case4 c x k y t _ _ ih => simp [ctxRead, ih h]

/-- Settles O39: the two rules of the store. -/
theorem contextStoreReadsBackWrites : Obligations.ContextStoreReadsBackWrites :=
  fun cs c _ x => ⟨ctxRead_ctxWrite_same cs c x, ctxRead_ctxWrite_of_ne cs x⟩

@[simp] theorem State.setCtx_ctx (s : State) (x : Context) : (s.setCtx x).ctx = x := ctxRead_ctxWrite_same _ _ _
@[simp] theorem State.completeOk_ctx (s : State) (o : List CodeUnit) : (s.completeOk o).ctx = s.ctx := rfl
@[simp] theorem State.drawn_ctx (s : State) : s.drawn.ctx = s.ctx := rfl

/-- An initialised context that is not finalized is EMPTY or PENDING, by its PENDING. -/
theorem Context.abstractState_of_open (hi : x.init = true) (hf : x.fin = false) :
    x.abstractState = if x.pending = 0 then .empty else .pending x.pending.toNat := by
  simp [Context.abstractState, hi, hf]

/-- Such a context with PENDING below `n` is EMPTY or carries 1 to `n - 1` bytes. -/
theorem Context.abstractState_of_pending_lt {n : Nat} (hi : x.init = true) (hf : x.fin = false)
    (hp : x.pending.toNat < n) :
    x.abstractState = .empty ∨ ∃ m, 1 ≤ m ∧ m < n ∧ x.abstractState = .pending m := by
  rw [Context.abstractState_of_open hi hf]
  split
  · exact .inl rfl
  · rename_i h0
    refine .inr ⟨_, Nat.pos_of_ne_zero fun h => h0 (BitVec.eq_of_toNat_eq h), hp, rfl⟩

/-- A context that passes CtxCheck is EMPTY or PENDING (44_streaming.md R211). -/
theorem Context.abstractState_of_ctxCheck (h : ctxCheck x v = none) :
    x.abstractState = .empty ∨ ∃ n, x.abstractState = .pending n := by
  obtain ⟨hi, hf, -⟩ := (ctxCheck_eq_none x v).mp h
  obtain h | ⟨n, -, -, h⟩ := Context.abstractState_of_pending_lt hi hf (Nat.lt_succ_self _)
  · exact .inl h
  · exact .inr ⟨n, h⟩

/-- SFEED counts the bytes it carries in PENDING. -/
theorem feedContext_pending {rem : List Byte} (h : rem.length ≤ 4) :
    (feedContext s v rem).pending.toNat = rem.length := by
  simp only [feedContext, BitVec.toNat_ofNat]
  omega

/-- SFEED leaves PENDING below the block size where it found it so (10_state.md R41). -/
theorem feedContext_pending_lt (h : s.ctx.pending.toNat < v.family.B) :
    (feedContext s v ((s.ctx.carried ++ s.inBytes).drop
      ((s.ctx.pending.toNat + s.inp.length) / v.family.B * v.family.B))).pending.toNat < v.family.B := by
  obtain ⟨hrem, hcells⟩ := feed_rem_length s.ctx v.family s.inBytes h
  rw [State.inBytes_length] at hrem hcells
  rw [feedContext_pending (hrem.trans_le hcells), hrem]
  exact Nat.mod_lt _ v.family.B_pos

/-- Settles O44, from what each streaming command answers. -/
theorem contextStatesFollowTheirTransitions : Obligations.ContextStatesFollowTheirTransitions := by
  intro v p s t
  refine ⟨fun h => ?_, fun h => ?_, fun h => ?_⟩
  · obtain ⟨-, rfl⟩ := execCtxinit_next.mp h
    rw [State.completeOk_ctx, State.setCtx_ctx]
    rfl
  · obtain ⟨-, hc, -, rfl⟩ := execSfeed_next.mp h
    obtain ⟨hi, hf, -⟩ := (ctxCheck_eq_none _ _).mp hc
    rw [State.completeOk_ctx, State.drawn_ctx, State.setCtx_ctx]
    exact ⟨Context.abstractState_of_ctxCheck hc, rfl,
      fun hp => Context.abstractState_of_pending_lt hi hf (feedContext_pending_lt hp)⟩
  · obtain ⟨-, hc, -, rfl⟩ := execSfin_next.mp h
    obtain ⟨hi, -⟩ := (ctxCheck_eq_none _ _).mp hc
    rw [State.completeOk_ctx, State.setCtx_ctx]
    exact ⟨Context.abstractState_of_ctxCheck hc, by simp [Context.abstractState, finalContext, hi]⟩

end Sys2Proof.Machine
end

section
/-! The result registers after a command (10_state.md R30 to R32), and what no command changes (R34). -/

open Sys2Proof.Claims

namespace Sys2Proof.Machine

variable {s t : State} {i : Instr} {v : Variant}

/-- A command that completes leaves OK, COUNT = |OUT| and no ERROFF; or, if it decodes, an error, its index in IN
and no COUNT. -/
theorem exec_results (h : exec i s = .next t) :
    (t.status = .holds .ok ∧ t.erroff = .unwritten ∧ t.count = .holds (regHold s.cfg t.out.length)) ∨
      ∃ code off, isDecode i ∧ code ≠ .ok ∧ off < s.inp.length ∧ t.status = .holds code ∧
        t.erroff = .holds (regHold s.cfg off) ∧ t.count = .unwritten := by
  obtain ⟨o, rfl, -⟩ | ⟨e, off, rfl, he, hoff, hi⟩ | ⟨x, o, rfl | rfl, -, -⟩ := exec_next_cases h
  · exact .inl ⟨rfl, rfl, rfl⟩
  · exact .inr ⟨e, off, hi, he, hoff, rfl, rfl, rfl⟩
  · exact .inl ⟨rfl, rfl, rfl⟩
  · exact .inl ⟨rfl, rfl, rfl⟩

/-- Settles O48: `exec_results`, each register holding what its width allows. -/
theorem resultRegistersAfterEveryCommand : Obligations.ResultRegistersAfterEveryCommand := by
  intro i s t h
  obtain ⟨hst, herr, hcount⟩ | ⟨code, off, -, hcode, hoff, hst, herr, hcount⟩ := exec_results h
  · exact .inl ⟨_, hst, hcount, inReg_regHold _ _, herr⟩
  · exact .inr ⟨code, off, _, hcode, hst, herr, inReg_regHold _ _, hoff, hcount⟩

/-- A D* command's errors are InvalidSymbol and UnexpectedPadding (42_block_decode.md R140). -/
theorem decCommon_status_ne_truncatedInput {r : Nat} (h : decCommon v r s = .next t) :
    t.status ≠ .holds .truncatedInput := by
  obtain ⟨-, -, -, ⟨-, rfl⟩ | ⟨e, off, he, rfl⟩⟩ := decCommon_next.mp h
  · simp
  · obtain ⟨rfl | rfl, -⟩ := blockError_some he <;> simp

/-- Settles O47: the error outcomes of `exec_results`, and what a D* command raises. -/
theorem onlyDecodesReportErrors : Obligations.OnlyDecodesReportErrors := by
  intro i s t h hst
  obtain ⟨hok, -⟩ | ⟨code, -, hi, -, -, hcode, -⟩ := exec_results h
  · exact absurd hok hst
  · refine ⟨hi, ⟨code, hcode⟩, fun htrunc => ?_⟩
    refine (isDecode_iff.mp hi).resolve_right fun hblock => ?_
    rw [exec_of_decodeBlock hblock] at h
    exact decCommon_status_ne_truncatedInput h htrunc

/-- Settles O51: each way to complete writes the result registers, OUT and the draw counter alone, and at most the
record of the command's own context. -/
theorem commandsChangeOnlyTheirResults : Obligations.CommandsChangeOnlyTheirResults := by
  intro i s t h
  obtain ⟨o, rfl, -⟩ | ⟨e, off, rfl, -⟩ | ⟨x, o, ht, -, hi⟩ := exec_next_cases h
  · simp
  · simp
  · have hstream : isStreaming i := by simpa [isStreaming] using hi
    have hother : ∀ d, d ≠ s.ctxSel → ctxRead (ctxWrite s.ctxs s.ctxSel x) d = ctxRead s.ctxs d :=
      fun d => ctxRead_ctxWrite_of_ne s.ctxs x
    obtain rfl | rfl := ht <;> simpa [hstream] using hother

end Sys2Proof.Machine
end

section
/-! The invariant (10_state.md R30 to R33, R41, R45, R46): every command keeps the host's records legal, and every
step the invariant. -/

open Sys2Proof.Claims

namespace Sys2Proof.Machine

variable {s t : State} {i : Instr} {v : Variant} {x : Context}

/-- The host's records are in canonical form and each is in a legal abstract state: `State.Inv` of the store. -/
abbrev StoreLegal (cs : List (Nat × Context)) : Prop := ctxsWf cs = true ∧ cs.all (fun e => e.2.legal) = true

/-- A legal record is an initialised one. -/
theorem Context.init_of_legal (h : x.legal = true) : x.init = true := by
  simp_all [Context.legal]

/-- A bound open record is legal exactly with PENDING below its variant's block size (R41). -/
theorem Context.legal_of_bound (hi : x.init = true) (hf : x.fin = false) (hb : x.bound = some v)
    (hp : x.pending.toNat < v.family.B) : x.legal = true := by
  simp [Context.legal, hi, hf, hb, hp]

/-- A legal record that passes CtxCheck has PENDING below the block size of the variant given (R41). -/
theorem Context.pending_lt_of_legal (h : x.legal = true) (hc : ctxCheck x v = none) :
    x.pending.toNat < v.family.B := by
  obtain ⟨hi, hf, hb | hb⟩ := (ctxCheck_eq_none x v).mp hc
  · have hp : x.pending = 0 := by simpa [Context.legal, hi, hf, hb] using h
    rw [hp]
    exact v.family.B_pos
  · simpa [Context.legal, hi, hf, hb] using h

/-- The context of a command that passes CtxCheck is listed, so it has PENDING below the block size. -/
theorem StoreLegal.pending_lt (h : StoreLegal s.ctxs) (hc : ctxCheck s.ctx v = none) :
    s.ctx.pending.toNat < v.family.B :=
  Context.pending_lt_of_legal
    (List.all_eq_true.mp h.2 _ (ctxRead_listed ((ctxCheck_eq_none _ _).mp hc).1)) hc

/-- Writing a legal record keeps the store legal. -/
theorem StoreLegal.write {cs : List (Nat × Context)} (h : StoreLegal cs) (c : Nat) (hx : x.legal = true) :
    StoreLegal (ctxWrite cs c x) := by
  obtain ⟨hwf, hall⟩ := h
  refine ⟨ctxWrite_wf cs c x hwf (Context.init_of_legal hx), List.all_eq_true.mpr fun e he => ?_⟩
  obtain rfl | he := mem_ctxWrite he
  · exact hx
  · exact List.all_eq_true.mp hall e he

/-- The commands that take a context. -/
theorem isStreaming_iff : isStreaming i ↔ i = .ctxinit ∨ (∃ v, i = .sfeed v) ∨ ∃ v p, i = .sfin v p := by
  cases i <;> simp [isStreaming, Instr.op]

/-- Every command keeps the store legal. -/
theorem exec_storeLegal (h : exec i s = .next t) (hs : StoreLegal s.ctxs) : StoreLegal t.ctxs := by
  by_cases hi : isStreaming i
  · obtain rfl | ⟨v, rfl⟩ | ⟨v, p, rfl⟩ := isStreaming_iff.mp hi
    · obtain ⟨-, rfl⟩ := execCtxinit_next.mp h
      exact hs.write _ rfl
    · obtain ⟨-, hc, -, rfl⟩ := execSfeed_next.mp h
      obtain ⟨hinit, hfin, -⟩ := (ctxCheck_eq_none _ _).mp hc
      exact hs.write _ (Context.legal_of_bound hinit hfin rfl (feedContext_pending_lt (hs.pending_lt hc)))
    · obtain ⟨-, hc, -, rfl⟩ := execSfin_next.mp h
      obtain ⟨hinit, -⟩ := (ctxCheck_eq_none _ _).mp hc
      exact hs.write _ (by simp [Context.legal, finalContext, hinit])
  · obtain ⟨-, -, -, -, -, -, -, hctxs, -⟩ := commandsChangeOnlyTheirResults i s t h
    rwa [hctxs hi]

/-- SFEED and SFIN complete on a context that passes CtxCheck alone (44_streaming.md R211). -/
theorem ctxCheck_of_exec (h : exec i s = .next t) (hi : i.op = .sfeed ∨ i.op = .sfin) :
    ctxCheck s.ctx i.variant = none := by
  cases i with
  | sfeed v =>
    obtain ⟨-, hc, -⟩ := execSfeed_next.mp h
    exact hc
  | sfin v p =>
    obtain ⟨-, hc, -⟩ := execSfin_next.mp h
    exact hc
  | _ => simp [Instr.op] at hi

/-- Every command leaves the result registers coherent (R30 to R32). -/
theorem exec_regsCoherent (h : exec i s = .next t) : t.regsCoherent = true := by
  obtain ⟨hcfg, -, hinp, -⟩ := commandsChangeOnlyTheirResults i s t h
  obtain ⟨hst, herr, hcount⟩ | ⟨code, off, -, hcode, hoff, hst, herr, hcount⟩ := exec_results h
  · simp [State.regsCoherent, hst, herr, hcount, hcfg]
  · have hany : ((List.range s.inp.length).any fun o => regHold s.cfg off == regHold s.cfg o) = true :=
      List.any_eq_true.mpr ⟨off, List.mem_range.mpr hoff, beq_self_eq_true _⟩
    simp [State.regsCoherent, hst, herr, hcount, hcfg, hinp, hcode, hany]

/-- A well-formed command keeps the invariant, whatever the registers and OUT held before it. -/
theorem exec_inv (h : exec i s = .next t) (hwf : i.WellFormed) (hs : StoreLegal s.ctxs) (hf : s.faults.Nodup) :
    t.Inv := by
  obtain ⟨-, -, -, hcap, -, -, hfaults, -⟩ := commandsChangeOnlyTheirResults i s t h
  obtain ⟨hctxs, hlegal⟩ := exec_storeLegal h hs
  have hout := outFitsOutcap i s t hwf (fun hi => hs.pending_lt (ctxCheck_of_exec h hi)) h
  exact ⟨hctxs, hlegal, exec_regsCoherent h, hcap ▸ hout, hfaults ▸ hf⟩

/-- Settles O59, by what the step took from the queue. -/
theorem stepKeepsTheInvariant : Obligations.StepKeepsTheInvariant := by
  intro s t hinv h
  obtain ⟨hwf, hlegal, hregs, hout, hfaults⟩ := hinv
  obtain ⟨-, ⟨-, rfl⟩ | ⟨a, rest, -, ⟨r, -, hr⟩ | ⟨r, y, -, -, rfl⟩ | ⟨-, rfl⟩⟩⟩ := step_next_cases h
  · exact ⟨hwf, hlegal, hregs, hout, hfaults⟩
  · obtain ⟨i, hdecode, -, hexec⟩ := transact_next.mp hr
    exact exec_inv hexec (wellFormed_of_decode hdecode) ⟨hwf, hlegal⟩ hfaults
  · exact ⟨hwf, hlegal, hregs, hout, hfaults⟩
  · exact ⟨hwf, hlegal, rfl, hout, List.nodup_nil⟩

end Sys2Proof.Machine
end

section
/-! The alphabet ROM (10_state.md R22 to R29): each forward table is a list of distinct entries without the pad, and
the reverse table reads off the place of an entry in it. -/

open Sys2Proof.Claims

namespace Sys2Proof.Machine

variable (v : Variant)

/-- A forward table has an entry for every k-bit value (R22). -/
@[simp] theorem fwdTable_length : (fwdTable v).length = 2 ^ v.family.k := by cases v <;> decide

/-- Its entries are distinct (R29). -/
theorem fwdTable_nodup : (fwdTable v).Nodup := by cases v <;> decide

/-- None of them is the pad (R29). -/
theorem PAD_notMem_fwdTable : PAD v ∉ fwdTable v := by cases v <;> decide

variable {v} {i : Nat} {c : CodeUnit}

/-- `FWD` at a k-bit value is the entry there. -/
theorem FWD_eq_getElem (h : i < (fwdTable v).length) : FWD v i = (fwdTable v)[i] :=
  List.getD_eq_getElem _ _ h

/-- `FWD` is injective on the k-bit values (R29). -/
theorem FWD_inj {j : Nat} (hi : i < 2 ^ v.family.k) (hj : j < 2 ^ v.family.k) (h : FWD v i = FWD v j) : i = j := by
  rw [← fwdTable_length] at hi hj
  rw [FWD_eq_getElem hi, FWD_eq_getElem hj] at h
  exact (fwdTable_nodup v).getElem_inj_iff.mp h

/-- No k-bit value gives the pad (R29). -/
theorem FWD_ne_PAD (hi : i < 2 ^ v.family.k) : FWD v i ≠ PAD v := by
  rw [← fwdTable_length] at hi
  rw [FWD_eq_getElem hi]
  exact fun h => PAD_notMem_fwdTable v (h ▸ List.getElem_mem hi)

/-- A symbol as a code unit is the same number at every W (20_memory.md R63). -/
@[simp] theorem zextW_toNat (w : Width) (b : Byte) : (zextW w b).toNat = b.toNat := by
  have hb := b.isLt
  cases w <;> simp [zextW, Width.bits] <;> omega

/-- `REV` is the place in the forward table at which a code unit stands (R28). -/
theorem REV_eq_some_iff : REV v c = some i ↔ c.toNat < 256 ∧ i < 2 ^ v.family.k ∧ (FWD v i).toNat = c.toNat := by
  unfold REV
  split
  · rename_i hc
    rw [List.findIdx?_eq_some_iff_getElem, ← fwdTable_length]
    constructor
    · rintro ⟨hi, heq, -⟩
      exact ⟨hc, hi, by simpa [FWD_eq_getElem hi] using heq⟩
    · rintro ⟨-, hi, heq⟩
      refine ⟨hi, by simpa [FWD_eq_getElem hi] using heq, fun j hji hj => ?_⟩
      have hsame : FWD v j = FWD v i := by
        rw [← FWD_eq_getElem, beq_iff_eq] at hj
        exact BitVec.eq_of_toNat_eq (hj.trans heq.symm)
      rw [fwdTable_length] at hi
      exact hji.ne (FWD_inj (hji.trans hi) hi hsame)
  · simp [*]

/-- The reverse table inverts the forward table (R29). -/
theorem REV_zextW_FWD (w : Width) (hi : i < 2 ^ v.family.k) : REV v (zextW w (FWD v i)) = some i :=
  REV_eq_some_iff.mpr ⟨by rw [zextW_toNat]; exact (FWD v i).isLt, hi, (zextW_toNat w _).symm⟩

/-- The pad has no value (R28). -/
theorem REV_zextW_PAD (v : Variant) (w : Width) : REV v (zextW w (PAD v)) = none := by
  refine Option.eq_none_iff_forall_ne_some.mpr fun i h => ?_
  obtain ⟨-, hi, heq⟩ := REV_eq_some_iff.mp h
  exact FWD_ne_PAD hi (BitVec.eq_of_toNat_eq (heq.trans (zextW_toNat w _)))

/-- Settles O12, from the facts about each table. -/
theorem romTablesAreInverse : Obligations.RomTablesAreInverse :=
  fun v => ⟨fwdTable_length v, fun _ _ => FWD_inj, fun _ => FWD_ne_PAD, fun w _ => REV_zextW_FWD w, rfl,
    List.getD_eq_default _ _ (fwdTable_length v).le⟩

/-- Every entry of a forward table stands in one of the ranges of R28, at its place there. -/
theorem exists_revRange (v : Variant) :
    ∀ i < 2 ^ v.family.k, ∃ e ∈ revRanges v,
      e.1 ≤ (FWD v i).toNat ∧ (FWD v i).toNat ≤ e.2.1 ∧ i = e.2.2 + ((FWD v i).toNat - e.1) := by
  cases v <;> decide

/-- Every code unit of a range of R28 stands in the forward table, at its place in the range. -/
theorem FWD_of_revRange (v : Variant) :
    ∀ e ∈ revRanges v, ∀ c ≤ e.2.1, e.1 ≤ c →
      c < 256 ∧ e.2.2 + (c - e.1) < 2 ^ v.family.k ∧ (FWD v (e.2.2 + (c - e.1))).toNat = c := by
  cases v <;> decide

/-- Settles O13: `REV_eq_some_iff`, and that the forward table lists the ranges of R28. -/
theorem reverseTableIsExact : Obligations.ReverseTableIsExact := by
  intro v c
  refine ⟨fun i => REV_eq_some_iff, fun w hc => hc ▸ REV_zextW_PAD v w, fun hc => ?_, fun i => ?_⟩
  · simp [REV, Nat.not_lt.mpr hc]
  · rw [REV_eq_some_iff]
    constructor
    · rintro ⟨-, hi, heq⟩
      exact heq ▸ exists_revRange v i hi
    · rintro ⟨e, he, hlow, hhigh, rfl⟩
      exact FWD_of_revRange v e he _ hhigh hlow

end Sys2Proof.Machine
end

section
/-! The geometry functions (10_state.md R20, R21) and the step of a command (70_reset_and_hazards.md R286). -/

open Sys2Proof.Claims

namespace Sys2Proof.Machine

/-- The bytes of `n` symbols are their whole bytes: `tbytes` is a floor (R21). -/
theorem tbytes_floor (f : Family) (n : Nat) : f.tbytes n * 8 ≤ n * f.k ∧ n * f.k < f.tbytes n * 8 + 8 := by
  rw [Family.tbytes]
  omega

/-- The symbols of `n` bytes are the fewest that hold their bits: `tsym` is a ceiling (R21). -/
theorem tsym_ceiling (f : Family) (n : Nat) : 8 * n ≤ f.tsym n * f.k ∧ f.tsym n * f.k < 8 * n + f.k :=
  ⟨le_ceilDiv_mul _ f.k_pos, ceilDiv_mul_lt _ f.k_pos⟩

/-- Settles O11: the tables entry by entry, and the two formulas for every length. -/
theorem geometryIsTheListedOne : Obligations.GeometryIsTheListedOne := by
  refine ⟨fun v => by cases v <;> decide, ?_⟩
  iterate 12 refine ⟨by decide, ?_⟩
  exact fun f n => ⟨tsym_ceiling f n, tbytes_floor f n⟩

/-- A step of an unfaulted block takes the host's oldest action. -/
theorem step_of_action {s : State} {a : HostAction} {rest : List HostAction} (hf : s.faults = [])
    (hq : s.queue = a :: rest) : step s = act a { s with queue := rest } := by
  simp [step, nextStep, hf, hq]

/-- A transaction that decodes and fits runs its command on its operands. -/
theorem transact_of_fits {s : State} {r : Request} {i : Instr} (hd : decode r.cmd = .ok i)
    (hfit : r.fits s.cfg.width i.op = true) : transact r s = exec i (s.latch r) := by
  simp [transact, hd, hfit]

/-- Settles O8: the step is the transaction, and the transaction the command on its operands. -/
theorem stepRunsTheDecodedCommand : Obligations.StepRunsTheDecodedCommand := by
  intro s r rest i hf hq hd hfit
  rw [step_of_action hf hq]
  exact transact_of_fits hd hfit

end Sys2Proof.Machine
end

section
/-! Noninterference (10_state.md R36, R42; 20_memory.md R68): a command's results depend on its operands alone. -/

open Sys2Proof.Claims

namespace Sys2Proof.Machine

variable {s s' : State} {v : Variant} {x y : Context}

/-! ### Contexts alike -/

@[simp] theorem State.raiseErr_ctx (s : State) (e : Status) (off : Nat) : (s.raiseErr e off).ctx = s.ctx := rfl

/-- CtxCheck does not tell contexts alike apart. -/
theorem ctxCheck_congr (h : sameContext x y) : ctxCheck x v = ctxCheck y v := by
  obtain ⟨hinit, hfin, hbound, -⟩ := h
  rw [ctxCheck, hinit, hfin, hbound, ctxCheck]

/-- SFEED leaves less than a block uncarried, which fits the carry cells, from every PENDING. -/
theorem feed_rem_length_le (x : Context) (f : Family) (b : List Byte) :
    ((x.carried ++ b).drop ((x.pending.toNat + b.length) / f.B * f.B)).length ≤ 4 := by
  have hB : f.B ≤ 5 := by cases f <;> decide
  have hmod := Nat.mod_lt (x.pending.toNat + b.length) f.B_pos
  have hdiv := Nat.div_add_mod' (x.pending.toNat + b.length) f.B
  rw [List.length_drop, List.length_append, carried_length]
  omega

/-- The carry SFEED leaves is the remainder, whatever the cells above it hold. -/
theorem feedContext_carried {rem : List Byte} (h : rem.length ≤ 4) : (feedContext s v rem).carried = rem := by
  rw [Context.carried, feedContext_pending h]
  exact carryOf_take rem _ h

/-- SFEED leaves contexts alike that it found alike and left one remainder in. -/
theorem sameContext_feedContext {rem : List Byte} (hctx : sameContext s.ctx s'.ctx) (h : rem.length ≤ 4) :
    sameContext (feedContext s v rem) (feedContext s' v rem) := by
  obtain ⟨hinit, hfin, -⟩ := hctx
  exact ⟨hinit, hfin, rfl, fun _ => ⟨rfl, (feedContext_carried h).trans (feedContext_carried h).symm⟩⟩

/-- SFIN leaves contexts alike that it found alike. -/
theorem sameContext_finalContext (h : sameContext x y) : sameContext (finalContext x v) (finalContext y v) := by
  obtain ⟨hinit, -⟩ := h
  exact ⟨hinit, rfl, rfl, fun _ => ⟨rfl, rfl⟩⟩

/-! ### Outcomes alike -/

/-- Outcomes of one command in `s` and `s'` that no host can tell apart: the same fault, or next states that answer
alike and whose contexts are alike if those of `s` and `s'` were. -/
inductive SameOutcome (s s' : State) :
    Host.Outcome State Fault Refusal → Host.Outcome State Fault Refusal → Prop
  | fault (f : Fault) : SameOutcome s s' (.fault f) (.fault f)
  | next {t t' : State} (answer : sameAnswer t t') (context : sameContext s.ctx s'.ctx → sameContext t.ctx t'.ctx) :
    SameOutcome s s' (.next t) (.next t')

/-- The same check stands before two outcomes alike. -/
theorem SameOutcome.check {c : Prop} [Decidable c] {f : Fault} {a b : Host.Outcome State Fault Refusal}
    (h : SameOutcome s s' a b) : SameOutcome s s' (if c then .fault f else a) (if c then .fault f else b) := by
  split
  · exact .fault f
  · exact h

section
variable (hcfg : s.cfg = s'.cfg) (hinp : s.inp = s'.inp) (hcap : s.outcap = s'.outcap)
include hcfg

/-- The same OUT is the same answer, whatever became of the contexts and the draws. -/
theorem sameAnswer_completeOk (o : List CodeUnit) : sameAnswer (s.completeOk o) (s'.completeOk o) := by
  simp [sameAnswer, hcfg]

/-- Commands that complete with the same OUT and touch no context. -/
theorem sameOutcome_completeOk (o : List CodeUnit) :
    SameOutcome s s' (.next (s.completeOk o)) (.next (s'.completeOk o)) :=
  .next (sameAnswer_completeOk hcfg o) id

/-- Commands that raise the same error: OUT is unspecified then (R33). -/
theorem sameOutcome_raiseErr {e : Status} (he : e ≠ .ok) (off : Nat) :
    SameOutcome s s' (.next (s.raiseErr e off)) (.next (s'.raiseErr e off)) :=
  .next (by simp [sameAnswer, hcfg, he]) id

include hinp

/-- The length checks read W, MAX_LEN and IN alone. -/
theorem State.tooLong_congr : s.tooLong = s'.tooLong := by rw [State.tooLong, hcfg, hinp, State.tooLong]

theorem State.fixedTooLong_congr : s.fixedTooLong = s'.fixedTooLong := by
  rw [State.fixedTooLong, State.tooLong_congr hcfg hinp, hcfg, State.fixedTooLong]

/-- IN on either kind of lanes is read from IN and W alone. -/
theorem State.inUnits_congr : s.inUnits = s'.inUnits := by rw [State.inUnits, hcfg, hinp, State.inUnits]

omit hcfg in
theorem State.inBytes_congr : s.inBytes = s'.inBytes := by rw [State.inBytes, hinp, State.inBytes]

/-! ### Each meaning -/

theorem execCtxinit_sameOutcome : SameOutcome s s' (execCtxinit s) (execCtxinit s') := by
  rw [execCtxinit, execCtxinit, State.fixedTooLong_congr hcfg hinp, hinp]
  refine .check (.check (.next (sameAnswer_completeOk hcfg []) fun _ => ?_))
  simp [sameContext]

include hcap

theorem encCommon_sameOutcome (n need : Nat) (body : List Byte → List CodeUnit) :
    SameOutcome s s' (encCommon n need body s) (encCommon n need body s') := by
  rw [encCommon, encCommon, State.fixedTooLong_congr hcfg hinp, State.inBytes_congr hinp, hinp, hcap]
  exact .check (.check (.check (sameOutcome_completeOk hcfg _)))

theorem decCommon_sameOutcome (v : Variant) (r : Nat) : SameOutcome s s' (decCommon v r s) (decCommon v r s') := by
  rw [decCommon, decCommon, State.fixedTooLong_congr hcfg hinp, State.inUnits_congr hcfg hinp, hinp, hcap, hcfg]
  refine .check (.check (.check ?_))
  cases herr : blockError s'.cfg.width v s'.inUnits with
  | none => exact sameOutcome_completeOk hcfg _
  | some e =>
    obtain ⟨he, -⟩ := blockError_some herr
    exact sameOutcome_raiseErr hcfg (by rcases he with he | he <;> simp [he]) _

theorem execEnc_sameOutcome (v : Variant) (p : Bool) : SameOutcome s s' (execEnc v p s) (execEnc v p s') := by
  rw [execEnc, execEnc, State.tooLong_congr hcfg hinp, State.inBytes_congr hinp, hinp, hcap, hcfg]
  exact .check (.check (sameOutcome_completeOk hcfg _))

theorem execDec_sameOutcome (v : Variant) : SameOutcome s s' (execDec v s) (execDec v s') := by
  rw [execDec, execDec, State.tooLong_congr hcfg hinp, State.inUnits_congr hcfg hinp, hinp, hcap, hcfg]
  refine .check (.check ?_)
  cases herr : bulkError s'.cfg.width v s'.inUnits with
  | none => exact sameOutcome_completeOk hcfg _
  | some e =>
    obtain ⟨he, -⟩ := bulkError_some herr
    exact sameOutcome_raiseErr hcfg he _

variable (hctx : sameContext s.ctx s'.ctx)
include hctx

theorem execSfeed_sameOutcome (v : Variant) : SameOutcome s s' (execSfeed v s) (execSfeed v s') := by
  rw [execSfeed, execSfeed, State.tooLong_congr hcfg hinp, ctxCheck_congr hctx]
  refine .check ?_
  cases hc : ctxCheck s'.ctx v with
  | some f => exact .fault f
  | none =>
    obtain ⟨hinit, -⟩ := (ctxCheck_eq_none _ _).mp hc
    obtain ⟨hsame, -, -, hcarry⟩ := hctx
    obtain ⟨hpending, hcarried⟩ := hcarry (hsame.trans hinit)
    have hrem := feed_rem_length_le s'.ctx v.family s'.inBytes
    rw [State.inBytes_length] at hrem
    simp only [hpending, hcarried, State.inBytes_congr hinp, hinp, hcap, hcfg]
    refine .check (.next (sameAnswer_completeOk (by simp [hcfg]) _) fun hctx => ?_)
    simpa using sameContext_feedContext hctx hrem

theorem execSfin_sameOutcome (v : Variant) (p : Bool) : SameOutcome s s' (execSfin v p s) (execSfin v p s') := by
  rw [execSfin, execSfin, State.fixedTooLong_congr hcfg hinp, ctxCheck_congr hctx, hinp]
  refine .check (.check ?_)
  cases hc : ctxCheck s'.ctx v with
  | some f => exact .fault f
  | none =>
    obtain ⟨hinit, -⟩ := (ctxCheck_eq_none _ _).mp hc
    obtain ⟨hsame, -, -, hcarry⟩ := hctx
    obtain ⟨hpending, hcarried⟩ := hcarry (hsame.trans hinit)
    simp only [hpending, hcarried, hcap, hcfg]
    refine .check (.next (sameAnswer_completeOk (by simp [hcfg]) _) fun hctx => ?_)
    simpa using sameContext_finalContext hctx

end

/-- Every command has outcomes alike on operands alike. -/
theorem exec_sameOutcome {i : Instr} (hcfg : s.cfg = s'.cfg) (hinp : s.inp = s'.inp) (hcap : s.outcap = s'.outcap)
    (hctx : isStreaming i → sameContext s.ctx s'.ctx) : SameOutcome s s' (exec i s) (exec i s') := by
  obtain ⟨v, p, rfl⟩ | ⟨v, rfl⟩ | rfl | ⟨v, rfl⟩ | ⟨v, p, rfl⟩ | hi | hi := instr_cases i
  · exact execEnc_sameOutcome hcfg hinp hcap v p
  · exact execDec_sameOutcome hcfg hinp hcap v
  · exact execCtxinit_sameOutcome hcfg hinp
  · exact execSfeed_sameOutcome hcfg hinp hcap (hctx (.inr (.inl rfl))) v
  · exact execSfin_sameOutcome hcfg hinp hcap (hctx (.inr (.inr rfl))) v p
  · obtain ⟨n, need, body, hexec, -⟩ := exec_of_encodeBlock hi
    rw [hexec, hexec, hcfg]
    exact encCommon_sameOutcome hcfg hinp hcap n need _
  · rw [exec_of_decodeBlock hi]
    exact decCommon_sameOutcome hcfg hinp hcap _ _

/-- Settles O52: `exec_sameOutcome`, read for faults and for next states. -/
theorem resultsDependOnOperandsAlone : Obligations.ResultsDependOnOperandsAlone := by
  intro i s s' hcfg hinp hcap hctx
  have h := exec_sameOutcome hcfg hinp hcap hctx
  generalize exec i s = a, exec i s' = b at h
  cases h with
  | fault f => exact ⟨fun g => Iff.rfl, fun t ht => by cases ht⟩
  | next answer context =>
    refine ⟨fun g => by simp, fun t ht => ?_⟩
    cases ht
    exact ⟨_, rfl, answer, fun hi => context (hctx hi)⟩

end Sys2Proof.Machine
end

section
/-! The element types of OUT (20_memory.md R62, R63): encode commands write symbols of their alphabet and pads, decode
commands bytes. -/

open Sys2Proof.Claims

namespace Sys2Proof.Machine

variable {s t : State} {i : Instr} {w : Width} {v : Variant} {p : Bool} {x : CodeUnit} {b : List Byte}

/-- A symbol of the variant's alphabet as a code unit (20_memory.md R63). -/
def IsSymbol (w : Width) (v : Variant) (x : CodeUnit) : Prop :=
  ∃ g, g < 2 ^ v.family.k ∧ x = zextW w (FWD v g)

/-- A byte widened to a code unit is below 256. -/
theorem zextW_toNat_lt (w : Width) (b : Byte) : (zextW w b).toNat < 256 := by
  rw [zextW_toNat]
  exact b.isLt

/-- Symbols and pads are below 256: bits W-1..8 are zero (R63). -/
theorem toNat_lt_of_pad_or_symbol (h : x = zextW w (PAD v) ∨ IsSymbol w v x) : x.toNat < 256 := by
  obtain rfl | ⟨g, -, rfl⟩ := h
  · exact zextW_toNat_lt w _
  · exact zextW_toNat_lt w _

/-- Bytes as elements of OUT are below 256 (R62). -/
theorem toNat_lt_of_mem_byteUnits (h : x ∈ byteUnits b) : x.toNat < 256 := by
  obtain ⟨y, -, rfl⟩ := List.mem_map.mp h
  rw [BitVec.toNat_setWidth]
  exact (Nat.mod_le _ _).trans_lt y.isLt

/-- `EncSyms` gives symbols alone (41_block_encode.md R100). -/
theorem isSymbol_of_mem_encSyms (h : x ∈ encSyms w v b) : IsSymbol w v x := by
  obtain ⟨g, hg, rfl⟩ := List.mem_map.mp h
  exact ⟨g, pack_lt hg, rfl⟩

/-- Full blocks give symbols alone (43_bulk.md R180). -/
theorem isSymbol_of_mem_encBlocks {n : Nat} (h : x ∈ encBlocks w v n b) : IsSymbol w v x := by
  obtain ⟨_, -, hx⟩ := List.mem_flatMap.mp h
  exact isSymbol_of_mem_encSyms hx

/-- Symbols with pads after them, if any, are symbols and pads. -/
theorem pad_or_symbol_of_mem_padded {n : Nat}
    (h : x ∈ encSyms w v b ++ if p then List.replicate n (zextW w (PAD v)) else []) :
    x = zextW w (PAD v) ∨ IsSymbol w v x := by
  obtain hx | hx := List.mem_append.mp h
  · exact .inr (isSymbol_of_mem_encSyms hx)
  · cases p
    · simp at hx
    · exact .inl (List.eq_of_mem_replicate hx)

/-- A tail block gives symbols and pads (41_block_encode.md R100). -/
theorem pad_or_symbol_of_mem_encTail (h : x ∈ encTail w v b p) : x = zextW w (PAD v) ∨ IsSymbol w v x := by
  unfold encTail at h
  split at h
  · simp at h
  · exact pad_or_symbol_of_mem_padded h

/-- An E* command writes symbols and pads. -/
theorem pad_or_symbol_of_mem_encodeBlock (hi : i.op ∈ encodeBlockOps) (h : exec i s = .next t) (hx : x ∈ t.out) :
    x = zextW s.cfg.width (PAD i.variant) ∨ IsSymbol s.cfg.width i.variant x := by
  cases i with
  | e64t1 v p | e64t2 v p | e32t1 v p | e32t2 v p | e32t3 v p | e32t4 v p =>
    obtain ⟨-, -, -, rfl⟩ := (encCommon_next (body := fun b => encTail s.cfg.width v b p)).mp h
    exact pad_or_symbol_of_mem_encTail hx
  | e64b3 v | e32b5 v | e16b1 v =>
    obtain ⟨-, -, -, rfl⟩ := encCommon_next.mp h
    exact .inr (isSymbol_of_mem_encSyms hx)
  | e64b6 v =>
    obtain ⟨-, -, -, rfl⟩ := (encCommon_next
      (body := fun b => encSyms s.cfg.width v (b.take 3) ++ encSyms s.cfg.width v (b.drop 3))).mp h
    exact .inr ((List.mem_append.mp hx).elim isSymbol_of_mem_encSyms isSymbol_of_mem_encSyms)
  | _ => simp [Instr.op, encodeBlockOps] at hi

/-- Every command that is no decode writes symbols and pads (R63). -/
theorem pad_or_symbol_of_mem_out (hi : ¬ isDecode i) (h : exec i s = .next t) (hx : x ∈ t.out) :
    x = zextW s.cfg.width (PAD i.variant) ∨ IsSymbol s.cfg.width i.variant x := by
  obtain ⟨v, p, rfl⟩ | ⟨v, rfl⟩ | rfl | ⟨v, rfl⟩ | ⟨v, p, rfl⟩ | hblock | hblock := instr_cases i
  · obtain ⟨-, -, rfl⟩ := execEnc_next.mp h
    rw [State.completeOk_out, encAll_eq] at hx
    exact pad_or_symbol_of_mem_padded hx
  · exact absurd (isDecode_iff.mpr (.inl rfl)) hi
  · obtain ⟨-, rfl⟩ := execCtxinit_next.mp h
    simp at hx
  · obtain ⟨-, -, -, rfl⟩ := execSfeed_next.mp h
    exact .inr (isSymbol_of_mem_encBlocks hx)
  · obtain ⟨-, -, -, rfl⟩ := execSfin_next.mp h
    exact pad_or_symbol_of_mem_encTail hx
  · exact pad_or_symbol_of_mem_encodeBlock hblock h hx
  · exact absurd (isDecode_iff.mpr (.inr hblock)) hi

/-- Every decode command leaves bytes in OUT, after an error too (R62; log entry 7). -/
theorem exists_out_eq_byteUnits (hi : isDecode i) (h : exec i s = .next t) : ∃ b, t.out = byteUnits b := by
  obtain hdec | hblock := isDecode_iff.mp hi
  · cases i with
    | dec v =>
      obtain ⟨-, -, ⟨-, rfl⟩ | ⟨e, off, -, rfl⟩⟩ := execDec_next.mp h
      · exact ⟨_, rfl⟩
      · exact ⟨_, rfl⟩
    | _ => simp [Instr.op] at hdec
  · rw [exec_of_decodeBlock hblock] at h
    obtain ⟨-, -, -, ⟨-, rfl⟩ | ⟨e, off, -, rfl⟩⟩ := decCommon_next.mp h
    · exact ⟨_, rfl⟩
    · exact ⟨_, rfl⟩

/-- Settles O50, by the direction of the command. -/
theorem writtenElementsHaveTheirType : Obligations.WrittenElementsHaveTheirType := by
  intro i s t h x hx
  by_cases hi : isDecode i
  · obtain ⟨b, hb⟩ := exists_out_eq_byteUnits hi h
    exact ⟨toNat_lt_of_mem_byteUnits (hb ▸ hx), (absurd hi ·)⟩
  · have hsym := pad_or_symbol_of_mem_out hi h hx
    exact ⟨toNat_lt_of_pad_or_symbol hsym, fun _ => hsym⟩

end Sys2Proof.Machine
end

section
/-! Transactions on different contexts (20_memory.md R70; 70_reset_and_hazards.md R284): what a transaction leaves
alone, and that its answer depends on its own operands and context. -/

open Sys2Proof.Claims

namespace Sys2Proof.Machine

variable {s s' t u : State} {r : Request} {c : Nat}

/-! ### Likeness -/

/-- A context is like itself. -/
theorem sameContext_refl (x : Context) : sameContext x x := ⟨rfl, rfl, rfl, fun _ => ⟨rfl, rfl⟩⟩

/-- Answers are alike either way round. -/
theorem sameAnswer_symm (h : sameAnswer t u) : sameAnswer u t := by
  obtain ⟨hstatus, herroff, hcount, hout⟩ := h
  exact ⟨hstatus.symm, herroff.symm, hcount.symm, fun hok => (hout (hstatus.trans hok)).symm⟩

/-! ### One transaction -/

/-- The transaction takes this context: its command is one that takes a context, and it names this one
(20_memory.md R60). -/
def Request.Takes (r : Request) (c : Nat) : Prop := usesContext r ∧ r.ctx = c

/-- W and MAX_LEN are the same after a transaction (70_reset_and_hazards.md R272). -/
theorem transact_cfg (h : transact r s = .next t) : t.cfg = s.cfg := by
  obtain ⟨i, -, -, hexec⟩ := transact_next.mp h
  obtain ⟨hcfg, -⟩ := commandsChangeOnlyTheirResults i _ t hexec
  exact hcfg

/-- A transaction leaves its context selected. -/
theorem transact_ctxSel (h : transact r s = .next t) : t.ctxSel = r.ctx := by
  obtain ⟨i, -, -, hexec⟩ := transact_next.mp h
  obtain ⟨-, -, -, -, hsel, -⟩ := commandsChangeOnlyTheirResults i _ t hexec
  exact hsel

/-- A transaction changes no context that it does not take (10_state.md R34). -/
theorem transact_ctxRead_of_not_takes (h : transact r s = .next t) (hc : ¬ r.Takes c) :
    ctxRead t.ctxs c = ctxRead s.ctxs c := by
  obtain ⟨i, hdecode, -, hexec⟩ := transact_next.mp h
  obtain ⟨-, -, -, -, -, -, -, hstore, hother⟩ := commandsChangeOnlyTheirResults i _ t hexec
  by_cases hi : isStreaming i
  · exact hother c fun hsel => hc ⟨⟨i, hdecode, hi⟩, hsel.symm⟩
  · rw [hstore hi, State.latch_ctxs]

/-- A transaction reads W, MAX_LEN and its own operands and context alone (20_memory.md R68): where these are alike
it gives the same answer, and it leaves every context alike that it found alike. -/
theorem transact_congr (hcfg : s.cfg = s'.cfg)
    (hctx : ∀ c, r.Takes c → sameContext (ctxRead s.ctxs c) (ctxRead s'.ctxs c)) (h : transact r s = .next t) :
    ∃ t', transact r s' = .next t' ∧ sameAnswer t t' ∧
      ∀ c, sameContext (ctxRead s.ctxs c) (ctxRead s'.ctxs c) → sameContext (ctxRead t.ctxs c) (ctxRead t'.ctxs c) := by
  obtain ⟨i, hdecode, hfits, hexec⟩ := transact_next.mp h
  obtain ⟨-, halike⟩ := resultsDependOnOperandsAlone i (s.latch r) (s'.latch r) hcfg rfl rfl
    fun hi => hctx _ ⟨⟨i, hdecode, hi⟩, rfl⟩
  obtain ⟨t', hexec', hanswer, hown⟩ := halike t hexec
  have h' : transact r s' = .next t' := transact_next.mpr ⟨i, hdecode, hcfg ▸ hfits, hexec'⟩
  refine ⟨t', h', hanswer, fun c hc => ?_⟩
  by_cases htakes : r.Takes c
  · obtain ⟨⟨j, hj, hstream⟩, rfl⟩ := htakes
    obtain rfl : i = j := Except.ok.inj (hdecode.symm.trans hj)
    simpa [State.ctx, transact_ctxSel h, transact_ctxSel h'] using hown hstream
  · rwa [transact_ctxRead_of_not_takes h htakes, transact_ctxRead_of_not_takes h' htakes]

/-- Settles O53: each transaction finds the context it takes as the other one left it alone, so it answers alike
before and after the other. -/
theorem independentCommandsCommute : Obligations.IndependentCommandsCommute := by
  intro a b s ta tab hdisjoint ha hb
  have hapart (c : Nat) : a.Takes c → ¬ b.Takes c :=
    fun ⟨hua, hca⟩ ⟨hub, hcb⟩ => hdisjoint hua hub (hca.trans hcb.symm)
  have hab (c : Nat) (hc : ¬ a.Takes c) : sameContext (ctxRead ta.ctxs c) (ctxRead s.ctxs c) :=
    transact_ctxRead_of_not_takes ha hc ▸ sameContext_refl _
  obtain ⟨tb, hb', hanswerb, hctxb⟩ := transact_congr (transact_cfg ha) (fun c hbc => hab c (hapart c · hbc)) hb
  have hba (c : Nat) (hc : ¬ b.Takes c) : sameContext (ctxRead s.ctxs c) (ctxRead tb.ctxs c) :=
    transact_ctxRead_of_not_takes hb' hc ▸ sameContext_refl _
  obtain ⟨tba, ha', hanswera, hctxa⟩ := transact_congr (transact_cfg hb').symm (fun c hac => hba c (hapart c hac)) ha
  refine ⟨tb, tba, hb', ha', sameAnswer_symm hanswerb, sameAnswer_symm hanswera, fun c => ?_⟩
  by_cases hbc : b.Takes c
  · have hac : ¬ a.Takes c := (hapart c · hbc)
    rw [transact_ctxRead_of_not_takes ha' hac]
    exact hctxb c (hab c hac)
  · rw [transact_ctxRead_of_not_takes hb hbc]
    exact hctxa c (hba c hbc)

end Sys2Proof.Machine
end

section
/-! The decoder and the encoder of command words (30_encoding.md R81 to R86): the tables of codes, the fields of a
word, the five checks, and that the two are inverse to each other. -/

namespace Sys2Proof

open Machine

variable {w : CmdWord} {i : Instr} {o : Op} {v : Variant} {p : Bool}

/-! ### The tables of codes (R82, R85) -/

/-- An OP value names the operation whose code it is. -/
theorem opOfCode_eq_some_iff {c : BitVec 8} : opOfCode c = some o ↔ o.code = c := by
  have hcode : ∀ c : BitVec 8, ∀ x ∈ opOfCode c, x.code = c := by decide
  refine ⟨fun h => hcode c o h, fun h => ?_⟩
  subst h
  cases o <;> rfl

/-- A VAR value names the variant whose code it is. -/
theorem variantOfCode_eq_some_iff {c : BitVec 5} : variantOfCode c = some v ↔ v.code = c := by
  have hcode : ∀ c : BitVec 5, ∀ x ∈ variantOfCode c, x.code = c := by decide
  refine ⟨fun h => hcode c v h, fun h => ?_⟩
  subst h
  cases v <;> rfl

/-- Only base64 has the code 0x00. -/
theorem Variant.code_eq_zero_iff : v.code = 0 ↔ v = .base64 := by cases v <;> decide

/-- The variant a word names: the one whose code VAR is, and VAR is 0x00 for CTXINIT (R86, check 3). -/
theorem variantOf_eq_some_iff {c : BitVec 5} :
    o.variantOf c = some v ↔ v.code = c ∧ (o = .ctxinit → c = 0) := by
  cases o with
  | ctxinit =>
    by_cases hc : c = 0
    · subst hc
      simpa [Op.variantOf] using (Variant.code_eq_zero_iff.trans eq_comm).symm
    · rw [Op.variantOf, if_neg hc]
      simpa using fun _ => hc
  | _ => simp [Op.variantOf, variantOfCode_eq_some_iff]

/-- VAR names no variant where it is reserved, or not 0x00 for CTXINIT. -/
theorem variantOf_eq_none_iff {c : BitVec 5} :
    o.variantOf c = none ↔ (∀ v : Variant, v.code ≠ c) ∨ (o = .ctxinit ∧ c ≠ 0) := by
  simp only [Option.eq_none_iff_forall_ne_some, ne_eq, variantOf_eq_some_iff, not_and, Classical.not_imp]
  grind

/-- The "fam" column of R85 read as check 4 reads it. -/
theorem takesFamily_iff {f : Family} : o.takesFamily f = true ↔ o.family = none ∨ o.family = some f := by
  unfold Op.takesFamily
  cases o.family <;> simp [eq_comm]

/-! ### An operation, a variant and a padding flag as an instruction -/

/-- An instruction is made of its operation, its variant and its padding flag. -/
@[simp] theorem instr_op_variant_pad (i : Instr) : i.op.instr i.variant i.pad = i := by cases i <;> rfl

/-- The operation is kept. -/
@[simp] theorem instr_op (o : Op) (v : Variant) (p : Bool) : (o.instr v p).op = o := by cases o <;> rfl

/-- CTXINIT alone does not keep the variant. -/
theorem instr_variant (h : o = .ctxinit → v = .base64) : (o.instr v p).variant = v := by
  cases o with
  | ctxinit => exact (h rfl).symm
  | _ => rfl

/-- The padding flag is kept where the operation takes it (R83). -/
theorem instr_pad (h : p = true → o.takesPad = true) : (o.instr v p).pad = p := by
  cases o <;> simp_all [Op.takesPad, Op.instr, Instr.pad]

/-! ### The fields of a word (R81) -/

/-- The word format, of every instruction. -/
theorem wordFormat (i : Instr) : Laws.WordFormat.Statement i := by
  open Laws.WordFormat in
  cases i
  exacts [ctxinit, enc _ _, dec _, sfeed _, sfin _ _, e64t1 _ _, e64t2 _ _, e64b3 _, e64b6 _, e32t1 _ _, e32t2 _ _,
    e32t3 _ _, e32t4 _ _, e32b5 _, e16b1 _, d64t2 _, d64t3 _, d64b4 _, d32t2 _, d32t4 _, d32t5 _, d32t7 _, d32b8 _,
    d16b2 _]

/-- P = 1 only where the operation takes it (R83). -/
theorem Instr.takesPad_of_pad (h : i.pad = true) : i.op.takesPad = true := by
  obtain ⟨-, -, -, -, hpad⟩ := wordFormat i
  exact hpad h

/-- A word is its four fields side by side. -/
theorem append_fields (w : CmdWord) : fieldOP w ++ (BitVec.ofBool (fieldP w) ++ (fieldRZ w ++ fieldVAR w)) = w := by
  ext j hj
  simp only [fieldOP, fieldP, fieldRZ, fieldVAR, BitVec.getElem_append, BitVec.getElem_extractLsb', BitVec.getElem_ofBool]
  split_ifs <;> grind

/-! ### The five checks (R86) -/

/-- Check 1. -/
theorem decode_of_unknownOp (h : ∀ o : Op, o.code ≠ fieldOP w) : decode w = .error .unknownOp := by
  have hop : opOfCode (fieldOP w) = none :=
    Option.eq_none_iff_forall_ne_some.mpr fun o ho => h o (opOfCode_eq_some_iff.mp ho)
  simp [decode, hop]

/-- Check 2. -/
theorem decode_of_reservedZero (ho : o.code = fieldOP w) (hz : fieldRZ w ≠ 0) : decode w = .error .reservedZero := by
  simp only [decode, opOfCode_eq_some_iff.mpr ho, if_pos hz]

/-- Check 3. -/
theorem decode_of_reservedVariant (ho : o.code = fieldOP w) (hz : fieldRZ w = 0)
    (hv : o.variantOf (fieldVAR w) = none) : decode w = .error .reservedVariant := by
  simp [decode, opOfCode_eq_some_iff.mpr ho, hz, hv]

/-- Checks 4 and 5, on a word that passes the first three. -/
theorem decode_of_variantOf (ho : o.code = fieldOP w) (hz : fieldRZ w = 0) (hv : o.variantOf (fieldVAR w) = some v) :
    decode w =
      if o.takesFamily v.family = false then .error .wrongFamily
      else if fieldP w = true ∧ o.takesPad = false then .error .paddingNotTaken
      else .ok (o.instr v (fieldP w)) := by
  simp [decode, opOfCode_eq_some_iff.mpr ho, hz, hv]

/-- A word that decodes passes the first three checks. -/
theorem variantOf_of_decode (h : decode w = .ok i) :
    ∃ (o : Op) (v : Variant), o.code = fieldOP w ∧ fieldRZ w = 0 ∧ o.variantOf (fieldVAR w) = some v := by
  by_cases ho : ∃ o : Op, o.code = fieldOP w
  · obtain ⟨o, ho⟩ := ho
    by_cases hz : fieldRZ w = 0
    · cases hv : o.variantOf (fieldVAR w) with
      | none => cases h.symm.trans (decode_of_reservedVariant ho hz hv)
      | some v => exact ⟨o, v, ho, hz, hv⟩
    · cases h.symm.trans (decode_of_reservedZero ho hz)
  · cases h.symm.trans (decode_of_unknownOp (not_exists.mp ho))

/-- A word that decodes has the fields of the instruction it decodes to. -/
theorem fields_of_decode (h : decode w = .ok i) :
    fieldOP w = i.op.code ∧ fieldRZ w = 0 ∧ fieldVAR w = i.variant.code ∧ fieldP w = i.pad := by
  obtain ⟨o, v, ho, hz, hv⟩ := variantOf_of_decode h
  rw [decode_of_variantOf ho hz hv] at h
  obtain ⟨hcode, hctx⟩ := variantOf_eq_some_iff.mp hv
  split at h
  · cases h
  · split at h
    · cases h
    · rename_i hpad
      obtain rfl := Except.ok.inj h
      have hvariant : o = .ctxinit → v = .base64 := fun h => Variant.code_eq_zero_iff.mp (hcode.trans (hctx h))
      rw [instr_op, instr_variant hvariant, instr_pad (by simpa using hpad)]
      exact ⟨ho.symm, hz, hcode.symm, rfl⟩

/-! ### The two directions -/

/-- Settles O1: the fields of the word are the instruction's own, and pass the five checks. -/
theorem decodeOfEncodeIsTheInstruction : Obligations.DecodeOfEncodeIsTheInstruction := by
  intro i hwf
  obtain ⟨hop, hp, hz, hvar, hpad⟩ := wordFormat i
  have hctx : i.op = .ctxinit → fieldVAR (encode i) = 0 := by
    rw [hvar]
    cases i <;> simp [Instr.op, Instr.variant, Variant.code]
  rw [decode_of_variantOf hop.symm hz (variantOf_eq_some_iff.mpr ⟨hvar.symm, hctx⟩), hp, instr_op_variant_pad,
    if_neg (by simp [hwf]), if_neg (by simpa using hpad)]

/-- Settles O2: a word is made of its fields, which are those of the instruction it decodes to. -/
theorem encodeOfDecodeIsTheWord : Obligations.EncodeOfDecodeIsTheWord := by
  intro w i h
  obtain ⟨hop, hz, hvar, hp⟩ := fields_of_decode h
  refine ⟨wellFormed_of_decode h, ?_⟩
  rw [encode, ← hop, ← hp, ← hz, ← hvar, append_fields]

/-- The legal words are those of the well-formed instructions (R86). -/
theorem decode_eq_ok_iff : decode w = .ok i ↔ i.WellFormed ∧ encode i = w :=
  ⟨encodeOfDecodeIsTheWord w i, fun ⟨hwf, hw⟩ => hw ▸ decodeOfEncodeIsTheInstruction i hwf⟩

/-- Settles O3, clause by clause from the five checks. -/
theorem decoderChecksInOrder : Obligations.DecoderChecksInOrder := by
  intro w
  refine ⟨decode_of_unknownOp, fun o ho => ⟨decode_of_reservedZero ho, fun hz hv => ?_, fun v hz hv hctx => ?_⟩, ?_⟩
  · exact decode_of_reservedVariant ho hz (variantOf_eq_none_iff.mpr hv)
  · rw [decode_of_variantOf ho hz (variantOf_eq_some_iff.mpr ⟨hv, hctx⟩)]
    refine ⟨fun hnone hother => ?_, fun hfam hp hpad => ?_, fun hfam hpad => ?_⟩
    · rw [if_pos (Bool.eq_false_iff.mpr (mt takesFamily_iff.mp (by simp [hnone, hother])))]
    · rw [if_neg (by simpa using takesFamily_iff.mpr hfam), if_pos ⟨hp, hpad⟩]
    · rw [if_neg (by simpa using takesFamily_iff.mpr hfam), if_neg (by simpa using hpad)]
  · intro e r s hr he
    exact transact_fault.mpr (.inl ⟨e, hr ▸ he, rfl⟩)

end Sys2Proof
end

section
/-! The legal words of 30_encoding.md R87, operation by operation, and the listed words of 95_test_vectors.md. -/

namespace Sys2Proof

open Machine

variable {i : Instr} {o : Op} {v : Variant} {p : Bool}

/-- The well-formed instructions of an operation: both padding flags where it takes one, the variants of its family;
CTXINIT has one (30_encoding.md R85). -/
def Op.instrs : Op → List Instr
  | .ctxinit => [.ctxinit]
  | o => (if o.takesPad then [false, true] else [false]).flatMap fun p =>
      (allVariants.filter fun v => o.takesFamily v.family).map fun v => o.instr v p

/-- `allOps` lists every operation. -/
theorem mem_allOps (o : Op) : o ∈ allOps := by cases o <;> decide

/-- `allVariants` lists every variant. -/
theorem mem_allVariants (v : Variant) : v ∈ allVariants := by cases v <;> decide

/-- P = 1 is among the flags of an operation that takes it. -/
theorem mem_padFlags_iff : p ∈ (if o.takesPad then [false, true] else [false]) ↔ (p = true → o.takesPad = true) := by
  cases p <;> cases o.takesPad <;> decide

/-- `Op.instrs` lists exactly the well-formed instructions of the operation. -/
theorem Op.mem_instrs_iff : i ∈ o.instrs ↔ i.op = o ∧ i.WellFormed := by
  by_cases ho : o = .ctxinit
  · subst ho
    cases i <;> simp [Op.instrs, Instr.op, Instr.WellFormed, Op.takesFamily, Op.family]
  · have hmem : i ∈ o.instrs ↔
        ∃ p, (p = true → o.takesPad = true) ∧ ∃ v, o.takesFamily v.family = true ∧ o.instr v p = i := by
      rw [Op.instrs.eq_2 o ho]
      simp only [List.mem_flatMap, List.mem_map, List.mem_filter, mem_padFlags_iff, mem_allVariants, true_and]
    rw [hmem]
    constructor
    · rintro ⟨p, -, v, hfam, rfl⟩
      exact ⟨instr_op o v p, instr_wellFormed hfam⟩
    · rintro ⟨rfl, hwf⟩
      exact ⟨i.pad, Instr.takesPad_of_pad, i.variant, hwf, instr_op_variant_pad i⟩

/-- The words of the operations whose "fam" column of R85 meets a condition. -/
def legalWords (f : Option Family → Bool) : List CmdWord :=
  ((allOps.filter fun o => f o.family).flatMap Op.instrs).map encode

/-- Exactly the legal words whose operation meets the condition are listed. -/
theorem mem_legalWords_iff {f : Option Family → Bool} {w : CmdWord} :
    w ∈ legalWords f ↔ ∃ i : Instr, decode w = .ok i ∧ f i.op.family = true := by
  simp only [legalWords, List.mem_map, List.mem_flatMap, List.mem_filter, mem_allOps, true_and, Op.mem_instrs_iff,
    decode_eq_ok_iff]
  constructor
  · rintro ⟨i, ⟨o, hf, rfl, hwf⟩, hw⟩
    exact ⟨i, ⟨hwf, hw⟩, hf⟩
  · rintro ⟨i, ⟨hwf, hw⟩, hf⟩
    exact ⟨i, ⟨i.op, hf, rfl, hwf⟩, hw⟩

/-- Different well-formed instructions have different words. -/
theorem encode_inj {j : Instr} (hi : i.WellFormed) (hj : j.WellFormed) (h : encode i = encode j) : i = j :=
  Except.ok.inj <| (decode_eq_ok_iff.mpr ⟨hi, h⟩).symm.trans (decode_eq_ok_iff.mpr ⟨hj, rfl⟩)

/-- An operation lists no instruction twice. -/
theorem Op.nodup_instrs (o : Op) : o.instrs.Nodup := by cases o <;> decide

/-- No word is listed twice: an operation lists none twice, and an instruction has one operation. -/
theorem nodup_legalWords (f : Option Family → Bool) : (legalWords f).Nodup := by
  have hops : allOps.Nodup := by decide
  refine List.Nodup.map_on (fun i hi j hj => ?_) (List.nodup_flatMap.mpr ⟨fun o _ => o.nodup_instrs, ?_⟩)
  · obtain ⟨o, -, hi⟩ := List.mem_flatMap.mp hi
    obtain ⟨o', -, hj⟩ := List.mem_flatMap.mp hj
    obtain ⟨-, hwfi⟩ := Op.mem_instrs_iff.mp hi
    obtain ⟨-, hwfj⟩ := Op.mem_instrs_iff.mp hj
    exact encode_inj hwfi hwfj
  · refine (hops.filter _).imp fun hne i hi hi' => hne ?_
    obtain ⟨hop, -⟩ := Op.mem_instrs_iff.mp hi
    obtain ⟨hop', -⟩ := Op.mem_instrs_iff.mp hi'
    exact hop.symm.trans hop'

/-- Settles O4: the words operation by operation; those of the two groups differ in their operation's family. -/
theorem legalWordsAre167 : Obligations.LegalWordsAre167 := by
  refine ⟨legalWords (fun f => f.isNone), legalWords (fun f => f.isSome), ?_, by decide, by decide, fun w => ?_,
    fun w => ?_⟩
  · refine (nodup_legalWords _).append (nodup_legalWords _) fun w hbulk hblock => ?_
    obtain ⟨i, hi, hnone⟩ := mem_legalWords_iff.mp hbulk
    obtain ⟨j, hj, hsome⟩ := mem_legalWords_iff.mp hblock
    obtain rfl : i = j := Except.ok.inj (hi.symm.trans hj)
    simp_all
  · simp [mem_legalWords_iff]
  · simp [mem_legalWords_iff, Option.isSome_iff_ne_none]

/-- Settles O5: each word by running the decoder. -/
theorem listedWordsDecode : Obligations.ListedWordsDecode := by
  unfold Obligations.ListedWordsDecode
  decide

end Sys2Proof
end

section
/-! The steps that run no command: an idle block, a word that is illegal, a host's read, a reset, a faulted block. -/

namespace Sys2Proof.Machine

variable {s : State}

/-- With nothing presented a step changes nothing. -/
theorem step_of_idle (hf : s.faults = []) (hq : s.queue = []) : step s = .next s := by
  simp [step, nextStep, hf, hq]

/-- Settles O10: each action by the rule of its kind. -/
theorem stepOfOtherActions : Obligations.StepOfOtherActions := by
  refine ⟨fun s => step_of_idle, fun s r rest e hf hq he => ?_, fun s r rest x hf hq hx => ?_, fun s rest hf hq => ?_,
    fun s hf => ?_⟩
  · rw [step_of_action hf hq]
    exact transact_fault.mpr (.inl ⟨e, he, rfl⟩)
  · rw [step_of_action hf hq]
    exact readReg_next.mpr ⟨x, by cases r <;> exact hx, rfl⟩
  · rw [step_of_action hf hq]
    rfl
  · obtain ⟨f, fs, hfs⟩ := List.exists_cons_of_ne_nil hf
    exact ⟨_, step_of_faulted hfs⟩

end Sys2Proof.Machine
end

section
/-! Command lines as transactions (30_encoding.md R90): which lines assemble, to which word, with which operands. -/

open Sys2Proof.Claims

namespace Sys2Proof.Machine

variable {l : AsmLine} {r : Request} {v : Variant}

/-! ### The operands of a line -/

/-- A later operand of the kind goes before an earlier one. -/
theorem lastOf_cons {α : Type} (f : AsmOperand → Option α) (o : AsmOperand) (os : List AsmOperand) :
    lastOf f (o :: os) = (lastOf f os).or (f o) := by
  rw [lastOf, ← List.singleton_append, List.filterMap_append, List.getLast?_append, ← lastOf]
  cases h : f o <;> simp [h]

/-- Operands put into a request one after another: the last of each kind counts. -/
theorem foldl_apply (os : List AsmOperand) (r : Request) :
    os.foldl AsmOperand.apply r =
      { r with
        inp := (lastOf inOf os).getD r.inp
        outcap := (lastOf capOf os).getD r.outcap
        ctx := (lastOf ctxOf os).getD r.ctx } := by
  induction os generalizing r with
  | nil => rfl
  | cons o os ih =>
    rw [List.foldl_cons, ih, lastOf_cons, lastOf_cons, lastOf_cons]
    simp only [Option.getD_or]
    cases o <;> rfl

/-! ### The word of a line -/

/-- The variant a line's word has in VAR: base64, whose code is 0x00, for a CTXINIT without a variant, else the line's
own. -/
def AsmLine.Names (l : AsmLine) (v : Variant) : Prop :=
  (l.op = .ctxinit ∧ l.variant = none ∧ v = .base64) ∨ (l.op ≠ .ctxinit ∧ l.variant = some v)

/-- When a line assembles, and to what. -/
theorem assemble_eq_some_iff :
    l.assemble = some r ↔
      ∃ v, l.Names v ∧ l.op.takesFamily v.family = true ∧ (l.p = true → l.op.takesPad = true) ∧
        l.operands.foldl AsmOperand.apply ⟨encode (l.op.instr v l.p), [], 0, 0⟩ = r := by
  obtain ⟨op, p, variant, os⟩ := l
  by_cases hop : op = .ctxinit
  · subst hop
    cases variant <;> simp [AsmLine.assemble, AsmLine.Names, and_assoc]
  · cases variant <;> simp [AsmLine.assemble, AsmLine.Names, hop, and_assoc]

/-- The variant of the line, where it has one, is its word's. -/
theorem AsmLine.Names.instr_variant {v' : Variant} (h : l.Names v) (hv' : l.variant = some v') :
    (l.op.instr v l.p).variant = v' := by
  obtain ⟨-, hnone, -⟩ | ⟨hop, hv⟩ := h
  · cases hnone.symm.trans hv'
  · obtain rfl : v = v' := Option.some.inj (hv.symm.trans hv')
    exact Sys2Proof.instr_variant fun hctx => absurd hctx hop

/-- Settles O6, from when a line assembles and to what. -/
theorem assembledLineDecodes : Obligations.AssembledLineDecodes := by
  refine ⟨fun l r h => ?_, fun l hpad hvariant => ?_⟩
  · obtain ⟨v, hv, hfam, hpad, rfl⟩ := assemble_eq_some_iff.mp h
    rw [foldl_apply]
    have hdecode := decodeOfEncodeIsTheInstruction _ (instr_wellFormed (p := l.p) hfam)
    exact ⟨⟨_, hdecode, instr_op _ _ _, instr_pad hpad, fun _ => hv.instr_variant⟩, rfl, rfl, rfl⟩
  · obtain ⟨hop, hnone⟩ | ⟨hop, v, hv, hfam⟩ := hvariant
    · exact ⟨_, assemble_eq_some_iff.mpr ⟨_, .inl ⟨hop, hnone, rfl⟩, hop ▸ rfl, hpad, rfl⟩⟩
    · exact ⟨_, assemble_eq_some_iff.mpr ⟨v, .inr ⟨hop, hv⟩, takesFamily_iff.mpr hfam, hpad, rfl⟩⟩

end Sys2Proof.Machine
end

section
/-! Command text read back (30_encoding.md R90): each operand, then the words before the operands, then the line. -/

open Sys2Proof.Claims

namespace Sys2Proof.Machine

variable {cs u : List Char} {bs : List Byte} {n c : Nat} {o : Op} {p : Bool} {v : Variant}

/-- Items each read back alone are read back as a list. -/
theorem mapM_map_of_readsBack {α β : Type} {f : α → Option β} {g : β → α} {l : List β}
    (h : ∀ b ∈ l, f (g b) = some b) : (l.map g).mapM f = some l := by
  induction l with
  | nil => rfl
  | cons b l ih =>
    have htail := ih fun x hx => h x (List.mem_cons_of_mem b hx)
    rw [List.map_cons, List.mapM_cons, h b List.mem_cons_self, htail]
    rfl

/-- A text that begins and ends without a space is trimmed to itself. -/
theorem trimSpaces_of_affixes {a b : List Char} (ha : a ≠ []) (ha' : ' ' ∉ a) (hb : b ≠ []) (hb' : ' ' ∉ b)
    (hpre : a <+: cs) (hsuf : b <:+ cs) : trimSpaces cs = cs := by
  apply trimSpaces_of_ends
  · obtain ⟨x, rfl⟩ := hpre
    rw [List.head?_append_of_ne_nil _ ha]
    exact fun h => ha' (List.mem_of_head? h)
  · obtain ⟨x, rfl⟩ := hsuf
    rw [List.getLast?_append_of_ne_nil _ hb]
    exact fun h => hb' (List.mem_of_getLast? h)

/-! ### Operands -/

/-- Hex pairs with spaces between them. -/
def hexText (bs : List Byte) : List Char := (" ".intercalate (bs.map hexPair)).toList

/-! The text of each kind of operand: what names the kind, then the value. -/

theorem toList_text_inText (cs : List Char) :
    (AsmOperand.inText cs).text.toList = "in=".toList ++ ('"' :: cs ++ ['"']) := by
  simp [AsmOperand.text]

theorem toList_text_inHex (bs : List Byte) :
    (AsmOperand.inHex bs).text.toList = "in=x".toList ++ ('"' :: hexText bs ++ ['"']) := by
  simp [AsmOperand.text, hexText]

theorem toList_text_cap (n : Nat) : (AsmOperand.cap n).text.toList = "cap=".toList ++ (decimal n).toList :=
  String.toList_append

theorem toList_text_ctx (c : Nat) : (AsmOperand.ctx c).text.toList = "ctx=c".toList ++ (decimal c).toList :=
  String.toList_append

/-- The first pair, then each further one after a space. -/
theorem hexText_cons (b : Byte) (bs : List Byte) :
    hexText (b :: bs) = (hexPair b).toList ++ (bs.map fun x => (hexPair x).toList).flatMap (' ' :: ·) := by
  induction bs generalizing b with
  | nil => simp [hexText]
  | cons x xs ih =>
    rw [List.map_cons, List.flatMap_cons, List.cons_append, ← ih x]
    simp [hexText]

/-- A hex pair is ASCII without a quote or a space. -/
theorem mem_hexPair {b : Byte} {x : Char} (h : x ∈ (hexPair b).toList) : x.toNat < 128 ∧ x ≠ '"' ∧ x ≠ ' ' := by
  have hdigit : ∀ n < 16, (hexDigit n).toNat < 128 ∧ hexDigit n ≠ '"' ∧ hexDigit n ≠ ' ' := by decide
  have hmem : x = hexDigit (b.toNat / 16) ∨ x = hexDigit (b.toNat % 16) := by simpa [hexPair] using h
  obtain rfl | rfl := hmem
  · exact hdigit _ (by omega)
  · exact hdigit _ (by omega)

/-- Hex pairs are ASCII without a quote. -/
theorem mem_hexText {x : Char} (h : x ∈ hexText bs) : x.toNat < 128 ∧ x ≠ '"' := by
  cases bs with
  | nil => simp [hexText] at h
  | cons b bs =>
    rw [hexText_cons, List.mem_append, List.mem_flatMap] at h
    obtain h | ⟨y, hy, h⟩ := h
    · obtain ⟨hascii, hquote, -⟩ := mem_hexPair h
      exact ⟨hascii, hquote⟩
    · obtain ⟨b', -, rfl⟩ := List.mem_map.mp hy
      obtain rfl | h := List.mem_cons.mp h
      · decide
      · obtain ⟨hascii, hquote, -⟩ := mem_hexPair h
        exact ⟨hascii, hquote⟩

/-- Hex pairs are read back, if there is one. -/
theorem parse_hexText (h : bs ≠ []) : (splitOutside ' ' false [] (hexText bs)).mapM parseHexPair = some bs := by
  have hplain (b : Byte) : quotesAfter ' ' false (hexPair b).toList = some false :=
    quotesAfter_plain fun x hx => by
      obtain ⟨-, hquote, hspace⟩ := mem_hexPair hx
      exact ⟨hquote, fun _ => hspace⟩
  cases bs with
  | nil => exact absurd rfl h
  | cons b bs =>
    rw [hexText_cons, splitOutside_parts (by decide) (hplain b) (by simpa using fun x _ => hplain x)]
    exact mapM_map_of_readsBack (l := b :: bs) fun x _ => parseHexPair_hexPair x

/-- A writable operand is read back. -/
theorem parseOperand_text {x : AsmOperand} (h : writable x) : parseOperand x.text.toList = some x := by
  cases x with
  | inText cs =>
    have hnot : afterPrefix "in=x" ("in=".toList ++ ('"' :: cs ++ ['"'])) = none := rfl
    rw [toList_text_inText, parseOperand, hnot, afterPrefix_append]
    simp only [parseQuoted_quoted h, Option.map_some]
  | inHex bs =>
    rw [toList_text_inHex, parseOperand, afterPrefix_append]
    simp only [parseQuoted_quoted fun x => mem_hexText, Option.bind_some, parse_hexText h, Option.map_some]
  | cap n =>
    have hx : afterPrefix "in=x" ("cap=".toList ++ (decimal n).toList) = none := rfl
    have hin : afterPrefix "in=" ("cap=".toList ++ (decimal n).toList) = none := rfl
    obtain ⟨hval, -⟩ := parseNat_decimal n
    rw [toList_text_cap, parseOperand, hx, hin, afterPrefix_append]
    simp only [hval, Option.map_some]
  | ctx c =>
    have hx : afterPrefix "in=x" ("ctx=c".toList ++ (decimal c).toList) = none := rfl
    have hin : afterPrefix "in=" ("ctx=c".toList ++ (decimal c).toList) = none := rfl
    have hcap : afterPrefix "cap=" ("ctx=c".toList ++ (decimal c).toList) = none := rfl
    obtain ⟨hval, -⟩ := parseNat_decimal c
    rw [toList_text_ctx, parseOperand, hx, hin, hcap, afterPrefix_append]
    simp only [hval, Option.map_some]

/-- A text in quotes meets no separator. -/
theorem quotesAfter_quoted {sep : Char} (h : ∀ x ∈ u, x ≠ '"') :
    quotesAfter sep false ('"' :: u ++ ['"']) = some false := by
  have hin : quotesAfter sep true u = some true := quotesAfter_plain fun x hx => ⟨h x hx, fun h => nomatch h⟩
  simp [quotesAfter, quotesAfter_append, hin]

/-- A decimal has no quote, comma or space. -/
theorem mem_decimal {x : Char} (h : x ∈ (decimal n).toList) : x ≠ '"' ∧ x ≠ ',' ∧ x ≠ ' ' := by
  obtain ⟨-, hdigits⟩ := parseNat_decimal n
  have hx := hdigits x h
  refine ⟨?_, ?_, ?_⟩ <;> rintro rfl <;> simp at hx

/-- A decimal has a digit. -/
theorem decimal_ne_nil (n : Nat) : (decimal n).toList ≠ [] := by
  intro h
  obtain ⟨hval, -⟩ := parseNat_decimal n
  rw [h] at hval
  cases hval

/-- A decimal meets no comma. -/
theorem quotesAfter_decimal (n : Nat) : quotesAfter ',' false (decimal n).toList = some false :=
  quotesAfter_plain fun x hx => by
    obtain ⟨hquote, hcomma, -⟩ := mem_decimal hx
    exact ⟨hquote, fun _ => hcomma⟩

/-- The text of a writable operand meets no comma outside quotes. -/
theorem quotesAfter_text {x : AsmOperand} (h : writable x) : quotesAfter ',' false x.text.toList = some false := by
  cases x with
  | inText cs =>
    rw [toList_text_inText, quotesAfter_append]
    exact quotesAfter_quoted fun x hx => (h x hx).2
  | inHex bs =>
    rw [toList_text_inHex, quotesAfter_append]
    exact quotesAfter_quoted fun x hx => (mem_hexText hx).2
  | cap n =>
    rw [toList_text_cap, quotesAfter_append]
    exact quotesAfter_decimal n
  | ctx c =>
    rw [toList_text_ctx, quotesAfter_append]
    exact quotesAfter_decimal c

/-- The text of an operand begins and ends without a space. -/
theorem trimSpaces_text (x : AsmOperand) : trimSpaces x.text.toList = x.text.toList := by
  have hspace (n : Nat) : ' ' ∉ (decimal n).toList := fun h => by
    obtain ⟨-, -, hne⟩ := mem_decimal h
    exact hne rfl
  cases x with
  | inText cs =>
    rw [toList_text_inText]
    exact trimSpaces_of_affixes (a := "in=".toList) (b := ['"']) (by decide) (by decide) (by decide) (by decide)
      ⟨_, rfl⟩ ⟨"in=".toList ++ '"' :: cs, by simp⟩
  | inHex bs =>
    rw [toList_text_inHex]
    exact trimSpaces_of_affixes (a := "in=x".toList) (b := ['"']) (by decide) (by decide) (by decide) (by decide)
      ⟨_, rfl⟩ ⟨"in=x".toList ++ '"' :: hexText bs, by simp⟩
  | cap n =>
    rw [toList_text_cap]
    exact trimSpaces_of_affixes (by decide) (by decide) (decimal_ne_nil n) (hspace n) ⟨_, rfl⟩ ⟨_, rfl⟩
  | ctx c =>
    rw [toList_text_ctx]
    exact trimSpaces_of_affixes (by decide) (by decide) (decimal_ne_nil c) (hspace c) ⟨_, rfl⟩ ⟨_, rfl⟩

/-! ### The words before the operands -/

/-- A text that is one word of a line: not empty, and no quote, space or comma. -/
def isWord (cs : List Char) : Bool := !cs.isEmpty && cs.all fun c => c != '"' && c != ' ' && c != ','

/-- The same, character by character. -/
theorem isWord_iff : isWord cs = true ↔ cs ≠ [] ∧ ∀ c ∈ cs, c ≠ '"' ∧ c ≠ ' ' ∧ c ≠ ',' := by
  simp [isWord, and_assoc]

/-- `MNEMONIC [".P"]`. -/
def mnemonicText (o : Op) (p : Bool) : List Char := (opMnemonic o ++ if p then ".P" else "").toList

/-- A mnemonic, with its ".P" or without, is a word. -/
theorem isWord_mnemonicText (o : Op) (p : Bool) : isWord (mnemonicText o p) = true := by cases o <;> cases p <;> rfl

/-- A variant name is a word. -/
theorem isWord_variantName (v : Variant) : isWord (variantName v).toList = true := by cases v <;> rfl

/-- A word meets neither separator of a line. -/
theorem quotesAfter_word {sep : Char} (hsep : sep = ' ' ∨ sep = ',') (h : isWord cs = true) :
    quotesAfter sep false cs = some false := by
  obtain ⟨-, hmem⟩ := isWord_iff.mp h
  refine quotesAfter_plain fun x hx => ?_
  obtain ⟨hquote, hspace, hcomma⟩ := hmem x hx
  exact ⟨hquote, fun _ => by obtain rfl | rfl := hsep <;> assumption⟩

/-- Mnemonics are all different. -/
theorem opMnemonic_inj {o' : Op} (h : (opMnemonic o).toList = (opMnemonic o').toList) : o = o' := by
  have hnodup : (allOps.map fun o => (opMnemonic o).toList).Nodup := by decide
  exact List.inj_on_of_nodup_map hnodup (mem_allOps o) (mem_allOps o') h

/-- Variant names are all different. -/
theorem variantName_inj {v' : Variant} (h : (variantName v).toList = (variantName v').toList) : v = v' := by
  have hnodup : (allVariants.map fun v => (variantName v).toList).Nodup := by decide
  exact List.inj_on_of_nodup_map hnodup (mem_allVariants v) (mem_allVariants v') h

/-- A mnemonic and its ".P" are read back. -/
theorem parseMnemonic_mnemonicText (o : Op) (p : Bool) : parseMnemonic (mnemonicText o p) = some (o, p) := by
  cases p with
  | false =>
    have hfind := find?_name (f := fun o => (opMnemonic o).toList) (fun _ => opMnemonic_inj) (mem_allOps o)
    simp [parseMnemonic, mnemonicText, hfind]
  | true =>
    have hdot (x : Op) : '.' ∉ (opMnemonic x).toList := by cases x <;> decide
    have hnone : allOps.find? (fun x => (opMnemonic x).toList == (opMnemonic o ++ ".P").toList) = none :=
      List.find?_eq_none.mpr fun x _ h => hdot x (by rw [eq_of_beq h]; simp)
    have hfind := find?_name (f := fun o => (opMnemonic o ++ ".P").toList)
      (fun _ h => opMnemonic_inj (by simpa using h)) (mem_allOps o)
    simp only [parseMnemonic, mnemonicText, if_true, hnone, hfind]

/-- `MNEMONIC [".P"] [VARIANT]`. -/
def headText (o : Op) (p : Bool) (v : Option Variant) : List Char :=
  mnemonicText o p ++ (v.toList.map fun v => (variantName v).toList).flatMap (' ' :: ·)

/-- The words before the operands are read back. -/
theorem parseHead_headText (o : Op) (p : Bool) (v : Option Variant) :
    parseHead (headText o p v) = some (o, p, v) := by
  have hword (cs : List Char) (h : isWord cs = true) : quotesAfter ' ' false cs = some false :=
    quotesAfter_word (.inl rfl) h
  obtain ⟨hmnemonic, -⟩ := isWord_iff.mp (isWord_mnemonicText o p)
  have hsplit := splitOutside_parts (l := v.toList.map fun v => (variantName v).toList) (by decide)
    (hword _ (isWord_mnemonicText o p)) (by simpa using fun v _ => hword _ (isWord_variantName v)) []
  rw [parseHead, headText, hsplit]
  cases v with
  | none => simp [hmnemonic, parseMnemonic_mnemonicText]
  | some v =>
    obtain ⟨hname, -⟩ := isWord_iff.mp (isWord_variantName v)
    have hfind := find?_name (f := fun v => (variantName v).toList) (fun _ => variantName_inj) (mem_allVariants v)
    have hne : variantName v ≠ "" := by simpa using hname
    simp [hmnemonic, hne, parseMnemonic_mnemonicText, hfind]

/-- The words before the operands meet no comma. -/
theorem quotesAfter_headText (o : Op) (p : Bool) (v : Option Variant) :
    quotesAfter ',' false (headText o p v) = some false := by
  rw [headText, quotesAfter_append, quotesAfter_word (.inr rfl) (isWord_mnemonicText o p)]
  cases v with
  | none => rfl
  | some v => simp [quotesAfter, quotesAfter_word (.inr rfl) (isWord_variantName v)]

/-- The words before the operands begin and end without a space. -/
theorem trimSpaces_headText (o : Op) (p : Bool) (v : Option Variant) :
    trimSpaces (headText o p v) = headText o p v := by
  have hspace {cs : List Char} (h : isWord cs = true) : cs ≠ [] ∧ ' ' ∉ cs := by
    obtain ⟨hne, hmem⟩ := isWord_iff.mp h
    refine ⟨hne, fun hin => ?_⟩
    obtain ⟨-, hspace, -⟩ := hmem ' ' hin
    exact hspace rfl
  obtain ⟨hm, hm'⟩ := hspace (isWord_mnemonicText o p)
  cases v with
  | none => exact trimSpaces_of_affixes hm hm' hm hm' ⟨_, rfl⟩ ⟨[], by simp [headText]⟩
  | some v =>
    obtain ⟨hn, hn'⟩ := hspace (isWord_variantName v)
    exact trimSpaces_of_affixes hm hm' hn hn' ⟨_, rfl⟩ ⟨mnemonicText o p ++ [' '], by simp [headText]⟩

/-- The words do not begin with a CTXINIT and a space: CTXINIT has no variant after it. -/
theorem afterPrefix_headText (v : Option Variant) (h : o = .ctxinit → v = none) :
    afterPrefix "CTXINIT " (headText o p v) = none := by
  cases o with
  | ctxinit =>
    obtain rfl := h rfl
    cases p <;> rfl
  | _ => cases p <;> rfl

/-! ### The line -/

/-- A line is its words and, each after a comma and a space, its operands. -/
theorem toList_text (l : AsmLine) :
    l.text.toList =
      headText l.op l.p l.variant ++ (l.operands.map fun x => ' ' :: x.text.toList).flatMap (',' :: ·) := by
  rw [AsmLine.text, String.toList_append, String.toList_append, String.toList_join, headText, mnemonicText]
  congr 1
  · cases l.variant <;> simp
  · simp [List.flatMap_map]

/-- Settles O7: the commas outside quotes part the line into its words and its operands, each of which is read
back. -/
theorem commandTextReadsBack : Obligations.CommandTextReadsBack := by
  intro l hctx hwritable
  have hparts (x : List Char) (hx : x ∈ l.operands.map fun x => ' ' :: x.text.toList) :
      quotesAfter ',' false x = some false := by
    obtain ⟨y, hy, rfl⟩ := List.mem_map.mp hx
    simpa [quotesAfter] using quotesAfter_text (hwritable y hy)
  have hoperands : (l.operands.map fun x => x.text.toList).mapM parseOperand = some l.operands :=
    mapM_map_of_readsBack fun x hx => parseOperand_text (hwritable x hx)
  have hsplit := splitOutside_parts (by decide) (quotesAfter_headText l.op l.p l.variant) hparts []
  rw [toList_text, parseLine, hsplit]
  simp [Function.comp_def, trimSpaces_headText, trimSpaces_text, afterPrefix_headText l.variant hctx,
    parseHead_headText, hoperands]

end Sys2Proof.Machine
end

section
/-! The words of one OP value (30_encoding.md R81 to R86). -/

open Sys2Proof.Claims

namespace Sys2Proof

/-- The words of an operation's OP value that decode are those of its well-formed instructions. -/
theorem wordsOf_code (o : Op) : WordsOf o.code (o.instrs.map fun i => (encode i, i)) := by
  have code_inj {o' : Op} (h : o'.code = o.code) : o' = o :=
    Option.some.inj ((opOfCode_eq_some_iff.mpr h).symm.trans (opOfCode_eq_some_iff.mpr rfl))
  intro w i hop
  simp only [List.mem_map, Prod.mk.injEq, Op.mem_instrs_iff]
  constructor
  · intro h
    obtain ⟨hwf, hw⟩ := decode_eq_ok_iff.mp h
    obtain ⟨hcode, -⟩ := fields_of_decode h
    exact ⟨i, ⟨code_inj (hcode.symm.trans hop), hwf⟩, hw, rfl⟩
  · rintro ⟨i, ⟨-, hwf⟩, hw, rfl⟩
    exact decode_eq_ok_iff.mpr ⟨hwf, hw⟩

end Sys2Proof
end

section
/-! Packing as bit slices (41_block_encode.md R101 to R110): where the bytes side by side are a bit vector, the groups
of `pack` are its slices, the last one filled with zero bits. -/

namespace Sys2Proof.Machine

variable {b : List Byte} {k n q r z : Nat} {x : BitVec n}

/-- The groups that `a` and a fill of less than one group make up are those `a` needs (00_scope.md R11). -/
theorem ceilDiv_eq_of_fill {a : Nat} (h : a + z = q * k) (hz : z < k) : ceilDiv a k = q := by
  refine Nat.div_eq_of_lt_le (by omega) ?_
  rw [Nat.add_one_mul]
  omega

/-- A byte put below a bit vector is one more digit of its number. -/
theorem toNat_append_byte (x : BitVec n) (y : Byte) : (x ++ y).toNat = x.toNat * 2 ^ 8 + y.toNat := by
  rw [BitVec.toNat_append, ← Nat.shiftLeft_add_eq_or_of_lt y.isLt, Nat.shiftLeft_eq]

/-- The groups are the k-bit slices of the bytes above their zero fill. -/
theorem pack_eq_slices (hx : x.toNat = beNat 8 (b.map BitVec.toNat) * 2 ^ z) (hlen : 8 * b.length + z = q * k)
    (hz : z < k) : pack b k = (List.range q).map fun j => (x.extractLsb' ((q - j - 1) * k) k).toNat := by
  have hq := ceilDiv_eq_of_fill hlen hz
  have hfill : q * k - 8 * b.length = z := by omega
  simp only [pack, hq, hfill, ← hx, BitVec.extractLsb'_toNat, Nat.shiftRight_eq_div_pow]

/-- Bytes that fill their groups: every group is a slice. -/
theorem pack_eq_slices_of_whole (hx : x.toNat = beNat 8 (b.map BitVec.toNat)) (hlen : 8 * b.length = q * k)
    (hk : 0 < k) : pack b k = (List.range q).map fun j => (x.extractLsb' ((q - j - 1) * k) k).toNat :=
  pack_eq_slices (z := 0) (by simpa using hx) hlen hk

/-- Bytes that leave `r` bits for the last group: it is these bits, then `z` zero bits. -/
theorem pack_eq_slices_of_tail (hx : x.toNat = beNat 8 (b.map BitVec.toNat))
    (hlen : 8 * b.length + z = (q + 1) * (r + z)) (hr : 0 < r) :
    pack b (r + z) =
      ((List.range q).map fun j => (x.extractLsb' ((q - j - 1) * (r + z) + r) (r + z)).toNat) ++
        [(x.extractLsb' 0 r ++ 0#z).toNat] := by
  have hx' : (x ++ 0#z).toNat = beNat 8 (b.map BitVec.toNat) * 2 ^ z := by
    simp [BitVec.toNat_append, Nat.shiftLeft_eq, hx]
  rw [pack_eq_slices hx' hlen (by omega), List.range_succ, List.map_append]
  congr 1
  · refine List.map_congr_left fun j hj => ?_
    have hj : j < q := List.mem_range.mp hj
    have hstart : (q + 1 - j - 1) * (r + z) = (q - j - 1) * (r + z) + r + z := by
      rw [show q + 1 - j - 1 = q - j - 1 + 1 by omega, Nat.succ_mul, Nat.add_assoc]
    rw [hstart, BitVec.extractLsb'_append_eq_of_le (by omega), Nat.add_sub_cancel]
  · simp only [List.map_singleton, Nat.add_sub_cancel_left, Nat.sub_self, Nat.zero_mul]
    congr 2
    ext j hj
    simp [BitVec.getElem_append, BitVec.getLsbD_append]

end Sys2Proof.Machine
end

section
/-! The E* commands in every state (41_block_encode.md R100): the three faults of `EncCommon`, and the state in which
it completes. -/

open Sys2Proof.Claims

namespace Sys2Proof.Machine

variable {s : State} {i : Instr} {n need : Nat} {syms : State → List CodeUnit}

/-- The length check of a command of fixed length fails exactly over the limit (60_exceptions.md R248). -/
theorem State.fixedTooLong_eq_true : s.fixedTooLong = true ↔ overLimit s := by
  rw [← Bool.not_eq_false, State.fixedTooLong_eq_false, overLimit]
  simp

/-- A command that is `EncCommon` of a body faults as R100 says, and otherwise answers the body's symbols. -/
theorem encodesBlock_of_encCommon {body : State → List Byte → List CodeUnit}
    (hexec : ∀ s, exec i s = encCommon n need (body s) s)
    (hbody : ∀ s, s.inp.length = n → body s s.inBytes = syms s)
    (hneed : ∀ s, (syms s).length = need) : EncodesBlock i n need syms := by
  intro s
  have hpass (h : ¬ overLimit s) : s.fixedTooLong = false := Bool.eq_false_iff.mpr (mt State.fixedTooLong_eq_true.mp h)
  rw [hexec s]
  refine ⟨fun h => ?_, fun h hn => ?_, fun h hn hcap => ?_, fun h hn hcap => ?_⟩
  · simp [encCommon, State.fixedTooLong_eq_true.mpr h]
  · simp [encCommon, hpass h, hn]
  · simp [encCommon, hpass h, hn, hcap]
  · refine ⟨regHold s.cfg need, inReg_regHold _ _, encCommon_next.mpr ⟨hpass h, hn, hcap, ?_⟩⟩
    rw [hbody s hn, State.completeOk, hneed]

end Sys2Proof.Machine
end

section
/-! The E* commands as slices of IN (41_block_encode.md R101 to R110): the bytes of IN side by side, and the symbols
of their slices, for bytes that fill their groups and for a tail. -/

open Sys2Proof.Claims

namespace Sys2Proof.Machine

variable {s : State} {i : Instr} {v : Variant} {f : Family} {p : Bool} {a m n q r z : Nat} {x : State → BitVec m}

/-- `x` is the `n` bytes of IN from index `a` on, side by side, the first most significant. -/
def JoinsBytes (a n : Nat) (x : State → BitVec m) : Prop :=
  ∀ s, (x s).toNat = beNat 8 (((List.range' a n).map (byteAt s)).map BitVec.toNat)

/-- One byte joins alone. -/
theorem joinsBytes_one (a : Nat) : JoinsBytes a 1 (byteAt · a) := fun s => by simp [beNat]

/-- The next byte joins below the bytes before it. -/
theorem JoinsBytes.snoc (hx : JoinsBytes a n x) : JoinsBytes a (n + 1) fun s => x s ++ byteAt s (a + n) := fun s => by
  rw [toNat_append_byte, hx s, List.range'_1_concat, List.map_append, List.map_append, beNat_append]
  simp [beNat]

/-- IN is its bytes, index by index. -/
theorem State.inBytes_eq_map_byteAt (h : s.inp.length = n) : s.inBytes = (List.range' 0 n).map (byteAt s) := by
  refine List.ext_getElem (by simp [h]) fun j hj _ => ?_
  simp [byteAt, List.getElem?_eq_getElem hj]

/-- The symbols of bytes that fill their groups. -/
theorem encSyms_of_whole (hf : v.family = f) (hx : JoinsBytes a n x) (q : Nat) (hlen : 8 * n = q * f.k) (s : State) :
    encSyms s.cfg.width v ((List.range' a n).map (byteAt s)) =
      (List.range q).map fun j => sym s v ((x s).extractLsb' ((q - j - 1) * f.k) f.k).toNat := by
  rw [encSyms, hf, pack_eq_slices_of_whole (hx s) (by simpa using hlen) f.k_pos, List.map_map]
  rfl

/-- The symbols of bytes that leave `r` bits for the last group. -/
theorem encSyms_of_tail (hf : v.family = f) (hx : JoinsBytes a n x) (hk : f.k = r + z)
    (hlen : 8 * n + z = (q + 1) * (r + z)) (hr : 0 < r) (s : State) :
    encSyms s.cfg.width v ((List.range' a n).map (byteAt s)) =
      ((List.range q).map fun j => sym s v ((x s).extractLsb' ((q - j - 1) * (r + z) + r) (r + z)).toNat) ++
        [sym s v ((x s).extractLsb' 0 r ++ 0#z).toNat] := by
  rw [encSyms, hf, hk, pack_eq_slices_of_tail (hx s) (by simpa using hlen) hr, List.map_append, List.map_map]
  rfl

/-- A command whose body is `EncSyms` of bytes that fill their groups. -/
theorem encodesBlock_of_whole (hf : v.family = f) (hx : JoinsBytes 0 n x) (q : Nat) (hlen : 8 * n = q * f.k)
    (hexec : ∀ s, exec i s = encCommon n q (encSyms s.cfg.width v) s) :
    EncodesBlock i n q fun s =>
      (List.range q).map fun j => sym s v ((x s).extractLsb' ((q - j - 1) * f.k) f.k).toNat :=
  encodesBlock_of_encCommon hexec
    (fun s h => by rw [State.inBytes_eq_map_byteAt h, encSyms_of_whole hf hx q hlen]) (by simp)

/-- Pads are written where P = 1 alone. -/
theorem pads_length : (pads s v p n).length = if p then n else 0 := by
  cases p <;> simp [pads]

/-- A command whose body is `EncTail` of bytes that leave `r` bits for the last group. -/
theorem encodesBlock_of_tail (hf : v.family = f) (hx : JoinsBytes 0 n x) (q r z : Nat) (hk : f.k = r + z)
    (hlen : 8 * n + z = (q + 1) * (r + z)) (hr : 0 < r) (hS : q + 1 ≤ f.S)
    (hexec : ∀ s, exec i s = encCommon n (if p then f.S else q + 1) (fun b => encTail s.cfg.width v b p) s) :
    EncodesBlock i n (if p then f.S else q + 1) fun s =>
      ((List.range q).map fun j => sym s v ((x s).extractLsb' ((q - j - 1) * (r + z) + r) (r + z)).toNat) ++
        [sym s v ((x s).extractLsb' 0 r ++ 0#z).toNat] ++ pads s v p (f.S - (q + 1)) := by
  have hn : n ≠ 0 := by
    rintro rfl
    rw [Nat.add_one_mul q] at hlen
    omega
  have htsym : f.tsym n = q + 1 := by
    rw [Family.tsym, hk]
    exact ceilDiv_eq_of_fill hlen (by omega)
  refine encodesBlock_of_encCommon hexec (fun s h => ?_) fun s => ?_
  · rw [State.inBytes_eq_map_byteAt h, encTail, encSyms_of_tail hf hx hk hlen hr]
    simp [hn, hf, htsym, pads]
  · simp only [List.length_append, List.length_map, List.length_range, List.length_singleton, pads_length]
    split <;> omega

end Sys2Proof.Machine
end

section
/-! The E* commands one by one (41_block_encode.md R101 to R110). With the numbers of a command put in, the slices of
`encodesBlock_of_whole` and `encodesBlock_of_tail` are those its rule lists: `q` whole groups and, for a tail, `r` bits
above `z` zero bits. -/

namespace Sys2Proof.Machine

/-- Settles O17: three bytes are four groups. -/
theorem e64B3EncodesThreeBytes : Obligations.E64B3EncodesThreeBytes :=
  ⟨wordsOf_code .e64b3, fun _ hf =>
    encodesBlock_of_whole hf (joinsBytes_one 0).snoc.snoc 4 rfl fun _ => rfl⟩

/-- Settles O18: each half of six bytes is four groups. -/
theorem e64B6IsTwoE64B3 : Obligations.E64B6IsTwoE64B3 := by
  refine ⟨wordsOf_code .e64b6, fun v hf => ?_⟩
  refine encodesBlock_of_encCommon
    (body := fun s b => encSyms s.cfg.width v (b.take 3) ++ encSyms s.cfg.width v (b.drop 3)) (fun _ => rfl)
    (fun s h => ?_) fun _ => rfl
  rw [State.inBytes_eq_map_byteAt h]
  exact congrArg₂ (· ++ ·) (encSyms_of_whole hf (joinsBytes_one 0).snoc.snoc 4 rfl s)
    (encSyms_of_whole hf (joinsBytes_one 3).snoc.snoc 4 rfl s)

/-- Settles O19: one byte is a group and 2 bits, two bytes are two groups and 4 bits. -/
theorem e64TailsEncodeOneOrTwoBytes : Obligations.E64TailsEncodeOneOrTwoBytes :=
  ⟨wordsOf_code .e64t1, wordsOf_code .e64t2, fun _ _ hf =>
    ⟨encodesBlock_of_tail hf (joinsBytes_one 0) 1 2 4 rfl rfl (by decide) (by decide) fun _ => rfl,
      encodesBlock_of_tail hf (joinsBytes_one 0).snoc 2 4 2 rfl rfl (by decide) (by decide) fun _ => rfl⟩⟩

/-- Settles O20: five bytes are eight groups. -/
theorem e32B5EncodesFiveBytes : Obligations.E32B5EncodesFiveBytes :=
  ⟨wordsOf_code .e32b5, fun _ hf =>
    encodesBlock_of_whole hf (joinsBytes_one 0).snoc.snoc.snoc.snoc 8 rfl fun _ => rfl⟩

/-- Settles O21: one byte is a group and 3 bits, two bytes are three groups and 1 bit. -/
theorem e32TailsEncodeOneOrTwoBytes : Obligations.E32TailsEncodeOneOrTwoBytes :=
  ⟨wordsOf_code .e32t1, wordsOf_code .e32t2, fun _ _ hf =>
    ⟨encodesBlock_of_tail hf (joinsBytes_one 0) 1 3 2 rfl rfl (by decide) (by decide) fun _ => rfl,
      encodesBlock_of_tail hf (joinsBytes_one 0).snoc 3 1 4 rfl rfl (by decide) (by decide) fun _ => rfl⟩⟩

/-- Settles O22: three bytes are four groups and 4 bits, four bytes are six groups and 2 bits. -/
theorem e32TailsEncodeThreeOrFourBytes : Obligations.E32TailsEncodeThreeOrFourBytes :=
  ⟨wordsOf_code .e32t3, wordsOf_code .e32t4, fun _ _ hf =>
    ⟨encodesBlock_of_tail hf (joinsBytes_one 0).snoc.snoc 4 4 1 rfl rfl (by decide) (by decide) fun _ => rfl,
      encodesBlock_of_tail hf (joinsBytes_one 0).snoc.snoc.snoc 6 2 3 rfl rfl (by decide) (by decide) fun _ => rfl⟩⟩

/-- Settles O23: one byte is two groups. -/
theorem e16B1EncodesOneByte : Obligations.E16B1EncodesOneByte :=
  ⟨wordsOf_code .e16b1, fun _ hf => encodesBlock_of_whole hf (joinsBytes_one 0) 2 rfl fun _ => rfl⟩

end Sys2Proof.Machine
end

section
/-! Block decode inverts block encode (42_block_decode.md R150): `unpack` gives back what `pack` took, `pack` what
`unpack` took where the bits discarded are zero, and the reverse table reads the symbols of the forward table. -/

open Sys2Proof.Claims

namespace Sys2Proof.Machine

variable {v : Variant} {w : Width} {g : Nat} {c : List CodeUnit}

/-! ### Packing and unpacking -/

/-- Groups of at most a byte unpack to the bytes they were packed from: the fill makes no byte. -/
theorem unpack_pack (b : List Byte) {k : Nat} (hk : 0 < k) (hk8 : k ≤ 8) : unpack (pack b k) k = b := by
  have hlow := le_ceilDiv_mul (8 * b.length) hk
  have hhigh := ceilDiv_mul_lt (8 * b.length) hk
  have hbytes : ceilDiv (8 * b.length) k * k / 8 = b.length := by omega
  have hnum : beNat 8 ((unpack (pack b k) k).map BitVec.toNat) = beNat 8 (b.map BitVec.toNat) := by
    rw [beNat_unpack fun _ => pack_lt, beNat_pack b hk, pack_length, hbytes,
      Nat.mul_div_cancel _ (Nat.two_pow_pos _)]
  have hdigit (b : List Byte) : ∀ x ∈ b.map BitVec.toNat, x < 2 ^ 8 := by
    simpa using fun (y : Byte) _ => y.isLt
  refine List.map_injective_iff.mpr (fun _ _ => BitVec.eq_of_toNat_eq) ?_
  exact beNat_inj 8 _ _ (by simp [hbytes]) (hdigit _) (hdigit b) hnum

/-- Values that are as many as their whole bytes need are packed again from these bytes exactly when the bits
discarded are zero. -/
theorem pack_unpack_eq_iff {x : List Nat} {k : Nat} (hk : 0 < k) (hx : ∀ g ∈ x, g < 2 ^ k)
    (hlen : ceilDiv (8 * (x.length * k / 8)) k = x.length) :
    pack (unpack x k) k = x ↔ beNat k x % 2 ^ (x.length * k - 8 * (x.length * k / 8)) = 0 := by
  have hnum : beNat k (pack (unpack x k) k) =
      beNat k x / 2 ^ (x.length * k - 8 * (x.length * k / 8)) * 2 ^ (x.length * k - 8 * (x.length * k / 8)) := by
    rw [beNat_pack _ hk, unpack_length, hlen, beNat_unpack hx]
  rw [← Nat.dvd_iff_mod_eq_zero, Nat.dvd_iff_div_mul_eq, ← hnum]
  exact ⟨congrArg _, beNat_inj k _ _ (by simp [hlen]) (fun _ => pack_lt) hx⟩

/-! ### Symbols and their values -/

/-- A value read is a k-bit value. -/
theorem REV_getD_lt (v : Variant) (x : CodeUnit) : (REV v x).getD 0 < 2 ^ v.family.k := by
  cases h : REV v x with
  | none => exact Nat.two_pow_pos _
  | some i =>
    obtain ⟨-, hi, -⟩ := REV_eq_some_iff.mp h
    exact hi

/-- The values of data symbols are k-bit values. -/
theorem dataValues_lt (h : g ∈ dataValues v c) : g < 2 ^ v.family.k := by
  obtain ⟨x, -, rfl⟩ := List.mem_map.mp h
  exact REV_getD_lt v x

/-- As many values as symbols. -/
@[simp] theorem dataValues_length (v : Variant) (c : List CodeUnit) : (dataValues v c).length = c.length := by
  simp [dataValues]

/-- A code unit of the alphabet is the symbol of its value. -/
theorem zextW_FWD_REV {x : CodeUnit} (w : Width) (h : isData v x) : zextW w (FWD v ((REV v x).getD 0)) = x := by
  obtain ⟨i, hi⟩ := Option.ne_none_iff_exists'.mp h
  obtain ⟨-, -, hfwd⟩ := REV_eq_some_iff.mp hi
  rw [hi]
  exact BitVec.eq_of_toNat_eq ((zextW_toNat w _).trans hfwd)

/-- The values of the symbols of bytes are their groups. -/
theorem dataValues_encSyms (w : Width) (v : Variant) (b : List Byte) :
    dataValues v (encSyms w v b) = pack b v.family.k := by
  rw [dataValues, encSyms, List.map_map]
  refine (List.map_congr_left fun g hg => ?_).trans (List.map_id _)
  simp [REV_zextW_FWD w (pack_lt hg)]

/-- Bytes have these symbols exactly when their groups are the symbols' values. -/
theorem encSyms_eq_iff {b : List Byte} (hc : ∀ x ∈ c, isData v x) :
    encSyms w v b = c ↔ pack b v.family.k = dataValues v c := by
  refine ⟨fun h => ?_, fun h => ?_⟩
  · rw [← h, dataValues_encSyms]
  · rw [encSyms, h, dataValues, List.map_map]
    exact (List.map_congr_left fun x hx => zextW_FWD_REV w (hc x hx)).trans (List.map_id _)

/-- A tail count or a whole group is as many symbols as its bytes need (10_state.md R21). -/
theorem tsym_tbytes {f : Family} {r : Nat} (h : r ∈ f.tails ∨ r = f.S) : f.tsym (f.tbytes r) = r := by
  have hlegal : ∀ r ∈ f.tails ++ [f.S], f.tsym (f.tbytes r) = r := by cases f <;> decide
  exact hlegal r (by simpa using h)

/-- Settles O16: each half is the packing law read through the symbols' values. -/
theorem blockDecodeInvertsBlockEncode : Obligations.BlockDecodeInvertsBlockEncode := by
  refine fun w v => ⟨fun b _ => ?_, fun c hlen hc => ?_⟩
  · rw [decSyms, dataValues_encSyms]
    exact unpack_pack b v.family.k_pos (by cases v.family <;> decide)
  · rw [encSyms_eq_iff hc, decSyms, pack_unpack_eq_iff v.family.k_pos (fun _ => dataValues_lt), dataValues_length]
    rw [dataValues_length]
    exact tsym_tbytes hlen

end Sys2Proof.Machine
end

section
/-! Unpacking as bit slices (42_block_decode.md R141 to R149): where the values side by side are a bit vector, the
bytes of `unpack` are its slices above the bits discarded. -/

namespace Sys2Proof.Machine

/-- The bytes are the 8-bit slices of the values above the `d` bits discarded. -/
theorem unpack_eq_slices {m k n d : Nat} {x : BitVec m} {y : List Nat} (hx : x.toNat = beNat k y)
    (hlen : y.length * k = 8 * n + d) (hd : d < 8) :
    unpack y k = (List.range n).map fun j => x.extractLsb' (d + 8 * (n - j - 1)) 8 := by
  have hn : (8 * n + d) / 8 = n := by omega
  simp only [unpack, hlen, hn, Nat.add_sub_cancel_left, ← hx, BitVec.extractLsb', Nat.shiftRight_eq_div_pow, pow_add,
    Nat.div_div_eq_div_mul]

end Sys2Proof.Machine
end

section
/-! The D* commands in every state (42_block_decode.md R140): the three faults of `DecCommon`, the state in which it
completes, and the error at the first code unit without a value. -/

open Sys2Proof.Claims

namespace Sys2Proof.Machine

variable {s : State} {i : Instr} {v : Variant} {n : Nat} {c : List CodeUnit}

/-- The pad has no value, so the code units a D* command stops at are those without one. -/
theorem blockError_stops_iff (w : Width) (v : Variant) (x : CodeUnit) :
    (x == zextW w (PAD v) || (REV v x).isNone) = (REV v x).isNone := by
  by_cases h : x = zextW w (PAD v)
  · simp [h, REV_zextW_PAD]
  · simp [h]

/-- A D* command stops at no code unit of the alphabet. -/
theorem findIdx?_isNone_of_data (h : ∀ x ∈ c, isData v x) : c.findIdx? (fun x => (REV v x).isNone) = none :=
  List.findIdx?_eq_none_iff.mpr fun x hx => Option.isNone_eq_false_iff.mpr (Option.isSome_iff_ne_none.mpr (h x hx))

/-- Code units of the alphabet raise no error. -/
theorem blockError_of_data (w : Width) (h : ∀ x ∈ c, isData v x) : blockError w v c = none := by
  simp only [blockError, blockError_stops_iff, findIdx?_isNone_of_data h]

/-- The first code unit without a value raises the error at its index: UnexpectedPadding for the pad, InvalidSymbol
for any other. -/
theorem blockError_of_first (w : Width) {x : CodeUnit} (post : List CodeUnit) (hc : ∀ d ∈ c, isData v d)
    (hx : REV v x = none) :
    blockError w v (c ++ x :: post) =
      some (if x = zextW w (PAD v) then .unexpectedPadding else .invalidSymbol, c.length) := by
  have hfirst : (c ++ x :: post).findIdx? (fun x => (REV v x).isNone) = some c.length := by
    simp [List.findIdx?_append, findIdx?_isNone_of_data hc, List.findIdx?_cons, hx]
  have hget : (c ++ x :: post).getD c.length 0 = x := by simp
  simp only [blockError, blockError_stops_iff, hfirst, hget]
  split <;> rfl

/-- A command that is `DecCommon` faults as R140 says, completes with the bytes of its symbols, and raises the error at
the first code unit without a value. -/
theorem decodesBlock_of_decCommon {need : Nat} {bytes : State → List Byte} (hexec : exec i = decCommon v n)
    (hneed : v.family.tbytes n = need) (hbytes : ∀ s, s.inp.length = n → decSyms v s.inUnits = bytes s) :
    DecodesBlock i v n need bytes := by
  intro s
  subst hneed
  have hpass (h : ¬ overLimit s) : s.fixedTooLong = false := Bool.eq_false_iff.mpr (mt State.fixedTooLong_eq_true.mp h)
  rw [hexec]
  refine ⟨fun h => ?_, fun h hn => ?_, fun h hn hcap => ?_, fun h hn hcap hdata => ?_,
    fun j c h hn hcap hj hc hdata => ?_⟩
  · simp [decCommon, State.fixedTooLong_eq_true.mpr h]
  · simp [decCommon, hpass h, hn]
  · simp [decCommon, hpass h, hn, hcap]
  · refine ⟨_, inReg_regHold _ _, decCommon_next.mpr ⟨hpass h, hn, hcap, .inl ⟨blockError_of_data _ hdata, ?_⟩⟩⟩
    have hlen : (byteUnits (decSyms v s.inUnits)).length = v.family.tbytes n := by simp [byteUnits, hn]
    rw [State.completeOk, hlen, hbytes s hn]
  · have hjlt : j < s.inUnits.length := by
      by_contra hle
      simp [List.drop_eq_nil_of_le (Nat.le_of_not_lt hle)] at hj
    have herr := blockError_of_first s.cfg.width (s.inUnits.drop (j + 1)) hdata hc
    rw [← hj, List.take_append_drop, List.length_take, Nat.min_eq_left hjlt.le] at herr
    have hnext := decCommon_next.mpr ⟨hpass h, hn, hcap, .inr ⟨_, j, herr, rfl⟩⟩
    exact ⟨_, _, decCommon_out_length_le hnext, inReg_regHold _ j, hnext⟩

end Sys2Proof.Machine
end

section
/-! The D* commands as slices of the values of IN (42_block_decode.md R141 to R149): the values side by side, the
bytes of their slices, and the commands one by one. With the numbers of a command put in, the slices are those its
rule lists: `q` bytes, and `d` bits discarded below them. -/

open Sys2Proof.Claims

namespace Sys2Proof.Machine

variable {s : State} {i : Instr} {v : Variant} {f : Family} {k m n : Nat} {x : State → BitVec m}

/-- `x` is the first `n` values of IN side by side, as k-bit values, the first most significant. -/
def JoinsValues (v : Variant) (k n : Nat) (x : State → BitVec m) : Prop :=
  ∀ s, (x s).toNat = beNat k ((List.range n).map fun j => (val s v k j).toNat)

/-- One value joins alone. -/
theorem joinsValues_one (v : Variant) (k : Nat) : JoinsValues v k 1 (val · v k 0) := fun s => by simp [beNat]

/-- The next value joins below the values before it. -/
theorem JoinsValues.snoc (hx : JoinsValues v k n x) : JoinsValues v k (n + 1) fun s => x s ++ val s v k n := fun s => by
  rw [BitVec.toNat_append, ← Nat.shiftLeft_add_eq_or_of_lt (val s v k n).isLt, Nat.shiftLeft_eq, hx s,
    List.range_succ, List.map_append, beNat_append]
  simp [beNat]

/-- A value of IN as a k-bit value is the value itself. -/
theorem val_toNat (s : State) (v : Variant) (j : Nat) :
    (val s v v.family.k j).toNat = (REV v (s.inUnits.getD j 0)).getD 0 :=
  (BitVec.toNat_ofNat _ _).trans (Nat.mod_eq_of_lt (REV_getD_lt v _))

/-- The values of IN are those of its code units, index by index. -/
theorem dataValues_inUnits (h : s.inp.length = n) :
    dataValues v s.inUnits = (List.range n).map fun j => (val s v v.family.k j).toNat := by
  refine List.ext_getElem (by simp [h]) fun j hj _ => ?_
  rw [dataValues_length] at hj
  simp [dataValues, val_toNat, List.getElem?_eq_getElem hj]

/-- A command whose symbols give `q` bytes and leave `d` bits over. -/
theorem decodesBlock_of_slices (hf : v.family = f) (hx : JoinsValues v f.k n x) (q d : Nat)
    (hlen : n * f.k = 8 * q + d) (hd : d < 8) (hexec : exec i = decCommon v n) :
    DecodesBlock i v n q fun s => (List.range q).map fun j => (x s).extractLsb' (d + 8 * (q - j - 1)) 8 := by
  subst hf
  refine decodesBlock_of_decCommon hexec ?_ fun s h => ?_
  · rw [Family.tbytes, hlen]
    omega
  · rw [decSyms, dataValues_inUnits h]
    exact unpack_eq_slices (hx s) (by simpa using hlen) hd

/-- Settles O24: four values are three bytes. -/
theorem d64B4DecodesFourSymbols : Obligations.D64B4DecodesFourSymbols :=
  ⟨wordsOf_code .d64b4, fun _ hf =>
    decodesBlock_of_slices hf (joinsValues_one _ _).snoc.snoc.snoc 3 0 rfl (by decide) rfl⟩

/-- Settles O25: two values are a byte and 4 bits, three values are two bytes and 2 bits. -/
theorem d64TailsDecodeTwoOrThreeSymbols : Obligations.D64TailsDecodeTwoOrThreeSymbols :=
  ⟨wordsOf_code .d64t2, wordsOf_code .d64t3, fun _ hf =>
    ⟨decodesBlock_of_slices hf (joinsValues_one _ _).snoc 1 4 rfl (by decide) rfl,
      decodesBlock_of_slices hf (joinsValues_one _ _).snoc.snoc 2 2 rfl (by decide) rfl⟩⟩

/-- Settles O26: eight values are five bytes. -/
theorem d32B8DecodesEightSymbols : Obligations.D32B8DecodesEightSymbols :=
  ⟨wordsOf_code .d32b8, fun _ hf =>
    decodesBlock_of_slices hf (joinsValues_one _ _).snoc.snoc.snoc.snoc.snoc.snoc.snoc 5 0 rfl (by decide) rfl⟩

/-- Settles O27: two values are a byte and 2 bits, four values are two bytes and 4 bits. -/
theorem d32TailsDecodeTwoOrFourSymbols : Obligations.D32TailsDecodeTwoOrFourSymbols :=
  ⟨wordsOf_code .d32t2, wordsOf_code .d32t4, fun _ hf =>
    ⟨decodesBlock_of_slices hf (joinsValues_one _ _).snoc 1 2 rfl (by decide) rfl,
      decodesBlock_of_slices hf (joinsValues_one _ _).snoc.snoc.snoc 2 4 rfl (by decide) rfl⟩⟩

/-- Settles O28: five values are three bytes and 1 bit, seven values are four bytes and 3 bits. -/
theorem d32TailsDecodeFiveOrSevenSymbols : Obligations.D32TailsDecodeFiveOrSevenSymbols :=
  ⟨wordsOf_code .d32t5, wordsOf_code .d32t7, fun _ hf =>
    ⟨decodesBlock_of_slices hf (joinsValues_one _ _).snoc.snoc.snoc.snoc 3 1 rfl (by decide) rfl,
      decodesBlock_of_slices hf (joinsValues_one _ _).snoc.snoc.snoc.snoc.snoc.snoc 4 3 rfl (by decide) rfl⟩⟩

/-- Settles O29: two values are one byte, which is its own slice. -/
theorem d16B2DecodesTwoSymbols : Obligations.D16B2DecodesTwoSymbols := by
  refine ⟨wordsOf_code .d16b2, fun v hf => ?_⟩
  have hslices : DecodesBlock (.d16b2 v) v 2 1 fun s => [(val s v 4 0 ++ val s v 4 1).extractLsb' 0 8] :=
    decodesBlock_of_slices hf (joinsValues_one _ _).snoc 1 0 rfl (by decide) rfl
  simpa using hslices

end Sys2Proof.Machine
end

section
/-! DEC's groups as one conversion (43_bulk.md R183): a whole number of bytes unpacks apart from what follows it, so
the bytes of the groups are those of all data symbols at once. -/

namespace Sys2Proof.Machine

/-- Equally many bytes of one number are equal bytes. -/
theorem bytes_ext {a b : List Byte} (hlen : a.length = b.length)
    (hnum : beNat 8 (a.map BitVec.toNat) = beNat 8 (b.map BitVec.toNat)) : a = b := by
  have hdigit (b : List Byte) : ∀ x ∈ b.map BitVec.toNat, x < 2 ^ 8 := by
    simpa using fun (y : Byte) _ => y.isLt
  exact List.map_injective_iff.mpr (fun _ _ => BitVec.eq_of_toNat_eq)
    (beNat_inj 8 _ _ (by simpa using hlen) (hdigit a) (hdigit b) hnum)

/-- Values that fill whole bytes unpack apart from the values after them. -/
theorem unpack_append {x y : List Nat} {k n : Nat} (hx : ∀ g ∈ x, g < 2 ^ k) (hy : ∀ g ∈ y, g < 2 ^ k)
    (hn : x.length * k = 8 * n) : unpack (x ++ y) k = unpack x k ++ unpack y k := by
  have hlen : (x ++ y).length * k = 8 * n + y.length * k := by rw [List.length_append, Nat.add_mul, hn]
  have hbytes : (8 * n + y.length * k) / 8 = n + y.length * k / 8 := Nat.mul_add_div (by decide) _ _
  have hrest : 8 * n + y.length * k - 8 * (n + y.length * k / 8) = y.length * k - 8 * (y.length * k / 8) := by omega
  have hbits : k * y.length = 8 * (y.length * k / 8) + (y.length * k - 8 * (y.length * k / 8)) := by
    rw [Nat.mul_comm k]
    omega
  refine bytes_ext (by rw [unpack_length, hlen, hbytes]; simp [hn]) ?_
  calc beNat 8 ((unpack (x ++ y) k).map BitVec.toNat)
    _ = (beNat k x * 2 ^ (k * y.length) + beNat k y) / 2 ^ (y.length * k - 8 * (y.length * k / 8)) := by
      rw [beNat_unpack fun g hg => (List.mem_append.mp hg).elim (hx g) (hy g), hlen, hbytes, hrest, beNat_append]
    _ = beNat k x * 2 ^ (8 * (y.length * k / 8)) + beNat k y / 2 ^ (y.length * k - 8 * (y.length * k / 8)) := by
      rw [hbits, pow_add, ← Nat.mul_assoc, Nat.add_comm, Nat.add_mul_div_right _ _ (Nat.two_pow_pos _), Nat.add_comm]
    _ = beNat 8 ((unpack x k ++ unpack y k).map BitVec.toNat) := by
      rw [List.map_append, beNat_append, beNat_unpack hx, beNat_unpack hy, hn]
      simp

variable (v : Variant) (c : List CodeUnit)

/-- No symbols give no bytes. -/
@[simp] theorem decSyms_nil : decSyms v [] = [] := List.eq_nil_of_length_eq_zero (by simp [Family.tbytes])

variable {c} in
/-- A group's bytes stand before those of the symbols after it. -/
theorem decSyms_append (d : List CodeUnit) (hc : c.length = v.family.S) :
    decSyms v (c ++ d) = decSyms v c ++ decSyms v d := by
  have hbits : (dataValues v c).length * v.family.k = 8 * v.family.B := by
    rw [dataValues_length, hc, v.family.block_bits]
  have hvalues : dataValues v (c ++ d) = dataValues v c ++ dataValues v d := List.map_append
  rw [decSyms, hvalues, unpack_append (fun _ => dataValues_lt) (fun _ => dataValues_lt) hbits, decSyms, decSyms]

variable {c} in
/-- The bytes of the first groups and of the rest are the bytes of the whole. -/
theorem decGroups_append_decSyms {q : Nat} (h : q * v.family.S ≤ c.length) :
    ((List.range q).flatMap fun i => decSyms v ((c.drop (i * v.family.S)).take v.family.S)) ++
      decSyms v (c.drop (q * v.family.S)) = decSyms v c := by
  induction q with
  | zero => simp
  | succ q ih =>
    rw [Nat.succ_mul] at h
    have hgroup : ((c.drop (q * v.family.S)).take v.family.S).length = v.family.S := by
      rw [List.length_take, List.length_drop]
      omega
    rw [List.range_succ, List.flatMap_append, List.flatMap_singleton, List.append_assoc, Nat.succ_mul,
      ← List.drop_drop, ← decSyms_append v _ hgroup, List.take_append_drop]
    exact ih (by omega)

/-- DEC's groups give the bytes of all data symbols at once (43_bulk.md R183). -/
theorem decGroups_eq_decSyms : decGroups v c = decSyms v c := by
  have hsplit := Nat.div_add_mod' c.length v.family.S
  have hrest : c.length - c.length % v.family.S = c.length / v.family.S * v.family.S := by omega
  have htail : (if c.length % v.family.S > 0 then decSyms v (c.drop (c.length - c.length % v.family.S)) else []) =
      decSyms v (c.drop (c.length / v.family.S * v.family.S)) := by
    split
    · rw [hrest]
    · rw [List.drop_eq_nil_of_le (by omega), decSyms_nil]
  rw [decGroups, htail]
  exact decGroups_append_decSyms v (Nat.div_mul_le_self _ _)

/-- Whole groups before `r` symbols add whole blocks to their bytes (10_state.md R21). -/
theorem tbytes_groups_add (f : Family) (q r : Nat) : f.tbytes (q * f.S + r) = q * f.B + f.tbytes r := by
  have hbits : (q * f.S + r) * f.k = 8 * (q * f.B) + r * f.k := by
    rw [Nat.add_mul, Nat.mul_assoc, ← f.block_bits]
    ring
  rw [Family.tbytes, hbits, Nat.mul_add_div (by decide), Family.tbytes]

/-- No more bytes than symbols, since a symbol has at most eight bits (10_state.md R21). -/
theorem tbytes_le (f : Family) (n : Nat) : f.tbytes n ≤ n := by
  have hk : f.k ≤ 8 := by cases f <;> decide
  exact Nat.div_le_of_le_mul (Nat.mul_comm 8 n ▸ Nat.mul_le_mul_left n hk)

end Sys2Proof.Machine
end
section
/-! DEC's legal input (43_bulk.md R183, R185): data symbols whose last group is whole or a tail, alone or with the pads
that fill it. -/

open Sys2Proof.Claims

namespace Sys2Proof.Machine

/-- `n` data symbols leave a whole last group or a tail, and `q` pads after them are none or those that fill it. -/
def LegalCounts (f : Family) (n q : Nat) : Prop :=
  (q = 0 ∧ (n % f.S = 0 ∨ n % f.S ∈ f.tails)) ∨ (n % f.S ∈ f.tails ∧ q = f.S - n % f.S)

variable {w : Width} {v : Variant} {u data : List CodeUnit} {n q : Nat}

/-- Without pads the last group decides. -/
theorem legalCounts_zero {f : Family} : LegalCounts f n 0 ↔ n % f.S = 0 ∨ n % f.S ∈ f.tails := by
  have hfill : f.S - n % f.S ≠ 0 := Nat.sub_ne_zero_of_lt (Nat.mod_lt n f.S_pos)
  simp [LegalCounts, hfill.symm]

/-- With pads the last group is a tail that they fill. -/
theorem legalCounts_of_pos {f : Family} (hq : 0 < q) : LegalCounts f n q ↔ n % f.S ∈ f.tails ∧ q = f.S - n % f.S := by
  simp [LegalCounts, hq.ne']

/-- No code unit other than the pad is found exactly where all are pads. -/
theorem findIdx?_ne_PAD_eq_none_iff :
    u.findIdx? (fun x => x != zextW w (PAD v)) = none ↔ u = List.replicate u.length (zextW w (PAD v)) := by
  simp [List.eq_replicate_iff]

/-- No code unit without a value is found exactly where all are data symbols. -/
theorem findIdx?_isNone_eq_none_iff : u.findIdx? (fun x => (REV v x).isNone) = none ↔ ∀ x ∈ u, isData v x := by
  simp [isData, Option.isSome_iff_ne_none]

/-- The pass from the first pad on finds no error exactly where a tail is filled by pads to the end. -/
theorem paddingError_eq_none_iff {p r : Nat} :
    paddingError w v u p r = none ↔
      r ∈ v.family.tails ∧ u.drop (p + 1) = List.replicate (u.length - (p + 1)) (zextW w (PAD v)) ∧
        u.length - p = v.family.S - r := by
  rw [← List.length_drop, ← findIdx?_ne_PAD_eq_none_iff]
  unfold paddingError
  by_cases hr : r ∈ v.family.tails
  · simp only [hr, not_true_eq_false, if_false, true_and]
    split
    · split <;> simp [*]
    · simp only [*, true_and]
      split_ifs <;> simp <;> omega
  · simp [hr]

/-- The pass of R183 finds no error exactly on legal input: data symbols before the first pad, pads from it on. -/
theorem bulkError_eq_none_iff :
    bulkError w v u = none ↔
      (∀ x ∈ u.take (firstPad w v u), isData v x) ∧
        u.drop (firstPad w v u) = List.replicate (u.length - firstPad w v u) (zextW w (PAD v)) ∧
        LegalCounts v.family (firstPad w v u) (u.length - firstPad w v u) := by
  rw [← findIdx?_isNone_eq_none_iff]
  unfold bulkError
  simp only
  cases (u.take (firstPad w v u)).findIdx? (fun x => (REV v x).isNone) with
  | some i => simp
  | none =>
    have hle : firstPad w v u ≤ u.length := List.findIdx_le_length
    by_cases hlt : firstPad w v u < u.length
    · have hpad : u[firstPad w v u] = zextW w (PAD v) :=
        beq_iff_eq.mp (List.findIdx_getElem (p := fun x => x == zextW w (PAD v)) (w := hlt))
      have hdrop : u.drop (firstPad w v u) = List.replicate (u.length - firstPad w v u) (zextW w (PAD v)) ↔
          u.drop (firstPad w v u + 1) = List.replicate (u.length - (firstPad w v u + 1)) (zextW w (PAD v)) := by
        rw [List.drop_eq_getElem_cons hlt, hpad,
          show u.length - firstPad w v u = u.length - (firstPad w v u + 1) + 1 by omega, List.replicate_succ]
        simp
      simp only [hlt, if_true, true_and]
      rw [paddingError_eq_none_iff, hdrop, legalCounts_of_pos (Nat.sub_pos_of_lt hlt)]
      exact and_left_comm
    · have hend : firstPad w v u = u.length := by omega
      rw [hend, Nat.sub_self, legalCounts_zero]
      simp [or_iff_not_imp_left]

/-- The first pad stands after the data symbols. -/
theorem firstPad_of_data (hdata : ∀ x ∈ data, isData v x) (q : Nat) :
    firstPad w v (data ++ List.replicate q (zextW w (PAD v))) = data.length := by
  have hne : ∀ x ∈ data, x ≠ zextW w (PAD v) := fun x hx h => hdata x hx (h ▸ REV_zextW_PAD v w)
  have hlast : data.findIdx (fun x => x == zextW w (PAD v)) = data.length :=
    List.findIdx_eq_length.mpr (by simpa using hne)
  rw [firstPad, List.findIdx_append, hlast, if_neg (Nat.lt_irrefl _)]
  cases q <;> simp [List.replicate_succ, List.findIdx_cons]

/-- Legal input raises no error. -/
theorem bulkError_of_legal (hdata : ∀ x ∈ data, isData v x) (hq : LegalCounts v.family data.length q) :
    bulkError w v (data ++ List.replicate q (zextW w (PAD v))) = none := by
  rw [bulkError_eq_none_iff, firstPad_of_data hdata]
  simpa using ⟨hdata, hq⟩

/-- Input that raises no error is legal: the data symbols are those before the first pad. -/
theorem legal_of_bulkError_eq_none (h : bulkError w v u = none) :
    ∃ (data : List CodeUnit) (q : Nat), (∀ x ∈ data, isData v x) ∧
      u = data ++ List.replicate q (zextW w (PAD v)) ∧ LegalCounts v.family data.length q := by
  obtain ⟨hdata, hpads, hq⟩ := bulkError_eq_none_iff.mp h
  have hlen : (u.take (firstPad w v u)).length = firstPad w v u := List.length_take_of_le List.findIdx_le_length
  refine ⟨_, _, hdata, ?_, hlen.symm ▸ hq⟩
  rw [hlen, ← hpads, List.take_append_drop]

end Sys2Proof.Machine
end
section
/-! The bulk commands' words, faults and outcomes (43_bulk.md R180 to R185). -/

open Sys2Proof.Claims

namespace Sys2Proof.Machine

variable {v : Variant} {p : Bool} {s : State} {data : List CodeUnit} {q : Nat}

/-- IN is too long where it exceeds a finite MAX_LEN (60_exceptions.md R248). -/
theorem State.tooLong_eq_true {m : Nat} (hm : s.cfg.maxLen = some m) (h : m < s.inp.length) : s.tooLong = true := by
  simp [State.tooLong, hm, h]

/-- What DEC answers on legal input: the bytes of its data symbols, their number in COUNT (43_bulk.md R183, R184). -/
theorem exec_dec_of_legal (hok : DecOperandsOk v s) (hdata : ∀ x ∈ data, isData v x)
    (hin : s.inUnits = data ++ List.replicate q (zextW s.cfg.width (PAD v)))
    (hq : LegalCounts v.family data.length q) :
    exec (.dec v) s = .next
      { s with
        out := byteUnits (decSyms v data)
        status := .holds .ok
        count := .holds (v.family.tbytes data.length)
        erroff := .unwritten } := by
  obtain ⟨hlen, hcap⟩ := hok
  have hnone : bulkError s.cfg.width v s.inUnits = none := hin ▸ bulkError_of_legal hdata hq
  have htake : s.inUnits.take (firstPad s.cfg.width v s.inUnits) = data := by simp [hin, firstPad_of_data hdata]
  have hout : (byteUnits (decSyms v data)).length = v.family.tbytes data.length := by simp [byteUnits]
  have hdatalen : data.length ≤ s.inp.length := by
    rw [← State.inUnits_length, hin, List.length_append]
    exact Nat.le_add_right _ _
  have hfits : regHold s.cfg (v.family.tbytes data.length) = v.family.tbytes data.length :=
    regHold_of_le fun m hm =>
      ((tbytes_le _ _).trans hdatalen).trans (State.tooLong_eq_false.mp hlen m hm)
  refine execDec_next.mpr ⟨hlen, hcap, .inl ⟨hnone, ?_⟩⟩
  rw [htake, decGroups_eq_decSyms, State.completeOk, hout, hfits]

/-- Settles O36: DEC's words are those of its operation, and its two checks come before the pass over IN. -/
theorem decFaultsOnLengthAndCapacity : Obligations.DecFaultsOnLengthAndCapacity := by
  refine ⟨wordsOf_code .dec, fun v s => ⟨fun m hm h => ?_, fun hlen hcap => ?_⟩⟩
  · simp [exec, execDec, State.tooLong_eq_true hm h]
  · simp [exec, execDec, State.tooLong_eq_false.mpr hlen, hcap]

/-- Settles O34: the groups' bytes are those of the data symbols, and whole groups give whole blocks. -/
theorem decDecodesLegalInput : Obligations.DecDecodesLegalInput := by
  intro v s data q hok hdata hin hq
  have hsplit := tbytes_groups_add v.family (data.length / v.family.S) (data.length % v.family.S)
  rw [Nat.div_add_mod'] at hsplit
  rw [← Nat.div_eq_sub_mod_div, ← hsplit, exec_dec_of_legal hok hdata hin hq, ← decGroups_eq_decSyms]
  rfl

/-- Settles O35: DEC completes exactly where its pass finds no error. -/
theorem decAcceptsExactlyLegalInput : Obligations.DecAcceptsExactlyLegalInput := by
  intro v s hok
  constructor
  · rintro ⟨t, ht, hstatus⟩
    obtain ⟨-, -, ⟨hnone, -⟩ | ⟨e, off, herr, rfl⟩⟩ := execDec_next.mp ht
    · exact legal_of_bulkError_eq_none hnone
    · obtain ⟨he, -⟩ := bulkError_some herr
      exact absurd (by simpa using hstatus) he
  · rintro ⟨data, q, hdata, hin, hq⟩
    exact ⟨_, exec_dec_of_legal hok hdata hin hq, rfl⟩

/-- Settles O30: `encAll` with its length, and the registers of a completing command. -/
theorem encEncodesBlocksThenTail : Obligations.EncEncodesBlocksThenTail := by
  refine ⟨wordsOf_code .enc, fun v p s => ?_⟩
  have hout : ((List.range (s.inp.length / v.family.B)).flatMap fun i =>
        encSyms s.cfg.width v ((s.inBytes.drop (i * v.family.B)).take v.family.B)) ++
      encTail s.cfg.width v (s.inBytes.drop (s.inp.length / v.family.B * v.family.B)) p =
      encAll s.cfg.width v p s.inBytes := by
    rw [← State.inBytes_length]
    rfl
  simp only [hout]
  refine ⟨?_, fun m hm h => ?_, fun hlen => ⟨fun hcap => ?_, fun hcap => ?_⟩⟩
  · rw [encAll_length, State.inBytes_length]
  · simp [exec, execEnc, State.tooLong_eq_true hm h]
  · simp [exec, execEnc, State.tooLong_eq_false.mpr hlen, hcap]
  · exact ⟨_, inReg_regHold _ _, execEnc_next.mpr ⟨State.tooLong_eq_false.mpr hlen, hcap, rfl⟩⟩

end Sys2Proof.Machine
end
section
/-! Transactions whose IN is bytes (20_memory.md R61): they fit every encode command, which reads them as they are. -/

open Sys2Proof.Claims

namespace Sys2Proof.Machine

variable {v : Variant} {p : Bool} {s : State} {b : List Byte} {cap c : Nat}

/-- As many elements as bytes. -/
@[simp] theorem units_length (b : List Byte) : (units b).length = b.length := by simp [units]

/-- Bytes presented are the bytes read. -/
theorem latch_units_inBytes {cmd : CmdWord} : (s.latch ⟨cmd, units b, cap, c⟩).inBytes = b := by
  simp [State.inBytes, units, Function.comp_def]

/-- A transaction of bytes runs its encode command. -/
theorem transact_units {i : Instr} (hwf : i.WellFormed) (hbits : inBits s.cfg.width i.op = 8) :
    transact ⟨encode i, units b, cap, c⟩ s = exec i (s.latch ⟨encode i, units b, cap, c⟩) := by
  refine transact_of_fits (decode_eq_ok_iff.mpr ⟨hwf, rfl⟩) (Request.fits_iff.mpr fun x hx => ?_)
  rw [hbits]
  exact toNat_lt_of_mem_byteUnits hx

/-- A transaction of ENC with room for its groups gives the encoding of its bytes (43_bulk.md R180). -/
theorem transact_enc (hlen : ∀ m, s.cfg.maxLen = some m → b.length ≤ m)
    (hcap : ceilDiv b.length v.family.B * v.family.S ≤ cap) :
    transact ⟨encode (.enc v p), units b, cap, c⟩ s =
      .next ((s.latch ⟨encode (.enc v p), units b, cap, c⟩).completeOk (encAll s.cfg.width v p b)) := by
  rw [transact_units rfl rfl]
  refine execEnc_next.mpr ⟨State.tooLong_eq_false.mpr ?_, ?_, ?_⟩
  · simpa using hlen
  · simpa using hcap
  · rw [latch_units_inBytes, State.latch_cfg]

end Sys2Proof.Machine
end

section
/-! Full blocks of family 64 through E64B3 and E64B6 (43_bulk.md R181): each transaction gives the symbols of its own
bytes, and symbols of full blocks join to those of the whole. -/

open Sys2Proof.Claims

namespace Sys2Proof.Machine

variable {v : Variant} {s : State} {b : List Byte} {n : Nat}

/-- The symbols of full blocks stand before those of the bytes after them. -/
theorem encSyms_append_blocks (w : Width) {a : List Byte} (b : List Byte) {q : Nat} (ha : a.length = q * v.family.B) :
    encSyms w v (a ++ b) = encSyms w v a ++ encSyms w v b := by
  have hbits : 8 * a.length = q * v.family.S * v.family.k := by
    rw [ha, Nat.mul_assoc, ← v.family.block_bits]
    ring
  simp only [encSyms, pack_append b v.family.k_pos hbits, List.map_append]

/-- Full blocks encode to their symbols alone, whatever P is (43_bulk.md R180). -/
theorem encAll_of_blocks (w : Width) (p : Bool) {q : Nat} (hb : b.length = q * v.family.B) :
    encAll w v p b = encSyms w v b := by
  have hpads := padCount_blocks_add v q 0
  have hnone : padCount v 0 = 0 := by simp [padCount, v.family.B_pos]
  rw [Nat.add_zero, ← hb, hnone] at hpads
  simp [encAll_eq, hpads]

/-- E64B3 and E64B6 are `EncCommon` of the symbols of IN, at 3 and 6 bytes (41_block_encode.md R101, R102). -/
theorem exec_block64 (hf : v.family = .f64) (hn : n = 3 ∨ n = 6) (hfix : s.fixedTooLong = false)
    (hin : s.inp.length = n) (hcap : 8 ≤ s.outcap) :
    exec (if n = 6 then .e64b6 v else .e64b3 v) s = .next (s.completeOk (encSyms s.cfg.width v s.inBytes)) := by
  obtain rfl | rfl := hn
  · exact encCommon_next.mpr ⟨hfix, hin, by omega, rfl⟩
  · have hhalf : (s.inBytes.take 3).length = v.family.B := by simp [hin, hf, Family.B]
    have hjoin := encSyms_append s.cfg.width v (s.inBytes.drop 3) hhalf
    rw [List.take_append_drop] at hjoin
    rw [hjoin]
    exact (encCommon_next (body := fun b => encSyms s.cfg.width v (b.take 3) ++ encSyms s.cfg.width v (b.drop 3))).mpr
      ⟨hfix, hin, hcap, rfl⟩

/-- A transaction of E64B3 or E64B6 that MAX_LEN admits gives the symbols of its bytes. -/
theorem transact_block64 (hf : v.family = .f64) (hn : n = 3 ∨ n = 6) (hb : b.length = n)
    (hlen : s.cfg.lengthRule = .everyCommand → ∀ m, s.cfg.maxLen = some m → n ≤ m) :
    ∃ t : State, transact ⟨encode (if n = 6 then .e64b6 v else .e64b3 v), units b, 8, 0⟩ s = .next t ∧
      t.out = encSyms s.cfg.width v b ∧ t.cfg = s.cfg ∧ t.ctxs = s.ctxs := by
  have hwf : (if n = 6 then Instr.e64b6 v else .e64b3 v).WellFormed := by
    split <;> exact decide_eq_true hf
  have hbits : inBits s.cfg.width (if n = 6 then Instr.e64b6 v else .e64b3 v).op = 8 := by split <;> rfl
  rw [transact_units hwf hbits, exec_block64 hf hn (State.fixedTooLong_eq_false.mpr (by simpa [hb] using hlen))
    (by simpa using hb) le_rfl, latch_units_inBytes]
  exact ⟨_, rfl, rfl, rfl, rfl⟩

/-- The OUTs of a list of blocks join to the symbols of the whole, and no context changes. -/
theorem collect_driverRequests (hf : v.family = .f64) (sizes : List Nat) (hsize : ∀ n ∈ sizes, n = 3 ∨ n = 6)
    (hsum : sizes.sum = b.length)
    (hlen : s.cfg.lengthRule = .everyCommand → ∀ m, s.cfg.maxLen = some m → ∀ n ∈ sizes, n ≤ m) :
    ∃ t : State, collect (driverRequests v b sizes) s = .next (encSyms s.cfg.width v b, t) ∧ t.ctxs = s.ctxs := by
  induction sizes generalizing b s with
  | nil =>
    obtain rfl := List.eq_nil_of_length_eq_zero hsum.symm
    exact ⟨s, by simp [driverRequests, collect, encSyms, v.family.k_pos], rfl⟩
  | cons n sizes ih =>
    rw [List.sum_cons] at hsum
    have hn := hsize n List.mem_cons_self
    have hblock : (b.take n).length = n := by
      rw [List.length_take]
      omega
    obtain ⟨t, ht, hout, hcfg, hctxs⟩ := transact_block64 hf hn hblock fun h m hm => hlen h m hm n List.mem_cons_self
    obtain ⟨u, hu, huctxs⟩ := ih (b := b.drop n) (s := t) (fun k hk => hsize k (List.mem_cons_of_mem n hk))
      (by rw [List.length_drop]; omega) (hcfg ▸ fun h m hm k hk => hlen h m hm k (List.mem_cons_of_mem n hk))
    have hwhole : (b.take n).length = n / 3 * v.family.B := by
      rw [hblock, hf, Family.B]
      omega
    have hjoin := encSyms_append_blocks s.cfg.width (b.drop n) hwhole
    rw [List.take_append_drop] at hjoin
    refine ⟨u, ?_, huctxs.trans hctxs⟩
    rw [driverRequests, collect_cons ht hu, hout, hcfg, ← hjoin]

/-- Sizes of full blocks of family 64 add up to full blocks. -/
theorem three_dvd_sum {sizes : List Nat} (h : ∀ n ∈ sizes, n = 3 ∨ n = 6) : 3 ∣ sizes.sum :=
  List.dvd_sum fun n hn => by obtain rfl | rfl := h n hn <;> decide

/-- Settles O32: the OUTs are the symbols of `b`, and full blocks take no pads. -/
theorem blockSplitIsNotObservable : Obligations.BlockSplitIsNotObservable := by
  intro v p b sizes s hf hsize hsum hlen
  obtain ⟨q, hq⟩ := hsum ▸ three_dvd_sum hsize
  have hblocks : b.length = q * v.family.B := by rw [hq, hf, Nat.mul_comm, Family.B]
  rw [encAll_of_blocks s.cfg.width p hblocks]
  exact collect_driverRequests hf sizes hsize hsum hlen

end Sys2Proof.Machine
end
section
/-! The round trip (43_bulk.md R186): ENC's output is legal input of DEC, whose data symbols decode to the bytes. -/

open Sys2Proof.Claims

namespace Sys2Proof.Machine

variable {v : Variant} {p : Bool} {s : State}

/-- The symbols of bytes decode to them, for no bytes too (42_block_decode.md R150). -/
theorem decSyms_encSyms (w : Width) (v : Variant) (b : List Byte) : decSyms v (encSyms w v b) = b := by
  rw [decSyms, dataValues_encSyms]
  exact unpack_pack b v.family.k_pos (by cases v.family <;> decide)

/-- The symbols of bytes are code units of the alphabet. -/
theorem isData_of_mem_encSyms {w : Width} {b : List Byte} {x : CodeUnit} (h : x ∈ encSyms w v b) : isData v x := by
  obtain ⟨g, hg, rfl⟩ := isSymbol_of_mem_encSyms h
  simp [isData, REV_zextW_FWD w hg]

/-- The symbols of `n` bytes leave a legal last group, which ENC's pads fill (43_bulk.md R182, R187). -/
theorem legalCounts_tsym (v : Variant) (p : Bool) (n : Nat) :
    LegalCounts v.family (v.family.tsym n) (if p then padCount v n else 0) := by
  have hr : n % v.family.B < v.family.B := Nat.mod_lt n v.family.B_pos
  have hmod : v.family.tsym n % v.family.S = v.family.tsym (n % v.family.B) := by
    rw [← Nat.div_add_mod' n v.family.B, v.family.tsym_blocks_add, Nat.mul_add_mod', Nat.div_add_mod',
      Nat.mod_eq_of_lt (v.family.tsym_lt _ hr)]
  have hpads := padCount_blocks_add v (n / v.family.B) (n % v.family.B)
  rw [Nat.div_add_mod'] at hpads
  rw [LegalCounts, hmod, hpads]
  by_cases h0 : n % v.family.B = 0
  · simp [h0, padCount, Family.tsym, v.family.B_pos, v.family.k_pos]
  · have htail : v.family.tsym (n % v.family.B) ∈ v.family.tails :=
      List.mem_map_of_mem (List.mem_range'_1.mpr ⟨Nat.pos_of_ne_zero h0, by omega⟩)
    have hone : ceilDiv (n % v.family.B) v.family.B = 1 := ceilDiv_eq_one (Nat.pos_of_ne_zero h0) hr.le
    cases p <;> simp [htail, padCount, hone]

/-- ENC's output as data symbols and pads (43_bulk.md R180). -/
theorem encAll_eq_replicate (w : Width) (v : Variant) (p : Bool) (b : List Byte) :
    encAll w v p b =
      encSyms w v b ++ List.replicate (if p then padCount v b.length else 0) (zextW w (PAD v)) := by
  rw [encAll_eq]
  cases p <;> rfl

/-- ENC's output is code units of W bits (20_memory.md R63). -/
theorem toNat_lt_of_mem_encAll {w : Width} {b : List Byte} {x : CodeUnit} (h : x ∈ encAll w v p b) :
    x.toNat < 2 ^ w.bits := by
  have hbyte : 256 ≤ 2 ^ w.bits := by cases w <;> decide
  rw [encAll_eq] at h
  exact (toNat_lt_of_pad_or_symbol (pad_or_symbol_of_mem_padded h)).trans_le hbyte

/-- DEC with ENC's output as its IN, MAX_LEN and OUTCAP admitting it, gives the bytes back. -/
theorem exec_dec_of_encAll {b : List Byte} (hin : s.inp = encAll s.cfg.width v p b)
    (hlen : ∀ m, s.cfg.maxLen = some m → s.inp.length ≤ m)
    (hcap : ceilDiv b.length v.family.B * v.family.B ≤ s.outcap) :
    exec (.dec v) s = .next
      { s with out := units b, status := .holds .ok, count := .holds b.length, erroff := .unwritten } := by
  have hunits : s.inUnits = encAll s.cfg.width v p b :=
    (State.inUnits_eq_inp fun x hx => toNat_lt_of_mem_encAll (hin ▸ hx)).trans hin
  have hgroups : ceilDiv s.inp.length v.family.S ≤ ceilDiv b.length v.family.B :=
    (ceilDiv_le_iff v.family.S_pos).mpr (hin ▸ encAll_length_le _ v p b)
  have hok : DecOperandsOk v s :=
    ⟨State.tooLong_eq_false.mpr hlen, (Nat.mul_le_mul_right _ hgroups).trans hcap⟩
  have hbytes : v.family.tbytes (encSyms s.cfg.width v b).length = b.length := by
    rw [← decSyms_length, decSyms_encSyms]
  rw [exec_dec_of_legal hok (fun _ => isData_of_mem_encSyms) (hunits.trans (encAll_eq_replicate _ v p b))
    (encSyms_length s.cfg.width v b ▸ legalCounts_tsym v p b.length), decSyms_encSyms, hbytes]
  rfl

/-- Settles O37: ENC's OUT is `encAll` of the bytes, which fits DEC and is its legal input. -/
theorem decOfEncIsTheInput : Obligations.DecOfEncIsTheInput := by
  intro v p b c cap capd s hlen hcap hcapd
  have henc := transact_enc (v := v) (p := p) (c := c) (fun m hm => (hlen m hm).2) hcap
  have hfits : (Request.mk (encode (.dec v)) (encAll s.cfg.width v p b) capd c).fits s.cfg.width .dec = true :=
    Request.fits_iff.mpr fun x => toNat_lt_of_mem_encAll
  have hdec := exec_dec_of_encAll (v := v) (p := p) (b := b)
    (s := ((s.latch ⟨encode (.enc v p), units b, cap, c⟩).completeOk (encAll s.cfg.width v p b)).latch
      ⟨encode (.dec v), encAll s.cfg.width v p b, capd, c⟩)
    rfl (fun m hm => (encAll_length _ v p b).trans_le (hlen m hm).1) hcapd
  exact ⟨_, _, henc, rfl, (transact_of_fits (decode_eq_ok_iff.mpr ⟨rfl, rfl⟩) hfits).trans hdec, rfl, rfl, rfl⟩

end Sys2Proof.Machine
end

section
/-! Buffers of bytes as full blocks and a remainder (43_bulk.md R180, 44_streaming.md R212). -/

namespace Sys2Proof

/-- A block is at most five bytes, so less than a block fits the four carry cells (10_state.md R21, R40). -/
theorem Family.B_le_five (f : Family) : f.B ≤ 5 := by cases f <;> decide

/-- The whole groups of a part are at most the groups that hold all. -/
theorem div_le_ceilDiv {a n k : Nat} (hk : 0 < k) (h : a ≤ n) : a / k ≤ ceilDiv n k :=
  Nat.div_le_div_right (by omega)

end Sys2Proof

namespace Sys2Proof.Machine

variable {w : Width} {v : Variant} {p : Bool} {a b : List Byte}

/-- The bytes of a buffer that fill whole blocks. -/
def fullBytes (v : Variant) (b : List Byte) : List Byte := b.take (b.length / v.family.B * v.family.B)

/-- The bytes of a buffer after its full blocks. -/
def restBytes (v : Variant) (b : List Byte) : List Byte := b.drop (b.length / v.family.B * v.family.B)

/-- The two parts make up the buffer. -/
@[simp] theorem fullBytes_append_restBytes (v : Variant) (b : List Byte) : fullBytes v b ++ restBytes v b = b :=
  List.take_append_drop _ _

/-- The full blocks are whole blocks. -/
theorem fullBytes_length (v : Variant) (b : List Byte) :
    (fullBytes v b).length = b.length / v.family.B * v.family.B := by
  rw [fullBytes, List.length_take, Nat.min_eq_left (Nat.div_mul_le_self _ _)]

/-- The rest is the remainder of a division into blocks. -/
theorem restBytes_length (v : Variant) (b : List Byte) : (restBytes v b).length = b.length % v.family.B := by
  rw [restBytes, List.length_drop, ← Nat.mod_eq_sub_div_mul]

/-- The rest is less than a block. -/
theorem restBytes_length_lt (v : Variant) (b : List Byte) : (restBytes v b).length < v.family.B := by
  rw [restBytes_length]
  exact Nat.mod_lt _ v.family.B_pos

/-- Less than a block holds no full one. -/
theorem fullBytes_of_short (h : b.length < v.family.B) : fullBytes v b = [] := by
  simp [fullBytes, Nat.div_eq_of_lt h]

/-- Less than a block is all rest. -/
theorem restBytes_of_short (h : b.length < v.family.B) : restBytes v b = b := by
  simp [restBytes, Nat.div_eq_of_lt h]

/-- No bytes give no symbols. -/
@[simp] theorem encSyms_nil (w : Width) (v : Variant) : encSyms w v [] = [] := by
  simp [encSyms, v.family.k_pos]

/-- Block by block the full blocks give the symbols of their bytes at once. -/
theorem encBlocks_eq_encSyms (w : Width) (v : Variant) (b : List Byte) :
    encBlocks w v (b.length / v.family.B) b = encSyms w v (fullBytes v b) := by
  have hwhole := encBlocks_append_encSyms w v (Nat.div_mul_le_self b.length v.family.B)
  have hsplit := encSyms_append_blocks w (restBytes v b) (fullBytes_length v b)
  rw [fullBytes_append_restBytes, ← hwhole] at hsplit
  exact List.append_cancel_right hsplit

/-- Each full block gives a group of symbols. -/
theorem encSyms_fullBytes_length (w : Width) (v : Variant) (b : List Byte) :
    (encSyms w v (fullBytes v b)).length = b.length / v.family.B * v.family.S := by
  have hblocks := v.family.tsym_blocks_add (b.length / v.family.B) 0
  rw [encSyms_length, fullBytes_length]
  simpa [Family.tsym, v.family.k_pos] using hblocks

/-- The symbols of full blocks stand before the encoding of the bytes after them. -/
theorem encAll_append_blocks (w : Width) (p : Bool) (b : List Byte) {q : Nat} (ha : a.length = q * v.family.B) :
    encAll w v p (a ++ b) = encSyms w v a ++ encAll w v p b := by
  rw [encAll_eq, encAll_eq, encSyms_append_blocks w b ha, List.length_append, ha, padCount_blocks_add,
    List.append_assoc]

/-- Less than a block encodes to its tail block. -/
theorem encAll_of_short (w : Width) (p : Bool) (h : b.length < v.family.B) : encAll w v p b = encTail w v b p := by
  rw [encAll_eq, encTail_eq w v p h]

end Sys2Proof.Machine
end

section
/-! The streaming commands' words, faults and outcomes (44_streaming.md R210 to R214), from what a context carries. -/

open Sys2Proof.Claims

namespace Sys2Proof.Machine

variable {v : Variant} {p : Bool} {s t : State} {x : Context} {a : List Byte}

/-! ### What a context carries -/

/-- A context that SFEED and SFIN of `v` take, carrying these bytes, which are less than a block (10_state.md R40,
R41; 44_streaming.md R211). -/
structure Context.Carries (x : Context) (v : Variant) (a : List Byte) : Prop where
  check : ctxCheck x v = none
  pending : x.pending.toNat = a.length
  carried : x.carried = a
  short : a.length < v.family.B

/-- A context that passes CtxCheck with PENDING below the block size carries its PENDING bytes. -/
theorem carries_of_pending_lt (hc : ctxCheck x v = none) (hp : x.pending.toNat < v.family.B) :
    x.Carries v x.carried := by
  have hB := v.family.B_le_five
  have hlen : x.carried.length = x.pending.toNat := by
    rw [carried_length, Nat.min_eq_left (by omega)]
  exact ⟨hc, hlen.symm, rfl, hlen ▸ hp⟩

/-- SFEED's buffer, the carried bytes and IN, is of length PENDING and |IN| (R212). -/
theorem Context.Carries.buffer_length (hx : s.ctx.Carries v a) :
    (a ++ s.inBytes).length = s.ctx.pending.toNat + s.inp.length := by
  rw [List.length_append, State.inBytes_length, hx.pending]

/-- CTXINIT leaves a context that carries nothing, for every variant. -/
theorem emptyContext_carries (v : Variant) : emptyContext.Carries v [] := ⟨rfl, rfl, rfl, v.family.B_pos⟩

/-- SFEED leaves a context that carries the rest of the buffer (R212). -/
theorem feedContext_carries (hc : ctxCheck s.ctx v = none) (b : List Byte) :
    (feedContext s v (restBytes v b)).Carries v (restBytes v b) := by
  have hB := v.family.B_le_five
  have hlt := restBytes_length_lt v b
  obtain ⟨hinit, hfin, -⟩ := (ctxCheck_eq_none _ _).mp hc
  exact ⟨(ctxCheck_eq_none _ _).mpr ⟨hinit, hfin, .inr rfl⟩, feedContext_pending (by omega),
    feedContext_carried (by omega), hlt⟩

/-! ### The context check (R211) -/

/-- SFEED faults as CtxCheck says, where MAX_LEN admits IN. -/
theorem exec_sfeed_of_ctxCheck {f : Fault} (hlen : s.tooLong = false) (hc : ctxCheck s.ctx v = some f) :
    exec (.sfeed v) s = .fault f := by
  simp [exec, execSfeed, hlen, hc]

/-- SFIN faults as CtxCheck says, where IN is empty. -/
theorem exec_sfin_of_ctxCheck {f : Fault} (hin : s.inp = []) (hc : ctxCheck s.ctx v = some f) :
    exec (.sfin v p) s = .fault f := by
  simp [exec, execSfin, State.fixedTooLong_of_nil hin, hin, hc]

/-- Settles O40: the three faults are those of CtxCheck, in its order. -/
theorem streamingChecksTheContext : Obligations.StreamingChecksTheContext := by
  intro v p s
  have hboth {f : Fault} (hc : ctxCheck s.ctx v = some f) :
      (s.tooLong = false → exec (.sfeed v) s = .fault f) ∧ (s.inp = [] → exec (.sfin v p) s = .fault f) :=
    ⟨fun hlen => exec_sfeed_of_ctxCheck hlen hc, fun hin => exec_sfin_of_ctxCheck hin hc⟩
  refine ⟨fun hinit => hboth ?_, fun hinit hfin => hboth ?_, fun u hinit hfin hbound hne => hboth ?_⟩
  · simp [ctxCheck, hinit]
  · simp [ctxCheck, hinit, hfin]
  · simp [ctxCheck, hinit, hfin, hbound, hne]

/-! ### CTXINIT (R210) -/

/-- Settles O38: CTXINIT's checks in order, then `emptyContext`. -/
theorem ctxinitZeroInitialises : Obligations.CtxinitZeroInitialises := by
  refine ⟨wordsOf_code .ctxinit, fun s => ⟨fun h => ?_, fun h hin => ?_, fun hin => ?_⟩⟩
  · simp [exec, execCtxinit, State.fixedTooLong_eq_true.mpr h]
  · simp [exec, execCtxinit, mt State.fixedTooLong_eq_true.mp h, hin]
  · refine execCtxinit_next.mpr ⟨hin, ?_⟩
    rw [State.completeOk, List.length_nil, regHold_zero]
    rfl

/-! ### SFEED (R212, R213) -/

/-- SFEED, by the bytes its context carries: the symbols of the full blocks of those bytes and IN, and a context that
carries the rest (R212). -/
theorem exec_sfeed_next (hx : s.ctx.Carries v a) :
    exec (.sfeed v) s = .next t ↔
      s.tooLong = false ∧ (a ++ s.inBytes).length / v.family.B * v.family.S ≤ s.outcap ∧
        t = ((s.setCtx (feedContext s v (restBytes v (a ++ s.inBytes)))).drawn).completeOk
          (encSyms s.cfg.width v (fullBytes v (a ++ s.inBytes))) := by
  rw [exec, execSfeed_next, ← hx.buffer_length, hx.carried, encBlocks_eq_encSyms, ← restBytes]
  simp [hx.check]

/-- Settles O41: SFEED's checks in order, then `exec_sfeed_next`, its symbols written block by block. -/
theorem sfeedEmitsFullBlocks : Obligations.SfeedEmitsFullBlocks := by
  refine ⟨wordsOf_code .sfeed, fun v s hinit hfin hbound hp => ?_⟩
  have hc := (ctxCheck_eq_none _ _).mpr ⟨hinit, hfin, hbound⟩
  have hx := carries_of_pending_lt hc hp
  refine ⟨fun m hm h => ?_, fun hlen hcap => ?_, fun hlen hcap => ?_⟩
  · simp [exec, execSfeed, State.tooLong_eq_true hm h]
  · simp [exec, execSfeed, hlen, hc, hcap]
  · have hrest := feedContext_carries hc (s.ctx.carried ++ s.inBytes)
    rw [← hx.buffer_length] at hcap ⊢
    refine ⟨feedContext s v (restBytes v (s.ctx.carried ++ s.inBytes)), _, hinit, hfin, rfl,
      hrest.pending.trans (restBytes_length v _), hrest.carried, inReg_regHold _ _,
      (exec_sfeed_next hx).mpr ⟨hlen, hcap, ?_⟩⟩
    rw [State.completeOk, encSyms_fullBytes_length, ← encBlocks_eq_encSyms]
    rfl

/-- No pad is a symbol of the alphabet (10_state.md R29). -/
theorem not_isSymbol_PAD (w : Width) (v : Variant) : ¬ IsSymbol w v (zextW w (PAD v)) := by
  rintro ⟨g, hg, h⟩
  have hnone := REV_zextW_PAD v w
  rw [h, REV_zextW_FWD w hg] at hnone
  cases hnone

/-- Settles O42, from the full blocks SFEED emits and the rest its context carries. -/
theorem sfeedCornerCases : Obligations.SfeedCornerCases := by
  intro v s t hp h
  have hc : ctxCheck s.ctx v = none := ctxCheck_of_exec h (.inl rfl)
  have hx := carries_of_pending_lt hc hp
  have hrest := feedContext_carries hc (s.ctx.carried ++ s.inBytes)
  obtain ⟨-, -, rfl⟩ := (exec_sfeed_next hx).mp h
  rw [State.completeOk_out, State.completeOk_ctx, State.drawn_ctx, State.setCtx_ctx, hrest.carried]
  refine ⟨fun hin => ?_, fun hlt => ?_, hrest.pending ▸ hrest.short, fun hf => ⟨?_, ?_⟩, fun hpad => ?_⟩
  · have hall : s.ctx.carried ++ s.inBytes = s.ctx.carried := by simp [State.inBytes, hin]
    rw [hall] at hrest ⊢
    have hpending := hrest.pending
    rw [restBytes_of_short hx.short] at hpending ⊢
    exact ⟨by simp [fullBytes_of_short hx.short], BitVec.eq_of_toNat_eq (hpending.trans hx.pending.symm), rfl, rfl⟩
  · have hshort := hx.buffer_length.trans_lt hlt
    exact ⟨by simp [fullBytes_of_short hshort], restBytes_of_short hshort⟩
  · refine BitVec.eq_of_toNat_eq (Nat.lt_one_iff.mp ?_)
    have hshort := hrest.pending ▸ hrest.short
    rwa [hf] at hshort
  · rw [encSyms_fullBytes_length, hx.buffer_length]
    simp only [hf, Family.B, Family.S] at hp ⊢
    omega
  · exact not_isSymbol_PAD _ _ (isSymbol_of_mem_encSyms hpad)

/-! ### SFIN (R214) -/

/-- The tail block of less than a block is as long as SFIN's capacity asks. -/
theorem encTail_length_eq_sfinNeed (w : Width) (p : Bool) (h : a.length < v.family.B) :
    (encTail w v a p).length = sfinNeed v p a.length := encTail_length w v a p h

/-- SFIN, by the bytes its context carries: their tail block, and the FINALIZED context (R214). -/
theorem exec_sfin_next (hx : s.ctx.Carries v a) :
    exec (.sfin v p) s = .next t ↔
      s.inp = [] ∧ sfinNeed v p a.length ≤ s.outcap ∧
        t = (s.setCtx (finalContext s.ctx v)).completeOk (encTail s.cfg.width v a p) := by
  rw [exec, execSfin_next, hx.pending, hx.carried]
  simp [hx.check]

/-- Settles O43: SFIN's checks in order, then the tail block and `finalContext`. -/
theorem sfinFlushesTheTail : Obligations.SfinFlushesTheTail := by
  refine ⟨wordsOf_code .sfin, fun v p s hinit hfin hbound hp => ?_⟩
  have hc := (ctxCheck_eq_none _ _).mpr ⟨hinit, hfin, hbound⟩
  have hx := carries_of_pending_lt hc hp
  refine ⟨fun h => ?_, fun h hin => ?_, fun hin hcap => ?_, fun hin hcap => ?_⟩
  · simp [exec, execSfin, State.fixedTooLong_eq_true.mpr h]
  · simp [exec, execSfin, mt State.fixedTooLong_eq_true.mp h, hin]
  · rw [← sfinNeed] at hcap
    simp [exec, execSfin, State.fixedTooLong_of_nil hin, hin, hc, hcap]
  · rw [← sfinNeed] at hcap ⊢
    rw [hx.pending] at hcap ⊢
    refine ⟨_, inReg_regHold _ _, (exec_sfin_next hx).mpr ⟨hin, hcap, ?_⟩⟩
    rw [State.completeOk, encTail_length_eq_sfinNeed _ _ hx.short, finalContext, hinit]
    rfl

end Sys2Proof.Machine
end

section
/-! Streaming equals one shot (44_streaming.md R215): by induction over the chunks, the full blocks SFEED emits and the
encoding of what it carries and what is still to come are the encoding of the whole. -/

open Sys2Proof.Claims

namespace Sys2Proof.Machine

variable {v : Variant} {p : Bool} {s : State} {a b : List Byte} {cap c : Nat}

/-- A transaction of CTXINIT makes the context carry nothing, whatever it was (R210). -/
theorem transact_ctxinit (v : Variant) (s : State) (cap c : Nat) :
    ∃ t : State, transact ⟨encode .ctxinit, [], cap, c⟩ s = .next t ∧ t.out = [] ∧ t.cfg = s.cfg ∧
      (ctxRead t.ctxs c).Carries v [] := by
  refine ⟨_, (transact_of_fits (i := .ctxinit) (decode_eq_ok_iff.mpr ⟨rfl, rfl⟩) rfl).trans
    (execCtxinit_next.mpr ⟨rfl, rfl⟩), rfl, rfl, ?_⟩
  rw [State.completeOk_ctxs, State.setCtx_ctxs, State.latch_ctxSel, ctxRead_ctxWrite_same]
  exact emptyContext_carries v

/-- A transaction of SFEED emits the full blocks of the carried bytes and its own, and carries the rest (R212). -/
theorem transact_sfeed (hx : (ctxRead s.ctxs c).Carries v a) (hlen : ∀ m, s.cfg.maxLen = some m → b.length ≤ m)
    (hcap : (a ++ b).length / v.family.B * v.family.S ≤ cap) :
    ∃ t : State, transact ⟨encode (.sfeed v), units b, cap, c⟩ s = .next t ∧
      t.out = encSyms s.cfg.width v (fullBytes v (a ++ b)) ∧ t.cfg = s.cfg ∧
      (ctxRead t.ctxs c).Carries v (restBytes v (a ++ b)) := by
  have hlatch : (s.latch ⟨encode (.sfeed v), units b, cap, c⟩).ctx.Carries v a := hx
  have hadmits : (s.latch ⟨encode (.sfeed v), units b, cap, c⟩).tooLong = false :=
    State.tooLong_eq_false.mpr (by simpa using hlen)
  have hnext := (exec_sfeed_next hlatch).mpr ⟨hadmits, by rwa [latch_units_inBytes], rfl⟩
  rw [latch_units_inBytes] at hnext
  refine ⟨_, (transact_units rfl rfl).trans hnext, rfl, rfl, ?_⟩
  rw [State.completeOk_ctxs, State.drawn_ctxs, State.setCtx_ctxs, State.latch_ctxSel, ctxRead_ctxWrite_same]
  exact feedContext_carries hlatch.check _

/-- A transaction of SFIN emits the encoding of the carried bytes and finalizes the context (R214). -/
theorem transact_sfin (hx : (ctxRead s.ctxs c).Carries v a)
    (hcap : ceilDiv a.length v.family.B * v.family.S ≤ cap) :
    ∃ t : State, transact ⟨encode (.sfin v p), [], cap, c⟩ s = .next t ∧ t.out = encAll s.cfg.width v p a ∧
      (ctxRead t.ctxs c).abstractState = .finalized := by
  have hlatch : (s.latch ⟨encode (.sfin v p), [], cap, c⟩).ctx.Carries v a := hx
  have hneed : sfinNeed v p a.length ≤ cap := by
    rw [← encTail_length_eq_sfinNeed s.cfg.width p hx.short, ← encAll_of_short _ _ hx.short]
    exact (encAll_length_le _ v p a).trans hcap
  have hnext := (exec_sfin_next (p := p) hlatch).mpr ⟨rfl, hneed, rfl⟩
  obtain ⟨hinit, -⟩ := (ctxCheck_eq_none _ _).mp hlatch.check
  refine ⟨_, (transact_of_fits (decode_eq_ok_iff.mpr ⟨rfl, rfl⟩) rfl).trans hnext,
    (encAll_of_short _ _ hx.short).symm, ?_⟩
  rw [State.completeOk_ctxs, State.setCtx_ctxs, State.latch_ctxSel, ctxRead_ctxWrite_same]
  simp [Context.abstractState, finalContext, hinit]

/-- One SFEED per chunk and SFIN, from a context that carries `a`, give the encoding of `a` and the chunks joined. -/
theorem collect_feeds (chunks : List (List Byte)) (hx : (ctxRead s.ctxs c).Carries v a)
    (hlen : ∀ m, s.cfg.maxLen = some m → chunks.flatten.length ≤ m)
    (hcap : ceilDiv (a ++ chunks.flatten).length v.family.B * v.family.S ≤ cap) :
    ∃ t : State,
      collect ((chunks.map fun b => ⟨encode (.sfeed v), units b, cap, c⟩) ++ [⟨encode (.sfin v p), [], cap, c⟩]) s =
        .next (encAll s.cfg.width v p (a ++ chunks.flatten), t) ∧
      (ctxRead t.ctxs c).abstractState = .finalized := by
  induction chunks generalizing a s with
  | nil =>
    rw [List.flatten_nil, List.append_nil] at hcap ⊢
    obtain ⟨t, ht, hout, hfin⟩ := transact_sfin (p := p) hx hcap
    refine ⟨t, ?_, hfin⟩
    rw [List.map_nil, List.nil_append, collect_cons ht rfl, hout, List.append_nil]
  | cons b chunks ih =>
    have hb : b.length ≤ (b :: chunks).flatten.length := by simp
    have hchunks : chunks.flatten.length ≤ (b :: chunks).flatten.length := by simp
    rw [List.flatten_cons, ← List.append_assoc] at hcap ⊢
    have hfull : (a ++ b).length / v.family.B ≤ ceilDiv (a ++ b ++ chunks.flatten).length v.family.B :=
      div_le_ceilDiv v.family.B_pos (List.prefix_append _ _).length_le
    have hrest : (restBytes v (a ++ b) ++ chunks.flatten).length ≤ (a ++ b ++ chunks.flatten).length := by
      rw [List.length_append, List.length_append (as := a ++ b), restBytes_length]
      exact Nat.add_le_add_right (Nat.mod_le _ _) _
    obtain ⟨t, ht, hout, hcfg, hcarries⟩ := transact_sfeed hx (fun m hm => hb.trans (hlen m hm))
      ((Nat.mul_le_mul_right _ hfull).trans hcap)
    obtain ⟨u, hu, hfin⟩ := ih hcarries (hcfg ▸ fun m hm => hchunks.trans (hlen m hm))
      ((Nat.mul_le_mul_right _ (ceilDiv_mono v.family.B_pos hrest)).trans hcap)
    have hjoin := encAll_append_blocks s.cfg.width p (restBytes v (a ++ b) ++ chunks.flatten)
      (fullBytes_length v (a ++ b))
    rw [← List.append_assoc, fullBytes_append_restBytes] at hjoin
    refine ⟨u, ?_, hfin⟩
    rw [List.map_cons, List.cons_append, collect_cons ht hu, hout, hcfg, hjoin]

/-- Settles O45: from the empty context the chunks give `encAll` of the chunks joined, which is ENC's OUT. -/
theorem streamingEqualsOneShot : Obligations.StreamingEqualsOneShot := by
  intro v p c cap chunks s hlen hcap
  obtain ⟨t, ht, hout, hcfg, hcarries⟩ := transact_ctxinit v s 0 c
  obtain ⟨u, hu, hfin⟩ := collect_feeds (p := p) chunks hcarries (hcfg ▸ hlen) hcap
  have hstream := collect_cons ht hu
  have henc := collect_cons (rs := []) (transact_enc (p := p) (c := c) hlen hcap) rfl
  rw [hout, hcfg, List.nil_append, List.nil_append] at hstream
  rw [State.completeOk_out, List.append_nil] at henc
  exact ⟨_, u, _, hstream, henc, hfin⟩

end Sys2Proof.Machine
end

section
/-! The first error of DEC's pass (43_bulk.md R183, 60_exceptions.md R242, R243), by what stands after the data
symbols: nothing, a pad, or a code unit that is neither. -/

open Sys2Proof.Claims

namespace Sys2Proof.Machine

variable {w : Width} {v : Variant} {s : State} {pre post u : List CodeUnit} {c : CodeUnit} {p r q m : Nat}

/-! ### The pass up to the first pad -/

/-- Data symbols alone have no pad. -/
theorem firstPad_data (h : ∀ x ∈ pre, isData v x) : firstPad w v pre = pre.length := by
  simpa using firstPad_of_data h 0

/-- The first pad is not before what follows the data symbols. -/
theorem firstPad_data_append (h : ∀ x ∈ pre, isData v x) (u : List CodeUnit) :
    firstPad w v (pre ++ u) = pre.length + firstPad w v u := by
  rw [firstPad, List.findIdx_append, ← firstPad, firstPad_data h, if_neg (Nat.lt_irrefl _), Nat.add_comm, firstPad]

/-- A code unit that is neither data nor pad raises InvalidSymbol, whatever stands after it. -/
theorem bulkError_of_invalid (h : ∀ x ∈ pre, isData v x) (hc : REV v c = none) (hpad : c ≠ zextW w (PAD v)) :
    bulkError w v (pre ++ c :: post) = some (.invalidSymbol, pre.length) := by
  have hp : firstPad w v (pre ++ c :: post) = pre.length + (firstPad w v post + 1) := by
    rw [firstPad_data_append h, firstPad, firstPad, List.findIdx_cons, beq_false_of_ne hpad, cond_false]
  have hfirst : ((pre ++ c :: post).take (pre.length + (firstPad w v post + 1))).findIdx? (fun x => (REV v x).isNone) =
      some pre.length := by
    simp [List.take_length_add_append, List.findIdx?_append, findIdx?_isNone_of_data h, List.findIdx?_cons, hc]
  simp only [bulkError, hp, hfirst]

/-- A pad after the data symbols leaves the pass to the checks on padding. -/
theorem bulkError_of_PAD (h : ∀ x ∈ pre, isData v x) :
    bulkError w v (pre ++ zextW w (PAD v) :: post) =
      paddingError w v (pre ++ zextW w (PAD v) :: post) pre.length (pre.length % v.family.S) := by
  have hp : firstPad w v (pre ++ zextW w (PAD v) :: post) = pre.length := by
    rw [firstPad_data_append h, firstPad, List.findIdx_cons, beq_self_eq_true, cond_true, Nat.add_zero]
  simp [bulkError, hp, findIdx?_isNone_of_data h]

/-- Data symbols alone whose last group is neither whole nor a tail are truncated. -/
theorem bulkError_of_data (h : ∀ x ∈ pre, isData v x) (h0 : pre.length % v.family.S ≠ 0)
    (htail : pre.length % v.family.S ∉ v.family.tails) :
    bulkError w v pre = some (.truncatedInput, pre.length - pre.length % v.family.S) := by
  simp [bulkError, firstPad_data h, findIdx?_isNone_of_data h, h0, htail]

/-! ### The checks on padding -/

/-- A pad where no tail ends is unexpected. -/
theorem paddingError_of_not_tail (hr : r ∉ v.family.tails) :
    paddingError w v u p r = some (.unexpectedPadding, p) := by
  simp [paddingError, hr]

/-- After a tail, the first code unit after the pads that is none decides: whether it is data or not. -/
theorem paddingError_of_not_PAD (hr : r ∈ v.family.tails)
    (hu : u.drop (p + 1) = List.replicate m (zextW w (PAD v)) ++ c :: post) (hc : c ≠ zextW w (PAD v)) :
    paddingError w v u p r = some (if REV v c = none then .invalidSymbol else .unexpectedPadding, p + m + 1) := by
  have hfirst : (u.drop (p + 1)).findIdx? (fun x => x != zextW w (PAD v)) = some m := by
    simp [hu, List.findIdx?_append, List.findIdx?_replicate, List.findIdx?_cons, hc]
  have hget : u.getD (p + m + 1) 0 = c := by
    rw [Nat.add_right_comm, List.getD_eq_getElem?_getD, ← List.getElem?_drop, hu]
    simp
  simp only [paddingError, hr, not_true_eq_false, if_false, hfirst, Nat.add_right_comm p 1 m, hget,
    Option.isNone_iff_eq_none]
  split <;> rfl

/-- After a tail, pads to the end are too few, too many, or those that fill it. -/
theorem paddingError_of_pads (hr : r ∈ v.family.tails) (hu : u.drop (p + 1) = List.replicate q (zextW w (PAD v)))
    (hlen : u.length - p = q + 1) :
    paddingError w v u p r =
      if q + 1 < v.family.S - r then some (.truncatedInput, p - r)
      else if v.family.S - r < q + 1 then some (.unexpectedPadding, p + (v.family.S - r))
      else none := by
  have hnone : (u.drop (p + 1)).findIdx? (fun x => x != zextW w (PAD v)) = none :=
    findIdx?_ne_PAD_eq_none_iff.mpr (by simp [hu])
  simp [paddingError, hr, hnone, hlen]

/-- The pass over data symbols of a tail and pads to the end. -/
theorem bulkError_of_pads (h : ∀ x ∈ pre, isData v x) (hr : pre.length % v.family.S ∈ v.family.tails) :
    bulkError w v (pre ++ List.replicate (q + 1) (zextW w (PAD v))) =
      if q + 1 < v.family.S - pre.length % v.family.S then
        some (.truncatedInput, pre.length - pre.length % v.family.S)
      else if v.family.S - pre.length % v.family.S < q + 1 then
        some (.unexpectedPadding, pre.length + (v.family.S - pre.length % v.family.S))
      else none := by
  rw [List.replicate_succ, bulkError_of_PAD h]
  exact paddingError_of_pads hr (by simp [List.drop_length_add_append]) (by simp)

/-- The pass over data symbols of a tail, pads, and a code unit that is none. -/
theorem bulkError_of_not_PAD (h : ∀ x ∈ pre, isData v x) (hr : pre.length % v.family.S ∈ v.family.tails)
    (hc : c ≠ zextW w (PAD v)) :
    bulkError w v (pre ++ List.replicate (m + 1) (zextW w (PAD v)) ++ c :: post) =
      some (if REV v c = none then .invalidSymbol else .unexpectedPadding, pre.length + m + 1) := by
  rw [List.append_assoc, List.replicate_succ, List.cons_append, bulkError_of_PAD h]
  exact paddingError_of_not_PAD (post := post) hr (by simp [List.drop_length_add_append]) hc

/-! ### What DEC reports -/

/-- DEC raises the error of its pass, whose offset ERROFF has room for. -/
theorem raisesError_of_bulkError {e : Status} {off : Nat} (hok : DecOperandsOk v s)
    (h : bulkError s.cfg.width v s.inUnits = some (e, off)) : RaisesError v s e off := by
  obtain ⟨hlen, hcap⟩ := hok
  obtain ⟨-, hoff⟩ := bulkError_some h
  rw [State.inUnits_length] at hoff
  have hfits : regHold s.cfg off = off :=
    regHold_of_le fun m hm => hoff.le.trans (State.tooLong_eq_false.mp hlen m hm)
  refine ⟨_, s.raiseErr_out_length_le e off, execDec_next.mpr ⟨hlen, hcap, .inr ⟨e, off, h, ?_⟩⟩⟩
  rw [State.raiseErr, hfits]

/-- Settles O33: each clause is a case of the pass, and DEC raises the error found there. -/
theorem decReportsTheFirstError : Obligations.DecReportsTheFirstError := by
  intro v s pre hok hdata
  refine ⟨fun c post hin hc hpad => ?_, fun post hin hr => ?_, fun m c post hin hr hc => ?_, fun q hin hr hq => ?_,
    fun q hin hr hq => ?_, fun hin h0 hr => ?_⟩ <;> apply raisesError_of_bulkError hok <;> rw [hin]
  · exact bulkError_of_invalid hdata hc hpad
  · rw [bulkError_of_PAD hdata, paddingError_of_not_tail hr]
  · exact bulkError_of_not_PAD hdata hr hc
  · rw [bulkError_of_pads hdata hr, if_pos hq]
  · rw [bulkError_of_pads hdata hr, if_neg (by omega), if_pos hq]
  · exact bulkError_of_data hdata h0 hr

end Sys2Proof.Machine
end

section
/-! The operand checks in their order (60_exceptions.md R244): every command is a chain of checks, each of which faults
or leaves the outcome to the next. -/

open Sys2Proof.Claims

namespace Sys2Proof.Machine

variable {s : State} {i : Instr} {v : Variant} {p : Bool} {n : Nat}

/-! ### The outcome that the first failing check decides -/

/-- The outcome is this fault, or with no fault a next state. -/
def DecidedBy (o : Host.Outcome State Fault Refusal) : Option Fault → Prop
  | some f => o = .fault f
  | none => ∃ t, o = .next t

/-- A next state is decided by no fault. -/
theorem decidedBy_next (t : State) : DecidedBy (.next t) none := ⟨t, rfl⟩

/-- A check that fails decides; one that passes leaves the outcome to the checks after it. -/
theorem DecidedBy.check {c : Prop} [Decidable c] {f : Fault} {o : Host.Outcome State Fault Refusal} {d : Option Fault}
    (h : DecidedBy o d) : DecidedBy (if c then .fault f else o) (if c then some f else d) := by
  split
  · rfl
  · exact h

/-- The fault that decides is the outcome's. -/
theorem DecidedBy.fault_iff {o : Host.Outcome State Fault Refusal} {d : Option Fault} (h : DecidedBy o d) (f : Fault) :
    o = .fault f ↔ d = some f := by
  cases d with
  | none =>
    obtain ⟨t, rfl⟩ := h
    simp
  | some g =>
    rw [show o = .fault g from h]
    simp

/-! ### The checks of `firstFault`, as the commands make them -/

/-- IN is too long exactly where it exceeds a finite MAX_LEN (R248). -/
theorem State.tooLong_iff : s.tooLong = true ↔ ∃ m, s.cfg.maxLen = some m ∧ m < s.inp.length := by
  rw [← Bool.not_eq_false, State.tooLong_eq_false]
  simp

/-- The context check read off the abstract state is CtxCheck (44_streaming.md R211). -/
theorem contextFault_eq_ctxCheck (x : Context) (v : Variant) : contextFault x v = ctxCheck x v := by
  unfold contextFault ctxCheck Context.abstractState
  cases x.init
  · rfl
  · cases x.fin
    · simp only [ne_eq, ← not_or, ite_not]
      by_cases hp : x.pending = 0 <;> simp only [hp] <;> rfl
    · rfl

/-- SFIN's capacity in the table of R246 is the `need` of 44_streaming.md R214. -/
theorem requiredCap_sfin (v : Variant) (p : Bool) (s : State) :
    requiredCap (.sfin v p) s = sfinNeed v p s.ctx.pending.toNat := by
  have hzero : s.ctx.pending = 0 ↔ s.ctx.pending.toNat = 0 := BitVec.toNat_inj.symm
  simp only [requiredCap, sfinNeed, hzero]

/-- Checks 4 and 5 of R244: the context, for SFEED and SFIN, and then the capacity. -/
def laterFault (i : Instr) (s : State) : Option Fault :=
  if (i.op = .sfeed ∨ i.op = .sfin) ∧ contextFault s.ctx i.variant ≠ none then contextFault s.ctx i.variant
  else if s.outcap < requiredCap i s then some .fOutcap
  else none

/-- A command of any length makes check 2 and no check 3. -/
theorem firstFault_of_anyLength (h : i.op.inLen = none) :
    firstFault i s = if s.tooLong then some .fLength else laterFault i s := by
  have hcheck : i.op = .enc ∨ i.op = .dec ∨ i.op = .sfeed ∨ s.cfg.lengthRule = .everyCommand := by
    cases ho : i.op <;> simp [ho, Op.inLen] at h ⊢
  simp [firstFault, laterFault, h, hcheck, State.tooLong_iff]

/-- A command of fixed length makes check 2 in one reading of 00_scope.md R8, and check 3. -/
theorem firstFault_of_fixedLength (h : i.op.inLen = some n) :
    firstFault i s =
      if s.fixedTooLong then some .fLength else if s.inp.length ≠ n then some .fOperand else laterFault i s := by
  have hop : i.op ≠ .enc ∧ i.op ≠ .dec ∧ i.op ≠ .sfeed := by
    refine ⟨?_, ?_, ?_⟩ <;> intro ho <;> simp [ho, Op.inLen] at h
  simp [firstFault, laterFault, h, hop, State.fixedTooLong_eq_true, overLimit, eq_comm (a := n)]

/-- A command that takes no open context makes check 5 alone after its length checks. -/
theorem laterFault_of_noContext (h : ¬ (i.op = .sfeed ∨ i.op = .sfin)) :
    laterFault i s = if s.outcap < requiredCap i s then some .fOutcap else none := by
  simp [laterFault, h]

/-- SFEED and SFIN make the context check before check 5. -/
theorem laterFault_of_context (h : i.op = .sfeed ∨ i.op = .sfin) :
    laterFault i s =
      (ctxCheck s.ctx i.variant).or (if s.outcap < requiredCap i s then some .fOutcap else none) := by
  rw [laterFault, contextFault_eq_ctxCheck]
  cases ctxCheck s.ctx i.variant <;> simp [h]

/-! ### The commands by shape -/

/-- The length an E* or D* command asks is its row's (30_encoding.md R85); such a command takes no context. -/
theorem inLen_of_block (h : i.op ∈ encodeBlockOps ∨ i.op ∈ decodeBlockOps) :
    i.op.inLen = some (i.op.inLen.getD 0) ∧ ¬ (i.op = .sfeed ∨ i.op = .sfin) := by
  cases ho : i.op <;> simp [ho, encodeBlockOps, decodeBlockOps] at h <;> simp [Op.inLen]

/-- Checks 2, 3 and 5 are those of an E* or D* command. -/
theorem firstFault_of_block (h : i.op ∈ encodeBlockOps ∨ i.op ∈ decodeBlockOps) :
    firstFault i s =
      if s.fixedTooLong then some .fLength
      else if s.inp.length ≠ i.op.inLen.getD 0 then some .fOperand
      else if s.outcap < requiredCap i s then some .fOutcap
      else none := by
  obtain ⟨hlen, hctx⟩ := inLen_of_block h
  rw [firstFault_of_fixedLength hlen, laterFault_of_noContext hctx]

/-- Every E* command is `EncCommon` at the length and the capacity its rows list (30_encoding.md R85, R246). -/
theorem exec_eq_encCommon (h : i.op ∈ encodeBlockOps) (s : State) :
    ∃ body, exec i s = encCommon (i.op.inLen.getD 0) (requiredCap i s) body s := by
  cases i with
  | e64t1 v p | e64t2 v p | e32t1 v p | e32t2 v p | e32t3 v p | e32t4 v p =>
    exact ⟨fun b => encTail s.cfg.width v b p, rfl⟩
  | e64b3 v | e32b5 v | e16b1 v => exact ⟨fun b => encSyms s.cfg.width v b, rfl⟩
  | e64b6 v => exact ⟨fun b => encSyms s.cfg.width v (b.take 3) ++ encSyms s.cfg.width v (b.drop 3), rfl⟩
  | _ => simp [Instr.op, encodeBlockOps] at h

/-- A D* command's capacity is the bytes of its symbols (10_state.md R21, R246). -/
theorem requiredCap_of_decodeBlock (h : i.op ∈ decodeBlockOps) (hwf : i.WellFormed) (s : State) :
    requiredCap i s = i.variant.family.tbytes (i.op.inLen.getD 0) := by
  cases i with
  | d64t2 v | d64t3 v | d64b4 v | d32t2 v | d32t4 v | d32t5 v | d32t7 v | d32b8 v | d16b2 v =>
    have hf : v.family = _ := of_decide_eq_true hwf
    simp only [requiredCap, Instr.variant, Instr.op, Op.inLen, Option.getD_some, hf]
    rfl
  | _ => simp [Instr.op, decodeBlockOps] at h

/-- The checks of `EncCommon` (41_block_encode.md R100). -/
theorem encCommon_decidedBy (n need : Nat) (body : List Byte → List CodeUnit) (s : State) :
    DecidedBy (encCommon n need body s)
      (if s.fixedTooLong then some .fLength else if s.inp.length ≠ n then some .fOperand
        else if s.outcap < need then some .fOutcap else none) :=
  .check (.check (.check (decidedBy_next _)))

/-- The checks of `DecCommon` (42_block_decode.md R140); an error is no fault. -/
theorem decCommon_decidedBy (v : Variant) (n : Nat) (s : State) :
    DecidedBy (decCommon v n s)
      (if s.fixedTooLong then some .fLength else if s.inp.length ≠ n then some .fOperand
        else if s.outcap < v.family.tbytes n then some .fOutcap else none) := by
  refine .check (.check (.check ?_))
  split <;> exact decidedBy_next _

/-- The checks of DEC (43_bulk.md R183); an error is no fault. -/
theorem execDec_decidedBy (v : Variant) (s : State) : DecidedBy (execDec v s) (firstFault (.dec v) s) := by
  rw [firstFault_of_anyLength rfl, laterFault_of_noContext (by simp [Instr.op])]
  refine .check (.check ?_)
  split <;> exact decidedBy_next _

/-- The checks of SFEED (44_streaming.md R212). -/
theorem execSfeed_decidedBy (v : Variant) (s : State) : DecidedBy (execSfeed v s) (firstFault (.sfeed v) s) := by
  rw [firstFault_of_anyLength rfl, laterFault_of_context (.inl rfl)]
  refine .check ?_
  cases hc : ctxCheck s.ctx v with
  | some f =>
    simp only [hc, Instr.variant]
    rfl
  | none =>
    simp only [hc, Instr.variant]
    exact .check (decidedBy_next _)

/-- The checks of SFIN (44_streaming.md R214). -/
theorem execSfin_decidedBy (v : Variant) (p : Bool) (s : State) :
    DecidedBy (execSfin v p s) (firstFault (.sfin v p) s) := by
  rw [firstFault_of_fixedLength rfl, laterFault_of_context (.inr rfl), requiredCap_sfin]
  refine .check (.check ?_)
  cases hc : ctxCheck s.ctx v with
  | some f =>
    simp only [hc, Instr.variant]
    rfl
  | none =>
    simp only [hc, Instr.variant]
    exact .check (decidedBy_next _)

/-- The outcome of a well-formed command is decided by the first of its checks that fails. -/
theorem exec_decidedBy (hwf : i.WellFormed) (s : State) : DecidedBy (exec i s) (firstFault i s) := by
  obtain ⟨v, p, rfl⟩ | ⟨v, rfl⟩ | rfl | ⟨v, rfl⟩ | ⟨v, p, rfl⟩ | hi | hi := instr_cases i
  · rw [firstFault_of_anyLength rfl, laterFault_of_noContext (by simp [Instr.op])]
    exact .check (.check (decidedBy_next _))
  · exact execDec_decidedBy v s
  · rw [firstFault_of_fixedLength rfl, laterFault_of_noContext (by simp [Instr.op]), requiredCap,
      if_neg (Nat.not_lt_zero _)]
    exact .check (.check (decidedBy_next _))
  · exact execSfeed_decidedBy v s
  · exact execSfin_decidedBy v p s
  · obtain ⟨body, hexec⟩ := exec_eq_encCommon hi s
    rw [hexec, firstFault_of_block (.inl hi)]
    exact encCommon_decidedBy _ _ body s
  · rw [exec_of_decodeBlock hi, firstFault_of_block (.inr hi), requiredCap_of_decodeBlock hi hwf]
    exact decCommon_decidedBy _ _ s

/-- Settles O46, from the check that decides. -/
theorem checksDecideTheFault : Obligations.ChecksDecideTheFault := by
  intro i s hwf
  have hdec := exec_decidedBy hwf s
  exact ⟨hdec.fault_iff, fun hnone => by rwa [hnone] at hdec⟩

end Sys2Proof.Machine
end

section
/-! The fault set along a run (60_exceptions.md R245): a fault writes nothing else, and a faulted block stays so. -/

open Sys2Proof.Claims

namespace Sys2Proof.Machine

variable {s : State} {f : Fault}

/-- What follows a fault: the action is taken and the reason recorded (log entry 4). -/
theorem advance_of_fault (h : step s = .fault f) : advance s = { s.recordFault f with queue := s.queue.tail } := by
  rw [advance, h]

/-- A recorded reason stays in the fault set: a faulted block only faults, which adds to the set. -/
theorem mem_faults_advance (h : f ∈ s.faults) : f ∈ (advance s).faults := by
  obtain ⟨g, gs, hs⟩ := List.exists_cons_of_ne_nil (List.ne_nil_of_mem h)
  rw [advance_of_fault (step_of_faulted hs)]
  exact (s.mem_recordFault _ f).mpr (.inl h)

/-- The same after any number of steps. -/
theorem mem_faults_advanceN (n : Nat) (h : f ∈ s.faults) : f ∈ (advanceN n s).faults := by
  induction n generalizing s with
  | zero => exact h
  | succ n ih => exact ih (mem_faults_advance h)

/-- Settles O54: the state after a fault holds the reason, and every later state keeps it. -/
theorem faultIsRecordedForTheWholeRun : Obligations.FaultIsRecordedForTheWholeRun := by
  intro s f h
  have hadvance := advance_of_fault h
  have hmem : f ∈ (advance s).faults := hadvance ▸ (s.mem_recordFault f f).mpr (.inr rfl)
  refine ⟨hadvance ▸ rfl, ?_, fun n => ⟨mem_faults_advanceN n hmem, fun ⟨_, hempty⟩ => ?_⟩⟩
  · rw [hadvance]
    exact congrArg (fun u : State => { u with queue := s.queue }) (s.recordFault_elsewhere f)
  · exact List.ne_nil_of_mem (mem_faults_advanceN n hmem) hempty

end Sys2Proof.Machine
end

section
/-! Host reads of the result registers (60_exceptions.md R249). -/

open Sys2Proof.Claims

namespace Sys2Proof.Machine

variable {s t : State} {r : RegName} {rest : List HostAction}

/-- What the host presents does not change what a register holds. -/
@[simp] theorem State.regValue_queue (q : List HostAction) : State.regValue { t with queue := q } r = t.regValue r := by
  cases r <;> rfl

/-- A step that takes a read reads the register. -/
theorem step_read (hf : t.faults = []) :
    step { t with queue := .read r :: rest } = readReg r { t with queue := rest } :=
  step_of_action (s := { t with queue := .read r :: rest }) hf rfl

/-- A read of a register that holds a value is answered with it. -/
theorem step_read_of_holds {x : Nat} (hf : t.faults = []) (hr : t.regValue r = .holds x) :
    step { t with queue := .read r :: rest } = .next { t with queue := rest, readData := some x } :=
  (step_read hf).trans (readReg_next.mpr ⟨x, by rwa [State.regValue_queue], rfl⟩)

/-- A read of a register that holds none faults. -/
theorem step_read_of_unwritten (hf : t.faults = []) (hr : t.regValue r = .unwritten) :
    step { t with queue := .read r :: rest } = .fault .fUnwritten := by
  rw [step_read hf, readReg, State.regValue_queue, hr]

/-- STATUS is read as its code (10_state.md R30). -/
theorem State.regValue_status {code : Status} (h : t.status = .holds code) :
    t.regValue .status = .holds code.code.toNat := by
  rw [State.regValue, h]

/-- Settles O55: the registers as `exec_results` leaves them, each read by whether it holds a value. -/
theorem unwrittenReadsFault : Obligations.UnwrittenReadsFault := by
  refine ⟨fun i s t rest h hf => ?_, fun cfg r rest => ?_, fun s r rest hf hq => ?_⟩
  · have hstatus {code : Status} (hcode : t.status = .holds code) :=
      step_read_of_holds (rest := rest) hf (State.regValue_status hcode)
    obtain ⟨hcfg, -⟩ := commandsChangeOnlyTheirResults i s t h
    refine ⟨fun hok => ?_, hstatus, hstatus, hstatus, fun hne => ?_⟩
    · obtain ⟨-, herr, hcount⟩ | ⟨code, -, -, hcode, -, hst, -⟩ := exec_results h
      · exact ⟨step_read_of_unwritten hf herr,
          ⟨_, hcfg ▸ inReg_regHold _ _, step_read_of_holds hf hcount⟩, hstatus hok⟩
      · exact absurd (by simpa [hok] using hst.symm) hcode
    · obtain ⟨hok, -⟩ | ⟨code, off, -, -, hoff, -, herr, hcount⟩ := exec_results h
      · exact absurd hok hne
      · exact ⟨step_read_of_unwritten hf hcount,
          off, _, hoff, hcfg ▸ inReg_regHold _ _, step_read_of_holds hf herr⟩
  · exact step_read_of_unwritten rfl (by cases r <;> rfl)
  · obtain ⟨f, fs, hs⟩ := List.exists_cons_of_ne_nil hf
    rw [step_of_faulted hs, hq, afterFault]

end Sys2Proof.Machine
end

section
/-! The state after reset and the block reset (70_reset_and_hazards.md R270, R271): a reset writes nothing that a
transaction reads. -/

open Sys2Proof.Claims

namespace Sys2Proof.Machine

variable {s s' : State} {r : Request} {rest : List HostAction}

/-- After reset every context is a record never given CTXINIT (R270). -/
@[simp] theorem ctxRead_resetWith (cfg : Config) (c : Nat) : ctxRead (State.resetWith cfg).ctxs c = freshContext c :=
  rfl

/-- Such a record is UNINIT (10_state.md R45). -/
@[simp] theorem freshContext_abstractState (c : Nat) : (freshContext c).abstractState = .uninit := rfl

/-- Settles O56: every context reads as a fresh record. -/
theorem resetLeavesNothingWritten : Obligations.ResetLeavesNothingWritten := by
  refine fun cfg => ⟨rfl, rfl, rfl, rfl, fun c => ?_⟩
  rw [ctxRead_resetWith]
  exact ⟨rfl, rfl, rfl, freshContext_abstractState c⟩

/-- Settles O58: the empty store is legal, no register holds a value, OUT and the fault set are empty. -/
theorem invariantAtReset : Obligations.InvariantAtReset :=
  fun _ => ⟨rfl, rfl, rfl, Nat.le_refl 0, List.nodup_nil⟩

/-- A step of an unfaulted block that takes a reset is the block reset. -/
theorem step_of_reset (hf : s.faults = []) (hq : s.queue = .reset :: rest) :
    step s = .next ({ s with queue := rest } : State).blockReset :=
  step_of_action hf hq

/-- The faults of a transaction, too, are decided by W, MAX_LEN and its own operands and context alone
(20_memory.md R68). -/
theorem transact_fault_congr (hcfg : s.cfg = s'.cfg)
    (hctx : ∀ c, r.Takes c → sameContext (ctxRead s.ctxs c) (ctxRead s'.ctxs c)) (f : Fault) :
    transact r s = .fault f ↔ transact r s' = .fault f := by
  rw [transact_fault, transact_fault, hcfg]
  refine or_congr_right (exists_congr fun i => and_congr_right fun hdecode => and_congr_right fun _ => ?_)
  obtain ⟨hfaults, -⟩ := resultsDependOnOperandsAlone i (s.latch r) (s'.latch r) hcfg rfl rfl
    fun hi => hctx _ ⟨⟨i, hdecode, hi⟩, rfl⟩
  exact hfaults f

/-- Settles O57: a block reset keeps W, MAX_LEN and the host's records, and a transaction finds no more than these
in the block. -/
theorem blockResetKeepsStreams : Obligations.BlockResetKeepsStreams := by
  intro s t rest hf hq h
  have hreset := Host.Outcome.next.inj ((step_of_reset hf hq).symm.trans h)
  have hcfg : s.cfg = t.cfg := by simp [← hreset]
  have hctxs (c : Nat) : ctxRead t.ctxs c = ctxRead s.ctxs c := by simp [← hreset]
  have halike (c : Nat) : sameContext (ctxRead s.ctxs c) (ctxRead t.ctxs c) := hctxs c ▸ sameContext_refl _
  refine ⟨hctxs, fun r f => transact_fault_congr hcfg (fun c _ => halike c) f, fun r u hu => ?_⟩
  obtain ⟨u', hu', hanswer, hctx⟩ := transact_congr hcfg (fun c _ => halike c) hu
  exact ⟨u', hu', hanswer, fun c => hctx c (halike c)⟩

end Sys2Proof.Machine
end

section
/-! Runs: what every step keeps, every run without fault keeps; and W and MAX_LEN are kept
(70_reset_and_hazards.md R272). -/

namespace Sys2Proof.Machine

variable {s t : State} {n : Nat}

/-- A safe run of no steps stays where it is. -/
theorem safeRun_zero : SafeRun 0 s t ↔ s = t := ⟨Host.Outcome.next.inj, congrArg _⟩

/-- A safe run of `n + 1` steps is a step that answers a next state, then a safe run of `n`. -/
theorem safeRun_succ : SafeRun (n + 1) s t ↔ ∃ u, step s = .next u ∧ SafeRun n u t := by
  simp only [SafeRun, Host.Core.run, show core.step s = step s from rfl]
  cases step s <;> simp

/-- What every step keeps holds at the end of a safe run if it holds at its start. -/
theorem SafeRun.keeps {P : State → Prop} (hstep : ∀ u u', P u → step u = .next u' → P u') (h : SafeRun n s t)
    (hs : P s) : P t := by
  induction n generalizing s with
  | zero => exact safeRun_zero.mp h ▸ hs
  | succ n ih =>
    obtain ⟨u, hu, hrun⟩ := safeRun_succ.mp h
    exact ih hrun (hstep s u hs hu)

/-- No host action writes W or MAX_LEN. -/
theorem step_cfg (h : step s = .next t) : t.cfg = s.cfg := by
  obtain ⟨-, ⟨-, rfl⟩ | ⟨a, rest, -, ⟨r, -, hr⟩ | ⟨r, x, -, -, rfl⟩ | ⟨-, rfl⟩⟩⟩ := step_next_cases h
  · rfl
  · exact transact_cfg (s := { s with queue := rest }) hr
  · rfl
  · rfl

/-- Settles O60, by induction over the run. -/
theorem configurationIsFixedForTheRun : Obligations.ConfigurationIsFixedForTheRun := by
  intro n s t h
  exact h.keeps (P := fun u => u.cfg = s.cfg) (fun u u' hu hstep => (step_cfg hstep).trans hu) rfl

end Sys2Proof.Machine
end
